-- ==== Sys2Proof/Word.lean ====
section
/-! DEFINITION. The word types of the LZSS codec core: the widths of spec/00_scope.md R6, and nothing else. -/

namespace Sys2Proof

/-- A 32-bit word: a host register, a stream word, a header field (R6 `WORD_BITS` = 32). -/
abbrev Word := BitVec 32

/-- One byte of memory (R60). -/
abbrev Byte := BitVec 8

/-- A 16-bit token (R6 `TOKEN_BITS` = 16, R86). -/
abbrev Token := BitVec 16

end Sys2Proof
end

