-- ==== Sys2Proof/Config.lean ====
section
/-! DEFINITION. What an implementation or a platform fixes (R6, 92_eei_decisions.md), and the model's free values.

The platform's OPEN parameters `CSR_BASE` and `memOk` (R6, D29) are plain data, `Platform`, that State holds and no step changes:
a claim about every state holds for every platform (assumption 1).  A free value is a constant with no body: nothing can be
proved about which value it has. -/

namespace Sys2Proof

/-- A half-open range of byte addresses `[lo, hi)`. -/
structure AddrRange where
  lo : Nat
  hi : Nat
  deriving DecidableEq, Repr

/-- The platform the block is placed in (R6, R61, R64, R67): what the block does not decide itself. -/
structure Platform where
  /-- `CSR_BASE`: the bus byte address of register index 0 (R21, R67). -/
  csrBase : Word
  /-- The addresses at which the memory does NOT answer: `memOk(a)` is false exactly inside these ranges (R61). -/
  holes   : List AddrRange
  /-- The addresses that are not ordinary memory: reads with side effects, FIFOs (R64, U18). -/
  devices : List AddrRange
  deriving DecidableEq, Repr

namespace Config

/-- The number of byte addresses of the one address space, `2^32` (R60). -/
def addressSpace : Nat := 2 ^ 32

/-- `HEADER_BYTES` (R6). -/
def headerBytes : Nat := 8

/-- `DICT_MIN` (R6). -/
def dictMin : Nat := 4

/-- `DICT_MAX` (R6). -/
def dictMax : Nat := 16384

/-- `MIN_OFFSET` and `MIN_MATCH`, both 3 (R6). -/
def minOffset : Nat := 3

/-- `MIN_MATCH` (R6). -/
def minMatch : Nat := 3

/-- `ID_VALUE` (R6, R33). -/
def idValue : Word := 0x4C5A5353

/-- FREE VALUE (assumption 4).  The byte at address `a` of an output region whose contents the `gen`-th unspecified event left
open (R235, R251: "a model treats it as any value"). -/
opaque freeByte (gen a : Nat) : Byte

/-- FREE VALUE (assumption 5).  Whether, at its `gen`-th opportunity, an implementation that reads the input region ahead of the
rules raises BusError for an input byte the memory does not answer (R61, U14). -/
opaque prefetchFault (gen : Nat) : Bool

/-- FREE VALUE (assumptions 6, 17).  What another agent sees, at its `gen`-th such read, at a byte of the output region of a running
operation (R71, U21) or at a device (R64). -/
opaque agentView (gen : Nat) : Byte

end Config

end Sys2Proof
end

