-- ==== Sys2Proof/Syntax.lean ====
section
/-! DEFINITION. The instructions: one constructor of `Instr` per row of spec/opcode_table.json, in the table's order, and the
names their operands are made of.  The block fetches no instructions (R50): what a row stands for is a host command, a register
access, an item of the compressed stream, or one of the block's internal operations (R96). -/

namespace Sys2Proof

/-- The sixteen host registers, by index 0 to 15 (R21). -/
inductive Reg where
  | ctrl | status | errcode | dictLen | srcAddr | srcLen | dstAddr | dstCap
  | resultLen | hdrUlen | hdrDict | ident | rsv12 | rsv13 | rsv14 | rsv15
  deriving DecidableEq, Repr

/-- The values of ERRCODE (R221): none, and the twelve errors in the order of their codes. -/
inductive ErrorCode where
  | noError
  | invalidDictionary | dictionaryTooSmall | dictionaryTooLarge | outputTooSmall
  | truncatedInput | corruptHeader | badOffset | lengthOverrun
  | badBuffer | illegalCommand | aborted | busError
  deriving DecidableEq, Repr

/-- The packer's three sub-streams (R120): flags, strings, bytes. -/
inductive SubStream where
  | flags | strings | bytes
  deriving DecidableEq, Repr

/-- The two kinds of operation that a command can start (R201). -/
inductive OpKind where
  | enc | dec
  deriving DecidableEq, Repr

/-- One access on the host bus, as the bus carries it: a whole 32-bit read or write at a bus byte address (R21, R93). -/
structure BusAccess where
  isWrite : Bool
  addr    : Word
  data    : Word
  deriving DecidableEq, Repr

/-- One constructor per row of spec/opcode_table.json. -/
inductive Instr where
  -- CTRL writes (R92): the interrupt enable the write carries and, for the reserved codes, the free bits of CMD
  | nop (ie : Bool)
  | compress (ie : Bool)
  | decompress (ie : Bool)
  | abort (ie : Bool)
  | reservedCmd01xx (low : BitVec 2) (ie : Bool)
  | reservedCmd1xxx (low : BitVec 3) (ie : Bool)
  -- the other accesses of the register port (R207, R208, R209)
  | statusW1c (clrDone clrErr : Bool)
  | configWrite (r : Reg) (value : Word)
  | regRead (r : Reg)
  -- the items of the compressed stream (R81, R83 to R88)
  | header (uncompressedLength dictionaryLength : Word)
  | flagWord (flags : Word)
  | stringWord (token0 token1 : Token)
  | byteWord (byte0 byte1 byte2 byte3 : Byte)
  | lit
  | str
  | token (t : Token)
  -- the internal operations (R96 d): header codec and packer
  | writeHeader (n d : Word)
  | readHeader
  | packerInit
  | reserve
  | flush (k : SubStream)
  | emitFlag (b : Bool)
  | emitLiteral (v : Byte)
  | emitString (offset length : Nat)
  | finish
  -- encoder
  | deriveParams (d : Word)
  | validateDict (d : Word)
  | matchLen (s cur lim : Nat)
  | matchSearch (cur : Nat)
  | tokenPack (offset length : Nat)
  | encodeStep
  | compressBody
  -- decoder
  | decompressBody
  | decInit (n d : Word)
  | readWord
  | flagRefill
  | decodeStep
  | stringRefill
  | tokenUnpack (t : Token)
  | stringChecks (offset length : Nat)
  | windowCopy (offset length : Nat)
  | byteRefill
  | flagAdvance
  -- control
  | accept (kind : OpKind)
  | complete (r : Word)
  | step
  | errorEntry (c : ErrorCode)
  | reset (asserted : Bool)
  deriving DecidableEq, Repr

end Sys2Proof
end

