-- ==== Sys2Proof/WellFormed.lean ====
section
/-! DEFINITION. Which instruction terms are instructions: the operand ranges that the operand paragraph of each rule gives.
A range that depends on the state (an offset of at most `op.maxOff`) is checked here at its widest, over every legal dictionary
length. -/

namespace Sys2Proof

/-- The legal dictionary lengths: the powers of two from 4 to 16384 (R6, R141).  They are thirteen, one for each `ls` from 2 to 14
as in the table of R86; R6 writes "twelve values" (assumption 12). -/
def legalDicts : List Nat := [4, 8, 16, 32, 64, 128, 256, 512, 1024, 2048, 4096, 8192, 16384]

/-- `d` is a legal dictionary length (R6). -/
def dictLegal (d : Word) : Bool := legalDicts.contains d.toNat

/-- (offset, length) is a match some legal dictionary length can encode: `3 ≤ offset ≤ d + 2`, `3 ≤ length ≤ 65536 / d + 2`
(R86, R146). -/
def encodableMatch (offset length : Nat) : Bool :=
  decide (3 ≤ offset) && decide (3 ≤ length) &&
    legalDicts.any fun d => decide (offset ≤ d + 2) && decide (length ≤ 65536 / d + 2)

/-- The operand ranges of each rule. -/
def Instr.wellFormed : Instr → Bool
  | .configWrite r _ => r != .ctrl && r != .status                    -- R93: writes other than CTRL and STATUS
  | .writeHeader _ d => dictLegal d                                   -- R110: d already validated
  | .emitString o l => encodableMatch o l                             -- R125
  | .deriveParams d => dictLegal d                                    -- R140
  | .matchLen s cur lim => decide (s + 3 ≤ cur) && decide (cur + lim < 2 ^ 32)   -- R143: s ∈ C(cur), cur + lim ≤ n
  | .matchSearch cur => decide (cur < 2 ^ 32)                         -- R144: cur < n
  | .tokenPack o l => encodableMatch o l                              -- R146
  | .decInit _ d => dictLegal d                                       -- R171: d legal
  | .stringChecks o l => encodableMatch o l                           -- R177: what TOKEN_UNPACK returns (R176)
  | .windowCopy o l => encodableMatch o l                             -- R178
  | .errorEntry c => c != .noError                                    -- R221, R235: one of the twelve errors
  | .nop _ | .compress _ | .decompress _ | .abort _ | .reservedCmd01xx _ _ | .reservedCmd1xxx _ _ | .statusW1c _ _ | .regRead _
  | .header _ _ | .flagWord _ | .stringWord _ _ | .byteWord _ _ _ _ | .lit | .str | .token _ | .readHeader | .packerInit
  | .reserve | .flush _ | .emitFlag _ | .emitLiteral _ | .finish | .validateDict _ | .encodeStep | .compressBody
  | .decompressBody | .readWord | .flagRefill | .decodeStep | .stringRefill | .tokenUnpack _ | .byteRefill | .flagAdvance
  | .accept _ | .complete _ | .step | .reset _ => true

end Sys2Proof
end

