-- ==== Sys2Proof/Decode.lean ====
section
/-! DEFINITION. From encodings to instructions and back (30_encoding.md).

Three kinds of thing are encoded (R96): an access of the register port, an item of the compressed stream, and an element, whose
kind is its flag bit.  The kind of a stream item is told by the position at which it is read, never by its bits (R82), so the
kind is an argument here.  The internal operations have "no software-visible encoding": `encode` answers none for them. -/

namespace Sys2Proof

/-- Why something is no instruction. -/
inductive Reject where
  /-- The bus address is below `CSR_BASE`, above the last register, or inside a register (R21: "no byte enables and no sub-word
  or misaligned access exists"). -/
  | notARegisterAddress
  /-- Fewer bytes than the stream item has. -/
  | truncated
  deriving DecidableEq, Repr

/-! ## Byte order (R62) -/

/-- The little-endian word of four bytes, lowest address first (R62). -/
def wordOfBytes (b0 b1 b2 b3 : Byte) : Word := b3 ++ b2 ++ b1 ++ b0

/-- Byte `j` of a word: bits `[8j+7 : 8j]` (R62). -/
def byteOf (w : Word) (j : Nat) : Byte := w.extractLsb' (8 * j) 8

/-- The bytes of a word, lowest address first (R62). -/
def bytesOfWord (w : Word) : List Byte := [byteOf w 0, byteOf w 1, byteOf w 2, byteOf w 3]

/-! ## The register port (R21, R92, R93) -/

/-- Register index to register (R21). -/
def Reg.ofIndex (i : BitVec 4) : Reg :=
  match i.toNat with
  | 0 => .ctrl | 1 => .status | 2 => .errcode | 3 => .dictLen | 4 => .srcAddr | 5 => .srcLen | 6 => .dstAddr | 7 => .dstCap
  | 8 => .resultLen | 9 => .hdrUlen | 10 => .hdrDict | 11 => .ident | 12 => .rsv12 | 13 => .rsv13 | 14 => .rsv14 | _ => .rsv15

/-- Register to register index (R21). -/
def Reg.index : Reg → BitVec 4
  | .ctrl => 0 | .status => 1 | .errcode => 2 | .dictLen => 3 | .srcAddr => 4 | .srcLen => 5 | .dstAddr => 6 | .dstCap => 7
  | .resultLen => 8 | .hdrUlen => 9 | .hdrDict => 10 | .ident => 11 | .rsv12 => 12 | .rsv13 => 13 | .rsv14 => 14 | .rsv15 => 15

/-- The register whose bus byte address is `addr`: `CSR_BASE + 4 * index` (R21, R93).  Bus addresses are 32-bit numbers. -/
def regAt (csrBase addr : Word) : Option Reg :=
  let off := addr - csrBase
  if off.toNat < 64 ∧ off.toNat % 4 = 0 then some (Reg.ofIndex (BitVec.ofNat 4 (off.toNat / 4))) else none

/-- The command word of a CTRL write (R92): CMD = w[3:0], IE = w[8], the other bits ignored. -/
def decodeCtrl (w : Word) : Instr :=
  let ie := w.getLsbD 8
  let cmd := w.extractLsb' 0 4
  if cmd = 0x0 then .nop ie
  else if cmd = 0x1 then .compress ie
  else if cmd = 0x2 then .decompress ie
  else if cmd = 0x3 then .abort ie
  else if cmd.extractLsb' 2 2 = 0b01 then .reservedCmd01xx (cmd.extractLsb' 0 2) ie
  else .reservedCmd1xxx (cmd.extractLsb' 0 3) ie

/-- A register write of `w` (R92, R93, R207, R208). -/
def decodeWrite (r : Reg) (w : Word) : Instr :=
  match r with
  | .ctrl => decodeCtrl w
  | .status => .statusW1c (w.getLsbD 1) (w.getLsbD 2)
  | r => .configWrite r w

/-- One access on the host bus (R93, R96 a and b). -/
def decodeBus (csrBase : Word) (a : BusAccess) : Except Reject Instr :=
  match regAt csrBase a.addr with
  | none => .error .notARegisterAddress
  | some r => .ok (if a.isWrite then decodeWrite r a.data else .regRead r)

/-! ## The compressed stream (R80 to R88) -/

/-- The kinds of stream item; which one stands at a position is told by the position (R82). -/
inductive StreamKind where
  | header | flagWord | stringWord | byteWord | token
  deriving DecidableEq, Repr

/-- A string word of its two tokens, low half first (R84). -/
def stringWordOf (t0 t1 : Token) : Word := t1 ++ t0

/-- A stream item of the given kind at the head of `bytes`, and the bytes after it. -/
def decodeStream : StreamKind → List Byte → Except Reject (Instr × List Byte)
  | .header, b0 :: b1 :: b2 :: b3 :: b4 :: b5 :: b6 :: b7 :: rest =>
      .ok (.header (wordOfBytes b0 b1 b2 b3) (wordOfBytes b4 b5 b6 b7), rest)
  | .flagWord, b0 :: b1 :: b2 :: b3 :: rest => .ok (.flagWord (wordOfBytes b0 b1 b2 b3), rest)
  | .stringWord, b0 :: b1 :: b2 :: b3 :: rest =>
      let w := wordOfBytes b0 b1 b2 b3
      .ok (.stringWord (w.extractLsb' 0 16) (w.extractLsb' 16 16), rest)
  | .byteWord, b0 :: b1 :: b2 :: b3 :: rest =>
      let w := wordOfBytes b0 b1 b2 b3
      .ok (.byteWord (w.extractLsb' 0 8) (w.extractLsb' 8 8) (w.extractLsb' 16 8) (w.extractLsb' 24 8), rest)
  | .token, b0 :: b1 :: rest => .ok (.token (b1 ++ b0), rest)
  | .header, _ | .flagWord, _ | .stringWord, _ | .byteWord, _ | .token, _ => .error .truncated

/-- The kind of an element is its flag bit (R88): 0 a literal, 1 a string. -/
def decodeElement (flag : Bool) : Instr := if flag then .str else .lit

/-! ## The encoder, from the same tables -/

/-- Everything that is encoded, as it is encoded. -/
inductive Code where
  | bus (a : BusAccess)
  | stream (k : StreamKind) (bytes : List Byte)
  | element (flag : Bool)
  deriving DecidableEq, Repr

/-- The instruction an encoding stands for, and the bytes after it. -/
def decode (csrBase : Word) : Code → Except Reject (Instr × List Byte)
  | .bus a => (decodeBus csrBase a).map fun i => (i, [])
  | .stream k bytes => decodeStream k bytes
  | .element flag => .ok (decodeElement flag, [])

/-- The bus byte address of a register (R93). -/
def Reg.addr (csrBase : Word) (r : Reg) : Word := csrBase + 4 * r.index.zeroExtend 32

/-- A command word (R92), its reserved bits 0. -/
def ctrlWord (cmd : BitVec 4) (ie : Bool) : Word := cmd.zeroExtend 32 ||| (if ie then 0x100 else 0)

/-- The host's write of `w` to `r` (R95: "the bus write of v at CSR_BASE + 4*index(NAME)"). -/
def busWrite (csrBase : Word) (r : Reg) (w : Word) : BusAccess := { isWrite := true, addr := r.addr csrBase, data := w }

/-- The encoding of an instruction; none for an internal operation (R96 d). -/
def encode (csrBase : Word) : Instr → Option Code
  | .nop ie => some (.bus (busWrite csrBase .ctrl (ctrlWord 0x0 ie)))
  | .compress ie => some (.bus (busWrite csrBase .ctrl (ctrlWord 0x1 ie)))
  | .decompress ie => some (.bus (busWrite csrBase .ctrl (ctrlWord 0x2 ie)))
  | .abort ie => some (.bus (busWrite csrBase .ctrl (ctrlWord 0x3 ie)))
  | .reservedCmd01xx low ie => some (.bus (busWrite csrBase .ctrl (ctrlWord (0b01#2 ++ low) ie)))
  | .reservedCmd1xxx low ie => some (.bus (busWrite csrBase .ctrl (ctrlWord (0b1#1 ++ low) ie)))
  | .statusW1c d e => some (.bus (busWrite csrBase .status ((if d then 0x2 else 0) ||| (if e then 0x4 else 0))))
  | .configWrite r v => some (.bus (busWrite csrBase r v))
  | .regRead r => some (.bus { isWrite := false, addr := r.addr csrBase, data := 0 })
  | .header n d => some (.stream .header (bytesOfWord n ++ bytesOfWord d))
  | .flagWord w => some (.stream .flagWord (bytesOfWord w))
  | .stringWord t0 t1 => some (.stream .stringWord (bytesOfWord (stringWordOf t0 t1)))
  | .byteWord b0 b1 b2 b3 => some (.stream .byteWord [b0, b1, b2, b3])
  | .lit => some (.element false)
  | .str => some (.element true)
  | .token t => some (.stream .token [t.extractLsb' 0 8, t.extractLsb' 8 8])
  | .writeHeader _ _ | .readHeader | .packerInit | .reserve | .flush _ | .emitFlag _ | .emitLiteral _ | .emitString _ _ | .finish
  | .deriveParams _ | .validateDict _ | .matchLen _ _ _ | .matchSearch _ | .tokenPack _ _ | .encodeStep | .compressBody
  | .decompressBody | .decInit _ _ | .readWord | .flagRefill | .decodeStep | .stringRefill | .tokenUnpack _ | .stringChecks _ _
  | .windowCopy _ _ | .byteRefill | .flagAdvance | .accept _ | .complete _ | .step | .errorEntry _ | .reset _ => none

/-! ## The table's words -/

/-- The instruction read from a bare table word (assumption 9).  The words of the table's rows overlap (NOP and LIT are both the
number 0): what tells them apart is the port or the stream position they arrive at, which a bare word does not carry.  A bare word
is read as what reaches an idle block first, a host write of that word to CTRL. -/
def decodeTableWord (nbits w : Nat) : Option Instr :=
  if nbits ≤ 32 then
    (decodeBus 0 (busWrite 0 .ctrl (BitVec.ofNat 32 (w % 2 ^ nbits)))).toOption
  else none

end Sys2Proof
end

