-- ==== Sys2Proof/Machine/State.lean ====
section
/-! DEFINITION. The state of the machine (10_state.md), memory (R60), the platform it is placed in, and its reset value (R52).
All of it is plain data.  INVENTORY.md, "State", lists every field with its rule and its reset value. -/

namespace Sys2Proof.Machine

open Sys2Proof

/-- Why the machine stops although the instruction has a meaning.  Both reasons are safe, and neither is reached from a state that
meets `Safety.Inv`. -/
inductive Fault where
  /-- Raised by a byte access at an address of `2^32` or more: R60 gives the block one space of `2^32` bytes.  SAFE: the machine
  stops where the spec names no such byte. -/
  | outsideAddressSpace
  /-- Raised by a rule run outside the operand range the rule itself states, or whose result does not fit the register it is
  stored in: R8 "where a result is stored into a W-bit register, the rule that stores it also shows it lies in [0, 2^W - 1], and a
  model may assert that".  SAFE: the machine stops where the spec says it never goes (assumption 3). -/
  | rangeAssertion
  deriving DecidableEq, Repr

/-- Why the model does not admit a run. -/
inductive Refusal where
  /-- Raised by an arm of `exec` whose instruction has no meaning in this model yet.  SAFE. -/
  | notModelled (mnemonic : String)
  /-- Raised by a write of another agent to a byte of a region of the running operation (R70, U17: "refuse").  SAFE: no run is
  admitted. -/
  | regionsUntouchedWhileBusy
  /-- Raised by the start step of an operation one of whose regions is not ordinary memory (R64, U18: "refuse").  SAFE: no run is
  admitted. -/
  | regionsAreOrdinaryMemory
  deriving DecidableEq, Repr

/-! ## Memory -/

/-- A range of addresses whose bytes the spec leaves unspecified: each reads as the free value `Config.freeByte gen a` until it
is written (R235, R251). -/
structure Unspec where
  lo  : Nat
  hi  : Nat
  gen : Nat
  deriving DecidableEq, Repr

/-- The one byte-addressed memory (R60): the listed bytes, and the ranges that are unspecified. -/
structure Memory where
  cells  : List Host.Cell
  unspec : List Unspec
  deriving DecidableEq, Repr

/-- The canonical form: listed addresses strictly rising, inside the address space and outside every unspecified range; no listed
byte equal to 0, which is what an address that is neither listed nor unspecified reads as (assumption 2); unspecified ranges
rising, apart, not empty, and two that touch from different events. -/
abbrev Memory.wf (m : Memory) : Prop :=
  m.cells.Pairwise (fun c e => c.1 < e.1) ∧
  (∀ c ∈ m.cells, c.1 < Config.addressSpace ∧ c.2 ≠ 0 ∧ ∀ u ∈ m.unspec, c.1 < u.lo ∨ u.hi ≤ c.1) ∧
  m.unspec.Pairwise (fun u v => u.hi ≤ v.lo ∧ (u.hi = v.lo → u.gen ≠ v.gen)) ∧
  (∀ u ∈ m.unspec, u.lo < u.hi ∧ u.hi ≤ Config.addressSpace)

/-! ## The host registers (R21 to R34) -/

/-- What the host register port stores.  STATUS.BUSY is not stored: it is `st.fsm != IDLE` (R23).  ID and the reserved indices
are constants (R33, R34), and CMD is an action, not stored (R22). -/
structure HostRegs where
  /-- CTRL.IE (R22). -/
  ie        : Bool
  /-- STATUS.DONE (R23). -/
  done      : Bool
  /-- STATUS.ERR (R23). -/
  err       : Bool
  /-- ERRCODE.CODE (R24): by name, so that 13 to 255 cannot occur. -/
  errcode   : ErrorCode
  /-- DICT_LEN (R25). -/
  dictLen   : Word
  /-- SRC_ADDR (R26). -/
  srcAddr   : Word
  /-- SRC_LEN (R27). -/
  srcLen    : Word
  /-- DST_ADDR (R28). -/
  dstAddr   : Word
  /-- DST_CAP (R29). -/
  dstCap    : Word
  /-- RESULT_LEN (R30). -/
  resultLen : Word
  /-- HDR_ULEN (R31). -/
  hdrUlen   : Word
  /-- HDR_DICT (R32). -/
  hdrDict   : Word
  deriving DecidableEq, Repr

/-- `st.fsm` (R37). -/
inductive Fsm where
  | idle | enc | dec
  deriving DecidableEq, Repr

/-- `st.phase` (R37). -/
inductive Phase where
  | start | loop
  deriving DecidableEq, Repr

/-- The parameters of the operation: latched at acceptance, and derived by its start step (R38, R140, R171). -/
structure OpParams where
  src     : Word
  /-- `op.len`, which the decoder's rules write `m`. -/
  len     : Word
  dst     : Word
  cap     : Word
  d       : Word
  /-- lengthShift (R140). -/
  ls      : Nat
  /-- maxOffset (R140). -/
  maxOff  : Nat
  /-- maxMatch (R140). -/
  maxLen  : Nat
  /-- `op.n`, the header's uncompressedLength (R171). -/
  n       : Word
  offMask : Word
  lenMask : Word
  deriving DecidableEq, Repr

/-- One accumulator of the packer, of capacity `cap` elements (R120, R41 to R43): `st.kAcc`, `st.kPos`, `st.kOpen`, `st.kSlot`. -/
structure Accum (cap : Nat) where
  acc    : Word
  pos    : Fin cap
  isOpen : Bool
  slot   : Word
  deriving DecidableEq, Repr

/-- The encoder's datapath registers (R39 to R44). -/
structure EncRegs where
  cur     : Word
  wc      : Word
  /-- The flag accumulator, 32 flags (R41). -/
  f       : Accum 32
  /-- The string accumulator, 2 tokens (R42). -/
  s       : Accum 2
  /-- The byte accumulator, 4 bytes (R43). -/
  b       : Accum 4
  bestLen : Word
  bestOff : Word
  deriving DecidableEq, Repr

/-- The decoder's datapath registers (R45 to R49). -/
structure DecRegs where
  rc    : Word
  o     : Word
  rem   : Word
  fWord : Word
  fIdx  : Fin 33
  sWord : Word
  sLeft : Fin 3
  bWord : Word
  bLeft : Fin 5
  deriving DecidableEq, Repr

/-! ## The outside world -/

/-- What can reach the block between two of its steps (R211: "a host access falls between two steps, never inside one").  The
order in which events stand in `State.inbox` is the interleaving, which the spec leaves open (U19; DESIGN CHOICE, assumption 13). -/
inductive Event where
  /-- An access on the host bus. -/
  | bus (a : BusAccess)
  /-- The block takes its next step before the next event. -/
  | blockStep
  /-- The input `rst` takes a level (R250). -/
  | rst (asserted : Bool)
  /-- Another agent writes a byte of memory (R70). -/
  | agentWrite (a : Word) (v : Byte)
  /-- Another agent reads a byte of memory (R71). -/
  | agentRead (a : Word)
  deriving DecidableEq, Repr

/-- The value an internal operation that "return"s one has returned (R9; assumption 7). -/
inductive OpResult where
  | nothing
  | word (w : Word)
  | headerFields (n d : Word)
  | token (t : Token)
  | offLen (offset length : Nat)
  | length (n : Nat)
  deriving DecidableEq, Repr

/-- The state of the machine. -/
structure State where
  regs      : HostRegs
  fsm       : Fsm
  abortReq  : Bool
  phase     : Phase
  op        : OpParams
  enc       : EncRegs
  dec       : DecRegs
  /-- The memory the block masters (R60). -/
  mem       : Memory
  /-- The platform's parameters (R6); no step changes them. -/
  plat      : Platform
  /-- The level of the input `rst` (R250). -/
  rst       : Bool
  /-- What the outside world does next, in order. -/
  inbox     : List Event
  /-- The read data the host port last returned (R209). -/
  rdata     : Word
  /-- The byte another agent's read of memory last returned (R71). -/
  agentData : Byte
  /-- The model's own: what the last internal operation run by itself returned. -/
  result    : OpResult
  /-- The model's own: how many free values have been drawn. -/
  fresh     : Nat
  deriving DecidableEq, Repr

/-! ## Reset (R52, R250) -/

/-- The host registers after reset (R52). -/
def HostRegs.reset : HostRegs :=
  { ie := false, done := false, err := false, errcode := .noError, dictLen := 0, srcAddr := 0, srcLen := 0, dstAddr := 0,
    dstCap := 0, resultLen := 0, hdrUlen := 0, hdrDict := 0 }

/-- `op.*` after reset: unspecified by R52; zero is the model's DESIGN CHOICE (assumption 8). -/
def OpParams.reset : OpParams :=
  { src := 0, len := 0, dst := 0, cap := 0, d := 0, ls := 0, maxOff := 0, maxLen := 0, n := 0, offMask := 0, lenMask := 0 }

/-- The encoder's registers after reset: unspecified by R52; DESIGN CHOICE (assumption 8). -/
def EncRegs.reset : EncRegs :=
  { cur := 0, wc := 0, f := { acc := 0, pos := 0, isOpen := false, slot := 0 },
    s := { acc := 0, pos := 0, isOpen := false, slot := 0 }, b := { acc := 0, pos := 0, isOpen := false, slot := 0 },
    bestLen := 0, bestOff := 0 }

/-- The decoder's registers after reset: unspecified by R52; DESIGN CHOICE (assumption 8). -/
def DecRegs.reset : DecRegs :=
  { rc := 0, o := 0, rem := 0, fWord := 0, fIdx := 0, sWord := 0, sLeft := 0, bWord := 0, bLeft := 0 }

/-- Memory with nothing listed. -/
def Memory.empty : Memory := { cells := [], unspec := [] }

/-- The platform of the spec's own programs (95_test_vectors.md §3): `CSR_BASE` = 0x40000000, every address answers, all of it
ordinary memory.  DESIGN CHOICE (assumption 1). -/
def Platform.plain : Platform := { csrBase := 0x40000000, holes := [], devices := [] }

/-- The machine right after reset, `rst` released, nothing in the inbox (R52, R250). -/
def State.reset : State :=
  { regs := HostRegs.reset, fsm := .idle, abortReq := false, phase := .start, op := OpParams.reset, enc := EncRegs.reset,
    dec := DecRegs.reset, mem := Memory.empty, plat := Platform.plain, rst := false, inbox := [], rdata := 0, agentData := 0,
    result := .nothing, fresh := 0 }

/-! ## Updates by name: one per field, so that a proof never meets a whole record -/

def State.setRegs (s : State) (v : HostRegs) : State := { s with regs := v }
def State.setFsm (s : State) (v : Fsm) : State := { s with fsm := v }
def State.setAbortReq (s : State) (v : Bool) : State := { s with abortReq := v }
def State.setPhase (s : State) (v : Phase) : State := { s with phase := v }
def State.setOp (s : State) (v : OpParams) : State := { s with op := v }
def State.setEnc (s : State) (v : EncRegs) : State := { s with enc := v }
def State.setDec (s : State) (v : DecRegs) : State := { s with dec := v }
def State.setMem (s : State) (v : Memory) : State := { s with mem := v }
def State.setRst (s : State) (v : Bool) : State := { s with rst := v }
def State.setInbox (s : State) (v : List Event) : State := { s with inbox := v }
def State.setRdata (s : State) (v : Word) : State := { s with rdata := v }
def State.setAgentData (s : State) (v : Byte) : State := { s with agentData := v }
def State.setResult (s : State) (v : OpResult) : State := { s with result := v }
def State.setFresh (s : State) (v : Nat) : State := { s with fresh := v }

end Sys2Proof.Machine
end

