-- ==== Sys2Proof/Machine/Ops.lean ====
section
/-! DEFINITION. The named operations every meaning is built from: memory (20_memory.md), what a rule of the spec can end in, error
entry (R235), acceptance (R201), completion (R210) and reset (R250). -/

namespace Sys2Proof.Machine

open Sys2Proof

/-! ## Memory, one byte at a time -/

/-- What an address that is not listed reads as: the free byte of the unspecified range it lies in, else 0 (assumption 2). -/
def Memory.background (m : Memory) (a : Nat) : Byte :=
  match m.unspec.find? (fun u => decide (u.lo ≤ a) && decide (a < u.hi)) with
  | some u => Config.freeByte u.gen a
  | none => 0

/-- The byte listed at `a`. -/
def Memory.listed (a : Nat) : List Host.Cell → Option Byte
  | [] => none
  | (b, v) :: cs => if b = a then some v else Memory.listed a cs

/-- The byte at `a`. -/
def Memory.read (m : Memory) (a : Nat) : Byte := (Memory.listed a m.cells).getD (m.background a)

/-- The list of cells with the byte `v` at `a`; 0 is not listed. -/
def Memory.setCell (a : Nat) (v : Byte) : List Host.Cell → List Host.Cell
  | [] => if v = 0 then [] else [(a, v)]
  | (b, w) :: cs =>
      if b < a then (b, w) :: Memory.setCell a v cs
      else if b = a then (if v = 0 then cs else (a, v) :: cs)
      else (if v = 0 then (b, w) :: cs else (a, v) :: (b, w) :: cs)

/-- What is left of an unspecified range outside `[lo, hi)`. -/
def Unspec.minus (lo hi : Nat) (u : Unspec) : List Unspec :=
  (if u.lo < min u.hi lo then [{ u with hi := min u.hi lo }] else []) ++
    (if max u.lo hi < u.hi then [{ u with lo := max u.lo hi }] else [])

/-- The unspecified ranges less `[lo, hi)`. -/
def Memory.cut (lo hi : Nat) (us : List Unspec) : List Unspec := us.flatMap (Unspec.minus lo hi)

/-- A range put in its place among ranges it does not meet. -/
def Memory.insertUnspec (u : Unspec) : List Unspec → List Unspec
  | [] => [u]
  | v :: vs => if v.lo < u.lo then v :: Memory.insertUnspec u vs else u :: v :: vs

/-- Store `v` at `a` and change no other byte (R61). -/
def Memory.write (m : Memory) (a : Nat) (v : Byte) : Memory :=
  { cells := Memory.setCell a v m.cells, unspec := Memory.cut a (a + 1) m.unspec }

/-- Leave every byte of `[lo, hi)` unspecified (R235, R251). -/
def Memory.spoil (m : Memory) (lo hi gen : Nat) : Memory :=
  if lo < hi then
    { cells := m.cells.filter (fun c => decide (c.1 < lo) || decide (hi ≤ c.1)),
      unspec := Memory.insertUnspec { lo := lo, hi := hi, gen := gen } (Memory.cut lo hi m.unspec) }
  else m

/-! ## The platform's parameters -/

/-- `a` lies in the range. -/
def inRange (a : Nat) (r : AddrRange) : Bool := decide (r.lo ≤ a) && decide (a < r.hi)

/-- The range meets `[lo, hi)`. -/
def meetsRange (lo hi : Nat) (r : AddrRange) : Bool := decide (max r.lo lo < min r.hi hi)

/-- `memOk(a)` (R61): whether the memory answers at `a`. -/
def memOk (p : Platform) (a : Nat) : Bool := !p.holes.any (inRange a)

/-! ## What a rule can end in -/

/-- What reading memory answers.  A read changes nothing (R64). -/
inductive Access (α : Type) where
  | ok (a : α)
  /-- The memory does not answer (R61). -/
  | busError
  /-- There is no such address (R60). -/
  | outside
  deriving DecidableEq, Repr

/-- What a rule of the spec ends in. -/
inductive Res (α : Type) where
  /-- It returns `a`. -/
  | ok (a : α) (s : State)
  /-- It performs `raise e` in the state `s` (R220): what the rule did before stays done. -/
  | raise (e : ErrorCode) (s : State)
  /-- It performs `raise BusError` in the state `s`, in a start step that has not written memory yet: "None of the start-step errors
  writes memory" (R170), "Errors before any write leave memory unchanged" (D31; assumption 4). -/
  | unwritten (s : State)
  | fault (f : Fault)
  | refuse (r : Refusal)
  deriving DecidableEq, Repr

/-- Go on with the value read. -/
def Access.bind {α β : Type} (x : Access α) (f : α → Access β) : Access β :=
  match x with
  | .ok a => f a
  | .busError => .busError
  | .outside => .outside

/-- Go on with the value returned; "nothing after it in the rule is performed" after a `raise` (R9). -/
def Res.bind {α β : Type} (x : Res α) (f : α → State → Res β) : Res β :=
  match x with
  | .ok a s => f a s
  | .raise e s => .raise e s
  | .unwritten s => .unwritten s
  | .fault g => .fault g
  | .refuse r => .refuse r

/-- The part of a start step that comes before the operation's first memory write: a BusError raised in it leaves memory unchanged
(R170, D31; assumption 4). -/
def Res.beforeWrites {α : Type} (x : Res α) : Res α :=
  match x with
  | .raise .busError s => .unwritten s
  | x => x

/-- A read as a step of a rule: an access that does not complete raises BusError (R61). -/
def Access.toRes {α : Type} (x : Access α) (s : State) : Res α :=
  match x with
  | .ok a => .ok a s
  | .busError => .raise .busError s
  | .outside => .fault .outsideAddressSpace

/-- Go on if `c` holds; else the rule is run outside the range it states (R8). -/
def assertRange {α : Type} (c : Prop) [Decidable c] (k : Res α) : Res α := if c then k else .fault .rangeAssertion

/-! ## The memory port (R61, R62) -/

/-- `MemRead(a, 1)` (R61). -/
def memRead1 (s : State) (a : Nat) : Access Byte :=
  if a < Config.addressSpace then (if memOk s.plat a then .ok (s.mem.read a) else .busError) else .outside

/-- `MemRead(a, 4)`: four byte reads, in ascending order, little-endian (R62). -/
def memRead4 (s : State) (a : Nat) : Access Word :=
  (memRead1 s a).bind fun b0 =>
  (memRead1 s (a + 1)).bind fun b1 =>
  (memRead1 s (a + 2)).bind fun b2 =>
  (memRead1 s (a + 3)).bind fun b3 =>
  .ok (wordOfBytes b0 b1 b2 b3)

/-- `MemWrite(a, 1, v)` (R61). -/
def memWrite1 (a : Nat) (v : Byte) (s : State) : Res Unit :=
  if a < Config.addressSpace then
    (if memOk s.plat a then .ok () (s.setMem (s.mem.write a v)) else .raise .busError s)
  else .fault .outsideAddressSpace

/-- `MemWrite(a, 4, v)`: four byte writes, in ascending order, least significant byte first; "if one of them raises BusError the
later ones are not performed" (R62). -/
def memWrite4 (a : Nat) (v : Word) (s : State) : Res Unit :=
  (memWrite1 a (byteOf v 0) s).bind fun _ s =>
  (memWrite1 (a + 1) (byteOf v 1) s).bind fun _ s =>
  (memWrite1 (a + 2) (byteOf v 2) s).bind fun _ s =>
  memWrite1 (a + 3) (byteOf v 3) s

/-! ## The regions of the operation (R65, R66) -/

/-- The first address past the input region. -/
def OpParams.srcEnd (op : OpParams) : Nat := op.src.toNat + op.len.toNat

/-- The first address past the output region. -/
def OpParams.dstEnd (op : OpParams) : Nat := op.dst.toNat + op.cap.toNat

/-- `a` lies in the input region `[op.src, op.src + op.len)` (R65). -/
def OpParams.inInput (op : OpParams) (a : Nat) : Bool := decide (op.src.toNat ≤ a) && decide (a < op.srcEnd)

/-- `a` lies in the output region `[op.dst, op.dst + op.cap)` (R65). -/
def OpParams.inOutput (op : OpParams) (a : Nat) : Bool := decide (op.dst.toNat ≤ a) && decide (a < op.dstEnd)

/-- The buffer check (R66): a region wraps, or the two overlap. -/
def OpParams.bufferBad (op : OpParams) : Bool :=
  decide (op.srcEnd > Config.addressSpace) || decide (op.dstEnd > Config.addressSpace) ||
    (decide (op.len.toNat > 0) && decide (op.cap.toNat > 0) && decide (op.src.toNat < op.dstEnd) &&
      decide (op.dst.toNat < op.srcEnd))

/-- Both regions are ordinary memory (R64). -/
def regionsOrdinary (p : Platform) (op : OpParams) : Bool :=
  !p.devices.any (fun r => meetsRange op.src.toNat op.srcEnd r || meetsRange op.dst.toNat op.dstEnd r)

/-- `a` is not ordinary memory (R64). -/
def inDevice (p : Platform) (a : Nat) : Bool := p.devices.any (inRange a)

/-- Some byte of the input region fails `memOk` (R61). -/
def inputHasHole (p : Platform) (op : OpParams) : Bool := p.holes.any (meetsRange op.src.toNat op.srcEnd)

/-- An opportunity to raise BusError early: "when some byte of the input region fails memOk the operation may raise BusError at
any step at or before the step whose rules first read that byte" (R61; assumption 5). -/
def prefetch (s : State) : Res Unit :=
  if inputHasHole s.plat s.op then
    (if Config.prefetchFault s.fresh then .raise .busError (s.setFresh (s.fresh + 1)) else .ok () (s.setFresh (s.fresh + 1)))
  else .ok () s

/-! ## Error entry (R235): the machine's one way of taking an error -/

/-- Whether error entry leaves the output region unspecified: "after error entry with code 4 (from an element step), 5, 7, 8, 11
or 12" (R235).  A code 4 is an element step's when `st.phase` says that the start step has run (R37, R211). -/
def spoilsOutput (c : ErrorCode) (p : Phase) : Bool :=
  match c with
  | .outputTooSmall => p == .loop
  | .truncatedInput | .badOffset | .lengthOverrun | .aborted | .busError => true
  | .noError | .invalidDictionary | .dictionaryTooSmall | .dictionaryTooLarge | .corruptHeader | .badBuffer | .illegalCommand => false

/-- Every byte of the output region becomes unspecified (R235, R251; assumption 4). -/
def spoilOutput (s : State) : State :=
  (s.setMem (s.mem.spoil s.op.dst.toNat (min s.op.dstEnd Config.addressSpace) s.fresh)).setFresh (s.fresh + 1)

/-- The registers that error entry writes (R235). -/
def recordError (c : ErrorCode) (s : State) : State :=
  ((s.setRegs { s.regs with errcode := c, resultLen := 0, err := true }).setAbortReq false).setFsm .idle

/-- `ERROR_ENTRY(c)` (R235).  A BusError that comes before any write of its operation does not go through here: `settle` records it
and leaves memory as it is (`Res.unwritten`). -/
def enterError (c : ErrorCode) (s : State) : State := recordError c (if spoilsOutput c s.phase then spoilOutput s else s)

/-- A rule run by itself (assumption 15): a `raise` ends it by error entry (R220), and what the machine goes on with is always a next
state. -/
def settle {α : Type} (x : Res α) : Host.Outcome State Fault Refusal :=
  match x with
  | .ok _ s => .next s
  | .raise e s => .next (enterError e s)
  | .unwritten s => .next (recordError .busError s)
  | .fault f => .fault f
  | .refuse r => .refused r

/-- A rule that returns a value, run by itself: the value goes to the model's result field (assumption 7). -/
def settleReturn {α : Type} (out : α → OpResult) (x : Res α) : Host.Outcome State Fault Refusal :=
  settle (x.bind fun a s => .ok () (s.setResult (out a)))

/-! ## Acceptance, completion, reset -/

/-- `st.fsm` of a kind of operation. -/
def fsmOf : OpKind → Fsm
  | .enc => .enc
  | .dec => .dec

/-- `ACCEPT(kind)` (R201). -/
def acceptOp (k : OpKind) (s : State) : State :=
  let op := { s.op with src := s.regs.srcAddr, len := s.regs.srcLen, dst := s.regs.dstAddr, cap := s.regs.dstCap }
  let op := match k with
    | .enc => { op with d := s.regs.dictLen }
    | .dec => op
  let regs := { s.regs with done := false, err := false, errcode := .noError, resultLen := 0, hdrUlen := 0, hdrDict := 0 }
  ((((s.setOp op).setRegs regs).setAbortReq false).setPhase .start).setFsm (fsmOf k)

/-- `COMPLETE(r)` (R210).  The datapath registers keep what the last step left in them, which U12 leaves open (DESIGN CHOICE,
assumption 18). -/
def completeOp (r : Word) (s : State) : State :=
  ((s.setRegs { s.regs with resultLen := r, done := true }).setAbortReq false).setFsm .idle

/-- Every register of the block at its reset value (R250); if an operation was running it is lost without error entry and its output
region is unspecified (R251; assumption 14).  Memory (R252), the platform and the outside world are not the block's. -/
def resetState (s : State) : State :=
  let s1 := if s.fsm = .idle then s else spoilOutput s
  { State.reset with
    mem := s1.mem, plat := s1.plat, rst := s1.rst, inbox := s1.inbox, rdata := s1.rdata, agentData := s1.agentData,
    result := s1.result, fresh := s1.fresh }

/-- `rst` takes a level: "While the input `rst` is asserted and when it is released" the state takes its reset values (R250); a low
level where `rst` is low already is neither. -/
def resetBlock (asserted : Bool) (s : State) : State := if asserted || s.rst then (resetState s).setRst asserted else s

end Sys2Proof.Machine
end

