-- ==== Sys2Proof/Machine/Flags.lean ====
section
/-! DEFINITION. The status flags (R23, R51), the interrupt (R36) and the words they are read as. -/

namespace Sys2Proof.Machine

open Sys2Proof

/-- STATUS.BUSY: `st.fsm != IDLE` (R23). -/
def State.busy (s : State) : Bool := s.fsm != .idle

/-- The interrupt output (R36): `irq = CTRL.IE & (STATUS.DONE | STATUS.ERR)`. -/
def State.irq (s : State) : Bool := s.regs.ie && (s.regs.done || s.regs.err)

/-- A flag as bit `i` of a word. -/
def flagBit (b : Bool) (i : Nat) : Word := if b then 1 <<< i else 0

/-- STATUS as it is read: BUSY, DONE, ERR in bits 0, 1, 2; the reserved bits 0 (R23). -/
def statusWord (s : State) : Word := flagBit s.busy 0 ||| flagBit s.regs.done 1 ||| flagBit s.regs.err 2

/-- CTRL as it is read: `IE << 8` (R22). -/
def ctrlReadWord (s : State) : Word := flagBit s.regs.ie 8

/-- The number of an error (R221). -/
def errorNumber : ErrorCode → Nat
  | .noError => 0
  | .invalidDictionary => 1 | .dictionaryTooSmall => 2 | .dictionaryTooLarge => 3 | .outputTooSmall => 4
  | .truncatedInput => 5 | .corruptHeader => 6 | .badOffset => 7 | .lengthOverrun => 8
  | .badBuffer => 9 | .illegalCommand => 10 | .aborted => 11 | .busError => 12

/-- ERRCODE as it is read: CODE in bits 7:0, the rest 0 (R24). -/
def errcodeWord (c : ErrorCode) : Word := BitVec.ofNat 32 (errorNumber c)

/-- The W1C write of STATUS (R207): 1 clears, 0 leaves. -/
def clearFlags (clrDone clrErr : Bool) (r : HostRegs) : HostRegs :=
  { r with done := r.done && !clrDone, err := r.err && !clrErr }

end Sys2Proof.Machine
end

