-- ==== Sys2Proof/Machine/Operands.lean ====
section
/-! DEFINITION. The operand forms: reading and writing a host register by name (R21, R208, R209), the dictionary's parameters
(R140, R141, R171), and the two fields of a token (R86, R146, R176). -/

namespace Sys2Proof.Machine

open Sys2Proof

/-- A register's value (R21 to R34). -/
def regValue (s : State) (r : Reg) : Word :=
  match r with
  | .ctrl => ctrlReadWord s
  | .status => statusWord s
  | .errcode => errcodeWord s.regs.errcode
  | .dictLen => s.regs.dictLen
  | .srcAddr => s.regs.srcAddr
  | .srcLen => s.regs.srcLen
  | .dstAddr => s.regs.dstAddr
  | .dstCap => s.regs.dstCap
  | .resultLen => s.regs.resultLen
  | .hdrUlen => s.regs.hdrUlen
  | .hdrDict => s.regs.hdrDict
  | .ident => Config.idValue
  | .rsv12 | .rsv13 | .rsv14 | .rsv15 => 0

/-- What a host read returns (R209); while `rst` is asserted, "reads return the reset values" (R250). -/
def hostRead (s : State) (r : Reg) : Word := if s.rst then regValue State.reset r else regValue s r

/-- The configuration registers with `w` written to `r`; a write to any other index stores nothing (R208). -/
def writeConfig (r : Reg) (w : Word) (g : HostRegs) : HostRegs :=
  match r with
  | .dictLen => { g with dictLen := w }
  | .srcAddr => { g with srcAddr := w }
  | .srcLen => { g with srcLen := w }
  | .dstAddr => { g with dstAddr := w }
  | .dstCap => { g with dstCap := w }
  | .ctrl | .status | .errcode | .resultLen | .hdrUlen | .hdrDict | .ident | .rsv12 | .rsv13 | .rsv14 | .rsv15 => g

/-- `VALIDATE_DICT(d)` (R141): the checks in their order, the first that fails. -/
def dictError (d : Word) : Option ErrorCode :=
  if d = 0 ∨ d &&& (d - 1) ≠ 0 then some .invalidDictionary
  else if d.toNat < Config.dictMin then some .dictionaryTooSmall
  else if d.toNat > Config.dictMax then some .dictionaryTooLarge
  else none

/-- maxOffset of `d` (R140). -/
def maxOffsetOf (d : Word) : Nat := d.toNat + 2

/-- maxMatch of `d` (R140). -/
def maxMatchOf (d : Word) : Nat := 65536 / d.toNat + 2

/-- offsetMask of `d` (R171). -/
def offsetMaskOf (d : Word) : Word := d - 1

/-- lengthMask of `d`, `2^(16-ls) - 1` (R171). -/
def lengthMaskOf (d : Word) : Word := BitVec.ofNat 32 (2 ^ (16 - Nat.log2 d.toNat) - 1)

/-- The token of a match whose operands are in range: `((length-3) << ls) | (offset-3)` (R146). -/
def packToken (ls offset length : Nat) : Token := BitVec.ofNat 16 (((length - 3) <<< ls) ||| (offset - 3))

/-- The fields of a token by slices: `offset = token[ls-1:0] + 3`, `length = token[15:ls] + 3` (R86). -/
def tokenFields (ls : Nat) (t : Token) : Nat × Nat := (t.toNat % 2 ^ ls + 3, t.toNat / 2 ^ ls + 3)

/-- The fields of a token by masks (R176). -/
def unpackToken (ls : Nat) (offMask lenMask : Word) (t : Token) : Nat × Nat :=
  (((t.zeroExtend 32) &&& offMask).toNat + 3, (((t.zeroExtend 32) >>> ls) &&& lenMask).toNat + 3)

end Sys2Proof.Machine
end

