-- ==== Sys2Proof/Machine/HeaderCodec.lean ====
section
/-! DEFINITION. The header codec (40_header.md): HEADER as the decoder takes it, WRITE_HEADER and READ_HEADER. -/

namespace Sys2Proof.Machine

open Sys2Proof

/-- HDR_ULEN and HDR_DICT take a header's fields (R31, R32). -/
def recordHeader (n d : Word) (s : State) : State := s.setRegs { s.regs with hdrUlen := n, hdrDict := d }

/-- A header with the fields (n, d) is taken: its fields are recorded and returned (R111). -/
def takeHeader (n d : Word) (s : State) : Res (Word × Word) := .ok (n, d) (recordHeader n d s)

/-- `WRITE_HEADER(n, d)` (R110). -/
def writeHeaderOp (n d : Word) (s : State) : Res Unit :=
  (memWrite4 s.op.dst.toNat n s).bind fun _ s =>
  (memWrite4 (s.op.dst.toNat + 4) d s).bind fun _ s =>
  .ok () (recordHeader n d s)

/-- `READ_HEADER()` (R111). -/
def readHeaderOp (s : State) : Res (Word × Word) :=
  ((memRead4 s s.op.src.toNat).toRes s).bind fun n s =>
  ((memRead4 s (s.op.src.toNat + 4)).toRes s).bind fun d s =>
  takeHeader n d s

/-- HEADER (R81): the header as the decoder takes it (assumption 10). -/
def execHeader (uncompressedLength dictionaryLength : Word) (s : State) : Host.Outcome State Fault Refusal :=
  settleReturn (fun p => .headerFields p.1 p.2) (takeHeader uncompressedLength dictionaryLength s)

/-- WRITE_HEADER (R110). -/
def execWriteHeader (n d : Word) (s : State) : Host.Outcome State Fault Refusal := settle (writeHeaderOp n d s)

/-- READ_HEADER (R111). -/
def execReadHeader (s : State) : Host.Outcome State Fault Refusal :=
  settleReturn (fun p => .headerFields p.1 p.2) (readHeaderOp s)

end Sys2Proof.Machine
end

