-- ==== Sys2Proof/Machine/Packer.lean ====
section
/-! DEFINITION. The stream packer (41_packer.md): the three accumulators, slot reservation, flush, and the token encoder that
EMIT_STRING calls (42_encoder.md R146). -/

namespace Sys2Proof.Machine

open Sys2Proof

/-! ## One accumulator (R120) -/

/-- A word just opened at `slot`: empty, its unused bits 0 (R123 to R125, R89). -/
def Accum.opened {cap : Nat} [NeZero cap] (slot : Word) : Accum cap := { acc := 0, pos := 0, isOpen := true, slot := slot }

/-- A word closed (R122). -/
def Accum.closed {cap : Nat} [NeZero cap] (a : Accum cap) : Accum cap := { a with isOpen := false, pos := 0 }

/-- An element of `width` bits put at the current position: "element j of a word sits at bit j * WIDTH(k)" (R120). -/
def Accum.put {cap : Nat} (width : Nat) (v : Word) (a : Accum cap) : Accum cap :=
  { a with acc := a.acc ||| (v <<< (width * a.pos.val)) }

/-- The position after the current one; none when the word is full. -/
def Accum.nextPos {cap : Nat} (a : Accum cap) : Option (Fin cap) :=
  if h : a.pos.val + 1 < cap then some ⟨a.pos.val + 1, h⟩ else none

/-! ## The packer's operations -/

/-- `PACKER_INIT` (R120). -/
def packerInitOp (s : State) : State :=
  s.setEnc { s.enc with wc := 8, f := s.enc.f.closed, s := s.enc.s.closed, b := s.enc.b.closed }

/-- `RESERVE()` (R121).  The new cursor is at most `op.cap`, so it fits. -/
def reserveOp (s : State) : Res Word :=
  if s.enc.wc.toNat + 4 > s.op.cap.toNat then .raise .outputTooSmall s
  else .ok s.enc.wc (s.setEnc { s.enc with wc := s.enc.wc + 4 })

/-- `st.kAcc`. -/
def EncRegs.accOf (e : EncRegs) : SubStream → Word
  | .flags => e.f.acc
  | .strings => e.s.acc
  | .bytes => e.b.acc

/-- `st.kSlot`. -/
def EncRegs.slotOf (e : EncRegs) : SubStream → Word
  | .flags => e.f.slot
  | .strings => e.s.slot
  | .bytes => e.b.slot

/-- `st.kOpen`. -/
def EncRegs.openOf (e : EncRegs) : SubStream → Bool
  | .flags => e.f.isOpen
  | .strings => e.s.isOpen
  | .bytes => e.b.isOpen

/-- `st.kOpen <- 0; st.kPos <- 0`. -/
def EncRegs.closeOf (e : EncRegs) : SubStream → EncRegs
  | .flags => { e with f := e.f.closed }
  | .strings => { e with s := e.s.closed }
  | .bytes => { e with b := e.b.closed }

/-- `FLUSH(k)` (R122). -/
def flushOp (k : SubStream) (s : State) : Res Unit :=
  (memWrite4 (s.op.dst.toNat + (s.enc.slotOf k).toNat) (s.enc.accOf k) s).bind fun _ s =>
  .ok () (s.setEnc (s.enc.closeOf k))

/-- The common shape of R123 to R125: open a word if none is open (which may raise OutputTooSmall), put the element in, and flush
the word if that filled it. -/
def emitOn {cap : Nat} [NeZero cap] (k : SubStream) (get : EncRegs → Accum cap) (set : EncRegs → Accum cap → EncRegs)
    (width : Nat) (v : Word) (s : State) : Res Unit :=
  (if (get s.enc).isOpen then .ok () s
   else (reserveOp s).bind fun slot s => .ok () (s.setEnc (set s.enc (Accum.opened slot)))).bind fun _ s =>
  let a := (get s.enc).put width v
  match a.nextPos with
  | some p => .ok () (s.setEnc (set s.enc { a with pos := p }))
  | none => flushOp k (s.setEnc (set s.enc a))

/-- `EMIT_FLAG(b)` (R123). -/
def emitFlagOp (b : Bool) (s : State) : Res Unit :=
  emitOn .flags (fun e => e.f) (fun e a => { e with f := a }) 1 (if b then 1 else 0) s

/-- `EMIT_LITERAL(v)` (R124). -/
def emitLiteralOp (v : Byte) (s : State) : Res Unit :=
  emitOn .bytes (fun e => e.b) (fun e a => { e with b := a }) 8 (v.zeroExtend 32) s

/-- `TOKEN_PACK(offset, length)` on the operands the rule admits (R146). -/
def tokenPackOp (offset length : Nat) (s : State) : Res Token :=
  assertRange (3 ≤ offset ∧ offset ≤ s.op.maxOff ∧ 3 ≤ length ∧ length ≤ s.op.maxLen)
    (.ok (packToken s.op.ls offset length) s)

/-- `EMIT_STRING(offset, length)` (R125). -/
def emitStringOp (offset length : Nat) (s : State) : Res Unit :=
  (tokenPackOp offset length s).bind fun t s =>
  emitOn .strings (fun e => e.s) (fun e a => { e with s := a }) 16 (t.zeroExtend 32) s

/-- `if st.kOpen = 1: FLUSH(k)` (R126). -/
def flushIfOpen (k : SubStream) (s : State) : Res Unit := if s.enc.openOf k then flushOp k s else .ok () s

/-- `FINISH()` (R126): flags, then bytes, then strings. -/
def finishOp (s : State) : Res Unit :=
  (flushIfOpen .flags s).bind fun _ s =>
  (flushIfOpen .bytes s).bind fun _ s =>
  flushIfOpen .strings s

/-! ## The meanings -/

/-- PACKER_INIT (R120). -/
def execPackerInit (s : State) : Host.Outcome State Fault Refusal := .next (packerInitOp s)

/-- RESERVE (R121). -/
def execReserve (s : State) : Host.Outcome State Fault Refusal := settleReturn .word (reserveOp s)

/-- FLUSH (R122). -/
def execFlush (k : SubStream) (s : State) : Host.Outcome State Fault Refusal := settle (flushOp k s)

/-- EMIT_FLAG (R123). -/
def execEmitFlag (b : Bool) (s : State) : Host.Outcome State Fault Refusal := settle (emitFlagOp b s)

/-- EMIT_LITERAL (R124). -/
def execEmitLiteral (v : Byte) (s : State) : Host.Outcome State Fault Refusal := settle (emitLiteralOp v s)

/-- EMIT_STRING (R125). -/
def execEmitString (offset length : Nat) (s : State) : Host.Outcome State Fault Refusal := settle (emitStringOp offset length s)

/-- FINISH (R126). -/
def execFinish (s : State) : Host.Outcome State Fault Refusal := settle (finishOp s)

/-- TOKEN_PACK (R146). -/
def execTokenPack (offset length : Nat) (s : State) : Host.Outcome State Fault Refusal :=
  settleReturn .token (tokenPackOp offset length s)

end Sys2Proof.Machine
end

