-- ==== Sys2Proof/Machine/Encoder.lean ====
section
/-! DEFINITION. The encoder (42_encoder.md): parameters, match-finder, element step, and COMPRESS's body. -/

namespace Sys2Proof.Machine

open Sys2Proof

/-! ## Parameters -/

/-- `VALIDATE_DICT(d)` (R141). -/
def validateDictOp (d : Word) (s : State) : Res Unit :=
  match dictError d with
  | some e => .raise e s
  | none => .ok () s

/-- `DERIVE_PARAMS(d)` of a legal `d` (R140). -/
def deriveParamsOp (d : Word) (s : State) : Res Unit :=
  assertRange (dictError d = none)
    (.ok () (s.setOp { s.op with ls := Nat.log2 d.toNat, maxOff := maxOffsetOf d, maxLen := maxMatchOf d }))

/-! ## The match-finder -/

/-- How many of the first `lim` bytes at `a` and at `b` are equal, from the first on (R143's loop). -/
def matchRun (s : State) (a b : Nat) : Nat → Access Nat
  | 0 => .ok 0
  | lim + 1 =>
      (memRead1 s a).bind fun x =>
      (memRead1 s b).bind fun y =>
      if x = y then (matchRun s (a + 1) (b + 1) lim).bind fun l => .ok (l + 1) else .ok 0

/-- `MATCH_LEN(start, cur, lim)` (R143). -/
def matchLenAt (s : State) (start cur lim : Nat) : Access Nat :=
  matchRun s (s.op.src.toNat + start) (s.op.src.toNat + cur) lim

/-- The scan of R144: `count` candidates from `start` up, the best so far (length, offset); a later candidate of equal length
wins. -/
def searchFrom (s : State) (cur lim : Nat) : Nat → Nat → Nat × Nat → Access (Nat × Nat)
  | 0, _, best => .ok best
  | count + 1, start, best =>
      (matchLenAt s start cur lim).bind fun l =>
      searchFrom s cur lim count (start + 1) (if l ≥ best.1 then (l, cur - start) else best)

/-- The first candidate: `max(0, cur - op.maxOff)` (R142). -/
def firstCandidate (maxOff cur : Nat) : Nat := cur - maxOff

/-- How many candidates there are from the first to `cur - 3` (R142). -/
def candidateCount (maxOff cur : Nat) : Nat := cur - 2 - firstCandidate maxOff cur

/-- `lim = min(op.maxLen, n - cur)` (R143). -/
def matchLimit (op : OpParams) (cur : Nat) : Nat := min op.maxLen (op.len.toNat - cur)

/-- What `MATCH_SEARCH(cur)` finds: a function of the bytes of the input region (R145). -/
def findMatch (s : State) (cur : Nat) : Access (Nat × Nat) :=
  searchFrom s cur (matchLimit s.op cur) (candidateCount s.op.maxOff cur) (firstCandidate s.op.maxOff cur) (0, 0)

/-- `MATCH_SEARCH(cur)` (R144): (length, offset), also left in `st.bestLen` and `st.bestOff`.  A search that ends in BusError leaves the
two registers as they were, which R44 and U12 leave open (DESIGN CHOICE, assumption 18). -/
def matchSearchOp (cur : Nat) (s : State) : Res (Nat × Nat) :=
  assertRange (cur < s.op.len.toNat)
    (((findMatch s cur).toRes s).bind fun m s =>
     .ok m (s.setEnc { s.enc with bestLen := BitVec.ofNat 32 m.1, bestOff := BitVec.ofNat 32 m.2 }))

/-! ## The main loop -/

/-- `st.cur <- st.cur + k`, which is at most `op.len` (R149). -/
def advanceCur (k : Nat) (s : State) : State := s.setEnc { s.enc with cur := s.enc.cur + BitVec.ofNat 32 k }

/-- `ENCODE_STEP()` (R147). -/
def encodeStepOp (s : State) : Res Unit :=
  (matchSearchOp s.enc.cur.toNat s).bind fun m s =>
  if m.1 > 2 then
    (emitFlagOp true s).bind fun _ s =>
    (emitStringOp m.2 m.1 s).bind fun _ s =>
    .ok () (advanceCur m.1 s)
  else
    (emitFlagOp false s).bind fun _ s =>
    ((memRead1 s (s.op.src.toNat + s.enc.cur.toNat)).toRes s).bind fun v s =>
    (emitLiteralOp v s).bind fun _ s =>
    .ok () (advanceCur 1 s)

/-- The checks every start step makes first: BadBuffer (R66), and that the model admits the operation (R64, U18). -/
def checkRegions (s : State) : Res Unit :=
  if s.op.bufferBad then .raise .badBuffer s
  else if regionsOrdinary s.plat s.op then .ok () s
  else .refuse .regionsAreOrdinaryMemory

/-- What COMPRESS's start step does before it writes memory (R148). -/
def encStartChecks (s : State) : Res Unit :=
  (checkRegions s).bind fun _ s =>
  (prefetch s).bind fun _ s =>
  (validateDictOp s.op.d s).bind fun _ s =>
  if s.op.cap.toNat < Config.headerBytes then .raise .outputTooSmall s
  else deriveParamsOp s.op.d s

/-- WRITE_HEADER as the start step performs it: where memory does not answer at its first byte, BusError comes before any write. -/
def encStartHeader (s : State) : Res Unit :=
  if memOk s.plat s.op.dst.toNat then (prefetch s).bind fun _ s => writeHeaderOp s.op.len s.op.d s else .unwritten s

/-- COMPRESS's start step (R148, R211).  An implementation that prefetches has three observably different opportunities to raise
BusError in it: before the first write, with the header half written, and with HDR_ULEN and HDR_DICT set (assumption 5). -/
def encStartStep (s : State) : Res Unit :=
  (encStartChecks s).beforeWrites.bind fun _ s =>
  (encStartHeader s).bind fun _ s =>
  prefetch ((packerInitOp s).setEnc { (packerInitOp s).enc with cur := 0 })

/-- COMPRESS's end step (R148, R211). -/
def encEndStep (s : State) : Res Unit := (finishOp s).bind fun _ s => .ok () (completeOp s.enc.wc s)

/-- One step of COMPRESS after its start step (R211). -/
def encLoopStep (s : State) : Res Unit :=
  (prefetch s).bind fun _ s =>
  if s.enc.cur.toNat < s.op.len.toNat then encodeStepOp s else encEndStep s

/-- The element steps and the end step (R148): at most `fuel` element steps, then the end step. -/
def encLoop : Nat → State → Res Unit
  | 0, s => (prefetch s).bind fun _ s => encEndStep s
  | fuel + 1, s =>
      if s.enc.cur.toNat < s.op.len.toNat then (encLoopStep s).bind fun _ s => encLoop fuel s else encLoopStep s

/-- `COMPRESS_BODY()` (R148); "the loop of rule R148 runs at most n element steps" (R149). -/
def compressBodyOp (s : State) : Res Unit :=
  (encStartStep s).bind fun _ s => encLoop s.op.len.toNat (s.setPhase .loop)

/-! ## The meanings -/

/-- DERIVE_PARAMS (R140). -/
def execDeriveParams (d : Word) (s : State) : Host.Outcome State Fault Refusal := settle (deriveParamsOp d s)

/-- VALIDATE_DICT (R141). -/
def execValidateDict (d : Word) (s : State) : Host.Outcome State Fault Refusal := settle (validateDictOp d s)

/-- MATCH_LEN (R143). -/
def execMatchLen (start cur lim : Nat) (s : State) : Host.Outcome State Fault Refusal :=
  settleReturn .length ((matchLenAt s start cur lim).toRes s)

/-- MATCH_SEARCH (R144). -/
def execMatchSearch (cur : Nat) (s : State) : Host.Outcome State Fault Refusal :=
  settleReturn (fun m => .offLen m.2 m.1) (matchSearchOp cur s)

/-- ENCODE_STEP (R147). -/
def execEncodeStep (s : State) : Host.Outcome State Fault Refusal := settle (encodeStepOp s)

/-- COMPRESS_BODY (R148). -/
def execCompressBody (s : State) : Host.Outcome State Fault Refusal := settle (compressBodyOp s)

end Sys2Proof.Machine
end

