-- ==== Sys2Proof/Machine/Decoder.lean ====
section
/-! DEFINITION. The decoder state machine (43_decoder.md): initialisation, word reader, the current words, the two elements, and
DECOMPRESS's body. -/

namespace Sys2Proof.Machine

open Sys2Proof

/-! ## Initialisation and word reader -/

/-- `DEC_INIT(n, d)` of a legal `d` (R171). -/
def decInitOp (n d : Word) (s : State) : Res Unit :=
  assertRange (dictError d = none)
    (.ok ()
      ((s.setOp { s.op with n := n, d := d, ls := Nat.log2 d.toNat, offMask := offsetMaskOf d, lenMask := lengthMaskOf d }).setDec
        { s.dec with rc := 8, o := 0, rem := n, fIdx := 32, sLeft := 0, bLeft := 0 }))

/-- `READ_WORD()` (R172).  The new cursor is at most `op.len`, so it fits. -/
def readWordOp (s : State) : Res Word :=
  if s.dec.rc.toNat + 4 > s.op.len.toNat then .raise .truncatedInput s
  else
    ((memRead4 s (s.op.src.toNat + s.dec.rc.toNat)).toRes s).bind fun w s =>
    .ok w (s.setDec { s.dec with rc := s.dec.rc + 4 })

/-! ## The current words -/

/-- A flag word becomes the current one (R173). -/
def loadFlagWord (w : Word) (s : State) : State := s.setDec { s.dec with fWord := w, fIdx := 0 }

/-- A string word becomes the current one (R175). -/
def loadStringWord (w : Word) (s : State) : State := s.setDec { s.dec with sWord := w, sLeft := 2 }

/-- A byte word becomes the current one (R180). -/
def loadByteWord (w : Word) (s : State) : State := s.setDec { s.dec with bWord := w, bLeft := 4 }

/-- `FLAG_REFILL()` (R173). -/
def flagRefillOp (s : State) : Res Unit := (readWordOp s).bind fun w s => .ok () (loadFlagWord w s)

/-- `STRING_REFILL()` (R175). -/
def stringRefillOp (s : State) : Res Unit := (readWordOp s).bind fun w s => .ok () (loadStringWord w s)

/-- `BYTE_REFILL()` (R180). -/
def byteRefillOp (s : State) : Res Unit := (readWordOp s).bind fun w s => .ok () (loadByteWord w s)

/-- `FLAG_ADVANCE()` (R182): the index goes from 0 to 32. -/
def flagAdvanceOp (s : State) : Res Unit :=
  if h : s.dec.fIdx.val + 1 < 33 then .ok () (s.setDec { s.dec with fIdx := ⟨s.dec.fIdx.val + 1, h⟩ })
  else .fault .rangeAssertion

/-! ## The elements -/

/-- `st.o <- st.o + 1; st.rem <- st.rem - 1` (R178, R181). -/
def advanceOutput (s : State) : Res Unit :=
  assertRange (s.dec.o.toNat + 1 < 2 ^ 32 ∧ 0 < s.dec.rem.toNat)
    (.ok () (s.setDec { s.dec with o := s.dec.o + 1, rem := s.dec.rem - 1 }))

/-- Write the next output byte and advance. -/
def putOutput (v : Byte) (s : State) : Res Unit :=
  (memWrite1 (s.op.dst.toNat + s.dec.o.toNat) v s).bind fun _ s => advanceOutput s

/-- The string checks (R177), in their order. -/
def stringChecksOp (offset length : Nat) (s : State) : Res Unit :=
  if offset > s.dec.o.toNat then .raise .badOffset s
  else if length > s.dec.rem.toNat then .raise .lengthOverrun s
  else .ok () s

/-- The loop of `WINDOW_COPY` (R178): byte by byte, each read after the write before it. -/
def copyBytes (offset : Nat) : Nat → State → Res Unit
  | 0, s => .ok () s
  | k + 1, s =>
      ((memRead1 s (s.op.dst.toNat + s.dec.o.toNat - offset)).toRes s).bind fun v s =>
      (putOutput v s).bind fun _ s =>
      copyBytes offset k s

/-- `WINDOW_COPY(off, len)` on operands that passed R177 (R178). -/
def windowCopyOp (offset length : Nat) (s : State) : Res Unit :=
  assertRange (offset ≤ s.dec.o.toNat ∧ length ≤ s.dec.rem.toNat) (copyBytes offset length s)

/-- `STRING_ELEMENT()` (R179). -/
def stringElementOp (s : State) : Res Unit :=
  (if s.dec.sLeft.val = 0 then stringRefillOp s else .ok () s).bind fun _ s =>
  let m := unpackToken s.op.ls s.op.offMask s.op.lenMask (s.dec.sWord.extractLsb' 0 16)
  (stringChecksOp m.1 m.2 s).bind fun _ s =>
  (windowCopyOp m.1 m.2 s).bind fun _ s =>
  .ok () (s.setDec { s.dec with sWord := s.dec.sWord >>> 16, sLeft := ⟨s.dec.sLeft.val - 1, by omega⟩ })

/-- `LITERAL_ELEMENT()` (R181). -/
def literalElementOp (s : State) : Res Unit :=
  (if s.dec.bLeft.val = 0 then byteRefillOp s else .ok () s).bind fun _ s =>
  (putOutput (s.dec.bWord.extractLsb' 0 8) s).bind fun _ s =>
  .ok () (s.setDec { s.dec with bWord := s.dec.bWord >>> 8, bLeft := ⟨s.dec.bLeft.val - 1, by omega⟩ })

/-- `DECODE_STEP()` (R174). -/
def decodeStepOp (s : State) : Res Unit :=
  assertRange (0 < s.dec.rem.toNat)
    ((if s.dec.fIdx.val = 32 then flagRefillOp s else .ok () s).bind fun _ s =>
     (if s.dec.fWord.getLsbD s.dec.fIdx.val then stringElementOp s else literalElementOp s).bind fun _ s =>
     flagAdvanceOp s)

/-! ## The command body -/

/-- DECOMPRESS's start step (R170, R211); for `prefetch` see `encStartStep`, for `beforeWrites` R170: "None of the start-step errors
writes memory". -/
def decStartStep (s : State) : Res Unit :=
  Res.beforeWrites <|
    (checkRegions s).bind fun _ s =>
    (prefetch s).bind fun _ s =>
    if s.op.len.toNat < Config.headerBytes then .raise .corruptHeader s
    else
      (readHeaderOp s).bind fun nd s =>
      (prefetch s).bind fun _ s =>
      (validateDictOp nd.2 s).bind fun _ s =>
      if s.op.cap.toNat < nd.1.toNat then .raise .outputTooSmall s
      else decInitOp nd.1 nd.2 s

/-- DECOMPRESS's end step (R170, R211). -/
def decEndStep (s : State) : Res Unit := .ok () (completeOp s.op.n s)

/-- One step of DECOMPRESS after its start step (R211). -/
def decLoopStep (s : State) : Res Unit :=
  (prefetch s).bind fun _ s =>
  if 0 < s.dec.rem.toNat then decodeStepOp s else decEndStep s

/-- The element steps and the end step (R170): at most `fuel` element steps, then the end step. -/
def decLoop : Nat → State → Res Unit
  | 0, s => (prefetch s).bind fun _ s => decEndStep s
  | fuel + 1, s =>
      if 0 < s.dec.rem.toNat then (decLoopStep s).bind fun _ s => decLoop fuel s else decLoopStep s

/-- `DECOMPRESS_BODY()` (R170); "the loop runs at most op.n element steps" (R183). -/
def decompressBodyOp (s : State) : Res Unit :=
  (decStartStep s).bind fun _ s => decLoop s.op.n.toNat (s.setPhase .loop)

/-! ## The meanings -/

/-- FLAG_WORD (R83): a flag word as the decoder takes it (assumption 10). -/
def execFlagWord (flags : Word) (s : State) : Host.Outcome State Fault Refusal := .next (loadFlagWord flags s)

/-- STRING_WORD (R84): a string word as the decoder takes it (assumption 10). -/
def execStringWord (token0 token1 : Token) (s : State) : Host.Outcome State Fault Refusal :=
  .next (loadStringWord (stringWordOf token0 token1) s)

/-- BYTE_WORD (R85): a byte word as the decoder takes it (assumption 10). -/
def execByteWord (byte0 byte1 byte2 byte3 : Byte) (s : State) : Host.Outcome State Fault Refusal :=
  .next (loadByteWord (wordOfBytes byte0 byte1 byte2 byte3) s)

/-- LIT: a literal element (R181). -/
def execLit (s : State) : Host.Outcome State Fault Refusal := settle (literalElementOp s)

/-- STR: a string element (R179). -/
def execStr (s : State) : Host.Outcome State Fault Refusal := settle (stringElementOp s)

/-- TOKEN (R86): the fields of a token under the current `ls` (assumption 10). -/
def execToken (t : Token) (s : State) : Host.Outcome State Fault Refusal :=
  settleReturn (fun m => .offLen m.1 m.2) (.ok (tokenFields s.op.ls t) s)

/-- DECOMPRESS_BODY (R170). -/
def execDecompressBody (s : State) : Host.Outcome State Fault Refusal := settle (decompressBodyOp s)

/-- DEC_INIT (R171). -/
def execDecInit (n d : Word) (s : State) : Host.Outcome State Fault Refusal := settle (decInitOp n d s)

/-- READ_WORD (R172). -/
def execReadWord (s : State) : Host.Outcome State Fault Refusal := settleReturn .word (readWordOp s)

/-- FLAG_REFILL (R173). -/
def execFlagRefill (s : State) : Host.Outcome State Fault Refusal := settle (flagRefillOp s)

/-- DECODE_STEP (R174). -/
def execDecodeStep (s : State) : Host.Outcome State Fault Refusal := settle (decodeStepOp s)

/-- STRING_REFILL (R175). -/
def execStringRefill (s : State) : Host.Outcome State Fault Refusal := settle (stringRefillOp s)

/-- TOKEN_UNPACK (R176). -/
def execTokenUnpack (t : Token) (s : State) : Host.Outcome State Fault Refusal :=
  settleReturn (fun m => .offLen m.1 m.2) (.ok (unpackToken s.op.ls s.op.offMask s.op.lenMask t) s)

/-- STRING_CHECKS (R177). -/
def execStringChecks (offset length : Nat) (s : State) : Host.Outcome State Fault Refusal := settle (stringChecksOp offset length s)

/-- WINDOW_COPY (R178). -/
def execWindowCopy (offset length : Nat) (s : State) : Host.Outcome State Fault Refusal := settle (windowCopyOp offset length s)

/-- BYTE_REFILL (R180). -/
def execByteRefill (s : State) : Host.Outcome State Fault Refusal := settle (byteRefillOp s)

/-- FLAG_ADVANCE (R182). -/
def execFlagAdvance (s : State) : Host.Outcome State Fault Refusal := settle (flagAdvanceOp s)

end Sys2Proof.Machine
end

