-- ==== Sys2Proof/Machine/Control.lean ====
section
/-! DEFINITION. The sequencer: ACCEPT (R201), COMPLETE (R210), STEP (R211), ERROR_ENTRY (R235) and RESET (R250). -/

namespace Sys2Proof.Machine

open Sys2Proof

/-- The start step of the running operation (R211). -/
def startStepOp (s : State) : Res Unit :=
  match s.fsm with
  | .enc => encStartStep s
  | .dec => decStartStep s
  | .idle => .ok () s

/-- A step of the running operation after its start step (R211). -/
def loopStepOp (s : State) : Res Unit :=
  match s.fsm with
  | .enc => encLoopStep s
  | .dec => decLoopStep s
  | .idle => .ok () s

/-- `STEP()` while BUSY (R211). -/
def stepOp (s : State) : Res Unit :=
  if s.abortReq then .raise .aborted s
  else match s.phase with
    | .start => (startStepOp s).bind fun _ s => .ok () (s.setPhase .loop)
    | .loop => loopStepOp s

/-- ACCEPT (R201). -/
def execAccept (kind : OpKind) (s : State) : Host.Outcome State Fault Refusal := .next (acceptOp kind s)

/-- COMPLETE (R210). -/
def execComplete (r : Word) (s : State) : Host.Outcome State Fault Refusal := .next (completeOp r s)

/-- STEP (R211): only while `st.fsm != IDLE`; an IDLE block waits (R245). -/
def execStep (s : State) : Host.Outcome State Fault Refusal := if s.fsm = .idle then .next s else settle (stepOp s)

/-- ERROR_ENTRY (R235). -/
def execErrorEntry (c : ErrorCode) (s : State) : Host.Outcome State Fault Refusal := .next (enterError c s)

/-- RESET (R250, R251): the input `rst` takes a level. -/
def execReset (asserted : Bool) (s : State) : Host.Outcome State Fault Refusal := .next (resetBlock asserted s)

end Sys2Proof.Machine
end

