-- ==== Sys2Proof/Machine/HostPort.lean ====
section
/-! DEFINITION. The host commands and the register port (44_host_commands.md): the six rows of CTRL writes, the W1C write of
STATUS, the configuration write and the register read. -/

namespace Sys2Proof.Machine

open Sys2Proof

/-- A host write reaches its register's behaviour unless `rst` is asserted: "Host register writes while rst is asserted are
ignored" (R250). -/
def portWrite (s : State) (f : State → State) : State := if s.rst then s else f s

/-- `HOST_WRITE_CTRL(w)` (R200): IE is written first, by every CTRL write; then the command is performed. -/
def ctrlWrite (ie : Bool) (command : State → State) (s : State) : State :=
  portWrite s fun s => command (s.setRegs { s.regs with ie := ie })

/-- A command that is ignored while BUSY (R200). -/
def whenIdle (f : State → State) (s : State) : State := if s.busy then s else f s

/-- `RESERVED_CMD()` (R206): IllegalCommand is raised by the write itself. -/
def reservedCommand (s : State) : State :=
  enterError .illegalCommand (s.setRegs { s.regs with done := false, hdrUlen := 0, hdrDict := 0 })

/-- `ABORT()` (R205). -/
def abortCommand (s : State) : State := if s.busy then s.setAbortReq true else s

/-- NOP (R202): nothing but the CTRL write's own effect on IE. -/
def execNop (ie : Bool) (s : State) : Host.Outcome State Fault Refusal := .next (ctrlWrite ie (fun s => s) s)

/-- COMPRESS (R203). -/
def execCompress (ie : Bool) (s : State) : Host.Outcome State Fault Refusal :=
  .next (ctrlWrite ie (whenIdle (acceptOp .enc)) s)

/-- DECOMPRESS (R204). -/
def execDecompress (ie : Bool) (s : State) : Host.Outcome State Fault Refusal :=
  .next (ctrlWrite ie (whenIdle (acceptOp .dec)) s)

/-- ABORT (R205). -/
def execAbort (ie : Bool) (s : State) : Host.Outcome State Fault Refusal := .next (ctrlWrite ie abortCommand s)

/-- RESERVED_CMD_01xx (R206): CMD 0x4 to 0x7. -/
def execReservedCmd01xx (_low : BitVec 2) (ie : Bool) (s : State) : Host.Outcome State Fault Refusal :=
  .next (ctrlWrite ie (whenIdle reservedCommand) s)

/-- RESERVED_CMD_1xxx (R206): CMD 0x8 to 0xF. -/
def execReservedCmd1xxx (_low : BitVec 3) (ie : Bool) (s : State) : Host.Outcome State Fault Refusal :=
  .next (ctrlWrite ie (whenIdle reservedCommand) s)

/-- STATUS_W1C (R207). -/
def execStatusW1c (clrDone clrErr : Bool) (s : State) : Host.Outcome State Fault Refusal :=
  .next (portWrite s fun s => s.setRegs (clearFlags clrDone clrErr s.regs))

/-- CONFIG_WRITE (R208, R35): stored when IDLE, ignored when BUSY; a write to a read-only or reserved index is ignored. -/
def execConfigWrite (r : Reg) (value : Word) (s : State) : Host.Outcome State Fault Refusal :=
  .next (portWrite s (whenIdle fun s => s.setRegs (writeConfig r value s.regs)))

/-- REG_READ (R209): the value goes to the host; no other effect. -/
def execRegRead (r : Reg) (s : State) : Host.Outcome State Fault Refusal := .next (s.setRdata (hostRead s r))

end Sys2Proof.Machine
end

