-- ==== Sys2Proof/Machine/Dispatch.lean ====
section
/-! DEFINITION. Which meaning each instruction has. -/

namespace Sys2Proof.Machine

/-- The meaning of every instruction. -/
def exec (i : Instr) (s : State) : Host.Outcome State Fault Refusal :=
  match i with
  | .nop ie => Sys2Proof.Machine.execNop ie s
  | .compress ie => Sys2Proof.Machine.execCompress ie s
  | .decompress ie => Sys2Proof.Machine.execDecompress ie s
  | .abort ie => Sys2Proof.Machine.execAbort ie s
  | .reservedCmd01xx low ie => Sys2Proof.Machine.execReservedCmd01xx low ie s
  | .reservedCmd1xxx low ie => Sys2Proof.Machine.execReservedCmd1xxx low ie s
  | .statusW1c clrDone clrErr => Sys2Proof.Machine.execStatusW1c clrDone clrErr s
  | .configWrite r value => Sys2Proof.Machine.execConfigWrite r value s
  | .regRead r => Sys2Proof.Machine.execRegRead r s
  | .header uncompressedLength dictionaryLength => Sys2Proof.Machine.execHeader uncompressedLength dictionaryLength s
  | .flagWord flags => Sys2Proof.Machine.execFlagWord flags s
  | .stringWord token0 token1 => Sys2Proof.Machine.execStringWord token0 token1 s
  | .byteWord byte0 byte1 byte2 byte3 => Sys2Proof.Machine.execByteWord byte0 byte1 byte2 byte3 s
  | .lit => Sys2Proof.Machine.execLit s
  | .str => Sys2Proof.Machine.execStr s
  | .token t => Sys2Proof.Machine.execToken t s
  | .writeHeader n d => Sys2Proof.Machine.execWriteHeader n d s
  | .readHeader => Sys2Proof.Machine.execReadHeader s
  | .packerInit => Sys2Proof.Machine.execPackerInit s
  | .reserve => Sys2Proof.Machine.execReserve s
  | .flush k => Sys2Proof.Machine.execFlush k s
  | .emitFlag b => Sys2Proof.Machine.execEmitFlag b s
  | .emitLiteral v => Sys2Proof.Machine.execEmitLiteral v s
  | .emitString offset length => Sys2Proof.Machine.execEmitString offset length s
  | .finish => Sys2Proof.Machine.execFinish s
  | .deriveParams d => Sys2Proof.Machine.execDeriveParams d s
  | .validateDict d => Sys2Proof.Machine.execValidateDict d s
  | .matchLen start cur lim => Sys2Proof.Machine.execMatchLen start cur lim s
  | .matchSearch cur => Sys2Proof.Machine.execMatchSearch cur s
  | .tokenPack offset length => Sys2Proof.Machine.execTokenPack offset length s
  | .encodeStep => Sys2Proof.Machine.execEncodeStep s
  | .compressBody => Sys2Proof.Machine.execCompressBody s
  | .decompressBody => Sys2Proof.Machine.execDecompressBody s
  | .decInit n d => Sys2Proof.Machine.execDecInit n d s
  | .readWord => Sys2Proof.Machine.execReadWord s
  | .flagRefill => Sys2Proof.Machine.execFlagRefill s
  | .decodeStep => Sys2Proof.Machine.execDecodeStep s
  | .stringRefill => Sys2Proof.Machine.execStringRefill s
  | .tokenUnpack t => Sys2Proof.Machine.execTokenUnpack t s
  | .stringChecks offset length => Sys2Proof.Machine.execStringChecks offset length s
  | .windowCopy offset length => Sys2Proof.Machine.execWindowCopy offset length s
  | .byteRefill => Sys2Proof.Machine.execByteRefill s
  | .flagAdvance => Sys2Proof.Machine.execFlagAdvance s
  | .accept kind => Sys2Proof.Machine.execAccept kind s
  | .complete r => Sys2Proof.Machine.execComplete r s
  | .step => Sys2Proof.Machine.execStep s
  | .errorEntry c => Sys2Proof.Machine.execErrorEntry c s
  | .reset asserted => Sys2Proof.Machine.execReset asserted s

end Sys2Proof.Machine
end

