-- ==== Sys2Proof/Machine/Events.lean ====
section
/-! DEFINITION. What can happen between two steps of the block: an access of the host bus, a level on `rst`, an access of memory by
another agent (R70, R71); and what the machine does next. -/

namespace Sys2Proof.Machine

open Sys2Proof

/-- The bus access at `a`: the instruction it decodes to runs; an access at no register address does not reach the block (R21;
assumption 11). -/
def busEvent (a : BusAccess) (s : State) : Host.Outcome State Fault Refusal :=
  match decodeBus s.plat.csrBase a with
  | .ok i => exec i s
  | .error _ => .next s

/-- Whether address `a` lies in a region of the running operation (R70). -/
def inRunningRegion (s : State) (a : Nat) : Bool := s.busy && (s.op.inInput a || s.op.inOutput a)

/-- Another agent stores `v` at `a`.  Into a region of a running operation it breaks the host's duty (R70) and the model admits no
such run (U17); where the memory does not answer, it changes nothing (R61; assumption 16); at a device it stores nothing that the
model holds (DESIGN CHOICE, assumption 17). -/
def agentWriteEvent (a : Word) (v : Byte) (s : State) : Host.Outcome State Fault Refusal :=
  if inRunningRegion s a.toNat then .refused .regionsUntouchedWhileBusy
  else if memOk s.plat a.toNat && !inDevice s.plat a.toNat then .next (s.setMem (s.mem.write a.toNat v))
  else .next s

/-- Another agent reads the byte at `a`.  While an operation runs it "may see any subset of the operation's writes in any order"
(R71): at a byte of the output region it sees a free value (U21; assumption 6).  At a device it sees a free value, and the read has
no effect on memory (R64 says only that it may have one; DESIGN CHOICE, assumption 17). -/
def agentReadEvent (a : Word) (s : State) : Host.Outcome State Fault Refusal :=
  if memOk s.plat a.toNat then
    (if (s.busy && s.op.inOutput a.toNat) || inDevice s.plat a.toNat then
      .next ((s.setAgentData (Config.agentView s.fresh)).setFresh (s.fresh + 1))
     else .next (s.setAgentData (s.mem.read a.toNat)))
  else .next s

/-- One event. -/
def runEvent (e : Event) (s : State) : Host.Outcome State Fault Refusal :=
  match e with
  | .bus a => busEvent a s
  | .blockStep => exec .step s
  | .rst asserted => exec (.reset asserted) s
  | .agentWrite a v => agentWriteEvent a v s
  | .agentRead a => agentReadEvent a s

/-- What the machine does next: the first event of the inbox; with none waiting, the block's own step, which is the liveness of
R211 and R262 ("a BUSY block performs its next step after finitely many host accesses"). -/
def runNext (s : State) : Host.Outcome State Fault Refusal :=
  match s.inbox with
  | [] => exec .step s
  | e :: rest => runEvent e (s.setInbox rest)

/-- `s` with the CTRL write of the table word `w` as the next event (assumption 9). -/
def placeWord (s : State) (nbits w : Nat) : State :=
  s.setInbox (.bus (busWrite s.plat.csrBase .ctrl (BitVec.ofNat 32 (w % 2 ^ nbits))) :: s.inbox)

end Sys2Proof.Machine
end

