-- ==== Sys2Proof/Machine/Step.lean ====
section
/-! DEFINITION. One step of the machine, and where an instruction stands that the next step runs. -/

namespace Sys2Proof.Machine

/-- One step: an event from the outside, or the block's own step (R211). -/
def step (s : State) : Host.Outcome State Fault Refusal := runNext s

/-- `s` with the table word placed where the next step takes its instruction from: at the head of the inbox (assumption 9). -/
def State.withFetchWord (s : State) (nbits w : Nat) : State := placeWord s nbits w

end Sys2Proof.Machine
end

