-- ==== Sys2Proof/Safety.lean ====
section
/-! DEFINITION. What a safe state is (the invariant every step keeps), and the words in which the statements speak of memory. -/

namespace Sys2Proof.Safety

open Sys2Proof Sys2Proof.Machine

/-! ## Words for the statements -/

/-- The `n` bytes from `a` on exist and the memory answers at each (R60, R61). -/
abbrev Answers (s : State) (a n : Nat) : Prop := ∀ i < n, a + i < Config.addressSpace ∧ memOk s.plat (a + i) = true

/-- Every byte outside `[a, a + n)` reads in `t` as in `s`. -/
def SameOutside (s t : State) (a n : Nat) : Prop := ∀ b, b < a ∨ a + n ≤ b → t.mem.read b = s.mem.read b

/-- Every byte reads in `t` as in `s`. -/
def SameMemory (s t : State) : Prop := ∀ b, t.mem.read b = s.mem.read b

/-- The little-endian word at `a` is `v` (R62). -/
abbrev HoldsWord (s : State) (a : Nat) (v : Word) : Prop := ∀ j < 4, s.mem.read (a + j) = byteOf v j

/-- The little-endian word at `a` (R62). -/
def wordAt (s : State) (a : Nat) : Word :=
  wordOfBytes (s.mem.read a) (s.mem.read (a + 1)) (s.mem.read (a + 2)) (s.mem.read (a + 3))

/-- The parts of the state that no operation of the datapath writes: the platform, `rst`, the inbox and the outside world's data. -/
def SameOutsideWorld (s t : State) : Prop :=
  t.plat = s.plat ∧ t.rst = s.rst ∧ t.inbox = s.inbox ∧ t.rdata = s.rdata ∧ t.agentData = s.agentData

/-- The control part: host registers, operation state machine, latched parameters. -/
def SameControl (s t : State) : Prop :=
  t.regs = s.regs ∧ t.fsm = s.fsm ∧ t.abortReq = s.abortReq ∧ t.phase = s.phase ∧ t.op = s.op

/-- The three parameters of the encoder are those of its legal dictionary length (R140). -/
abbrev EncParams (op : OpParams) : Prop :=
  dictLegal op.d = true ∧ 2 ^ op.ls = op.d.toNat ∧ op.maxOff = op.d.toNat + 2 ∧ op.maxLen = 65536 / op.d.toNat + 2

/-- The parameters of the decoder are those of its legal dictionary length (R171). -/
abbrev DecParams (op : OpParams) : Prop :=
  dictLegal op.d = true ∧ 2 ^ op.ls = op.d.toNat ∧ op.offMask.toNat = op.d.toNat - 1 ∧ op.lenMask.toNat = 2 ^ (16 - op.ls) - 1

/-! ## The invariant -/

/-- An accumulator between two steps (R41 to R43): empty when closed; when open, its slot lies between the header and the write
cursor, on a multiple of 4 (R121). -/
abbrev SlotOk (wc : Word) {cap : Nat} (a : Accum cap) : Prop :=
  (a.isOpen = false → a.pos.val = 0) ∧
  (a.isOpen = true → 8 ≤ a.slot.toNat ∧ a.slot.toNat % 4 = 0 ∧ a.slot.toNat + 4 ≤ wc.toNat)

/-- Two open words have two slots. -/
abbrev SlotsApart {c e : Nat} (a : Accum c) (b : Accum e) : Prop := a.isOpen = true → b.isOpen = true → a.slot ≠ b.slot

/-- A running COMPRESS after its start step (R38 to R43, R140, R148). -/
abbrev EncRun (s : State) : Prop :=
  s.op.bufferBad = false ∧ EncParams s.op ∧ s.enc.cur.toNat ≤ s.op.len.toNat ∧
  8 ≤ s.enc.wc.toNat ∧ s.enc.wc.toNat ≤ s.op.cap.toNat ∧ s.enc.wc.toNat % 4 = 0 ∧
  SlotOk s.enc.wc s.enc.f ∧ SlotOk s.enc.wc s.enc.s ∧ SlotOk s.enc.wc s.enc.b ∧
  SlotsApart s.enc.f s.enc.s ∧ SlotsApart s.enc.f s.enc.b ∧ SlotsApart s.enc.s s.enc.b ∧
  s.regs.hdrUlen = s.op.len ∧ s.regs.hdrDict = s.op.d

/-- A running DECOMPRESS after its start step (R38, R45 to R49, R171, R186). -/
abbrev DecRun (s : State) : Prop :=
  s.op.bufferBad = false ∧ DecParams s.op ∧ 8 ≤ s.dec.rc.toNat ∧ s.dec.rc.toNat ≤ s.op.len.toNat ∧ s.dec.rc.toNat % 4 = 0 ∧
  s.dec.o.toNat + s.dec.rem.toNat = s.op.n.toNat ∧ s.op.n.toNat ≤ s.op.cap.toNat ∧
  s.regs.hdrUlen = s.op.n ∧ s.regs.hdrDict = s.op.d

/-- The flags and the result registers (R24, R30, R37, R51). -/
abbrev FlagsOk (s : State) : Prop :=
  ¬(s.regs.done = true ∧ s.regs.err = true) ∧
  (s.fsm = .idle → s.abortReq = false) ∧
  (s.fsm ≠ .idle → s.regs.done = false ∧ s.regs.err = false ∧ s.regs.errcode = .noError ∧ s.regs.resultLen = 0) ∧
  (s.regs.err = true → s.regs.errcode ≠ .noError ∧ s.regs.resultLen = 0) ∧
  (s.regs.done = true → s.regs.errcode = .noError)

/-- While `rst` is asserted the block is IDLE and the host registers hold their reset values (R250). -/
abbrev ResetOk (s : State) : Prop := s.rst = true → s.fsm = .idle ∧ s.regs = HostRegs.reset

/-- Memory is in its canonical form, and no unspecified range comes from an event that has not happened. -/
abbrev MemoryOk (s : State) : Prop := s.mem.wf ∧ ∀ u ∈ s.mem.unspec, u.gen < s.fresh

/-- The invariant of the machine. -/
abbrev Inv (s : State) : Prop :=
  MemoryOk s ∧ FlagsOk s ∧ ResetOk s ∧
  (s.fsm ≠ .idle → s.phase = .start → s.regs.hdrUlen = 0 ∧ s.regs.hdrDict = 0) ∧
  (s.fsm = .enc → s.phase = .loop → EncRun s) ∧
  (s.fsm = .dec → s.phase = .loop → DecRun s)

/-- Between an operation's acceptance and its end: how many more steps it can take (R149, R183, R261). -/
def stepsLeft (s : State) : Nat :=
  match s.fsm, s.phase with
  | .idle, _ => 0
  | .enc, .start => s.op.len.toNat + 2
  | .enc, .loop => s.op.len.toNat - s.enc.cur.toNat + 1
  | .dec, .start => 2 ^ 32 + 1
  | .dec, .loop => s.dec.rem.toNat + 1

end Sys2Proof.Safety
end

