-- ==== Sys2Proof/Certificates/Slice0/Obligations.lean ====
section
/-! DEFINITION. The statements about the machine.  Every statement about a next state says what the instruction changes and what it
leaves: where it is an equality of states, everything it does not name is unchanged.

Words used (Safety.lean): `Answers s a n`, the memory answers at the n bytes from a on; `HoldsWord s a v`, the little-endian word at
a is v; `SameOutside s t a n`, every byte outside the n bytes from a on reads in t as in s. -/

open Sys2Proof Sys2Proof.Machine Sys2Proof.Safety Host

/-! ## The register port (44_host_commands.md) -/

/-- R201: an idle block accepts COMPRESS and DECOMPRESS: the configuration registers are latched (DICT_LEN by COMPRESS
only), the flags and the result registers are cleared, and the block is BUSY at the start step.  Nothing else changes.  ACCEPT by
itself does the same but for IE. -/
def Obligations.StartCommandsAreAcceptedWhenIdle : Prop :=
  ∀ (ie : Bool) (s : State), s.rst = false → s.fsm = .idle →
    exec (.compress ie) s = .next { s with
      op := { s.op with src := s.regs.srcAddr, len := s.regs.srcLen, dst := s.regs.dstAddr, cap := s.regs.dstCap, d := s.regs.dictLen }
      regs := { s.regs with ie := ie, done := false, err := false, errcode := .noError, resultLen := 0, hdrUlen := 0, hdrDict := 0 }
      abortReq := false
      phase := .start
      fsm := .enc } ∧
    exec (.decompress ie) s = .next { s with
      op := { s.op with src := s.regs.srcAddr, len := s.regs.srcLen, dst := s.regs.dstAddr, cap := s.regs.dstCap }
      regs := { s.regs with ie := ie, done := false, err := false, errcode := .noError, resultLen := 0, hdrUlen := 0, hdrDict := 0 }
      abortReq := false
      phase := .start
      fsm := .dec } ∧
    ∀ k : OpKind, exec (.accept k) s = .next { s with
      op := { s.op with
        src := s.regs.srcAddr
        len := s.regs.srcLen
        dst := s.regs.dstAddr
        cap := s.regs.dstCap
        d := if k = .enc then s.regs.dictLen else s.op.d }
      regs := { s.regs with done := false, err := false, errcode := .noError, resultLen := 0, hdrUlen := 0, hdrDict := 0 }
      abortReq := false
      phase := .start
      fsm := if k = .enc then .enc else .dec }

/-- R200, R202, R205, R22: every CTRL write sets IE, and NOP does nothing else, idle or busy; while BUSY a start command or a reserved code writes IE and is otherwise ignored, and ABORT is remembered; when
idle ABORT writes IE and has no other effect. -/
def Obligations.CommandsWhileBusyAreIgnoredButAbort : Prop :=
  ∀ (ie : Bool) (l2 : BitVec 2) (l3 : BitVec 3) (s : State), s.rst = false →
    exec (.nop ie) s = .next { s with regs := { s.regs with ie := ie } } ∧
    (s.fsm ≠ .idle →
      exec (.compress ie) s = .next { s with regs := { s.regs with ie := ie } } ∧
      exec (.decompress ie) s = .next { s with regs := { s.regs with ie := ie } } ∧
      exec (.reservedCmd01xx l2 ie) s = .next { s with regs := { s.regs with ie := ie } } ∧
      exec (.reservedCmd1xxx l3 ie) s = .next { s with regs := { s.regs with ie := ie } } ∧
      exec (.abort ie) s = .next { s with regs := { s.regs with ie := ie }, abortReq := true }) ∧
    (s.fsm = .idle → exec (.abort ie) s = .next { s with regs := { s.regs with ie := ie } })

/-- R206, R231: a reserved code while idle raises IllegalCommand at the write: ERR, ERRCODE = 10, the result registers 0, BUSY never
set, memory and everything else unchanged. -/
def Obligations.ReservedCommandsRaiseIllegalCommand : Prop :=
  ∀ (ie : Bool) (l2 : BitVec 2) (l3 : BitVec 3) (s : State), s.rst = false → s.fsm = .idle →
    let t : State := { s with
      regs := { s.regs with ie := ie, done := false, err := true, errcode := .illegalCommand, resultLen := 0, hdrUlen := 0, hdrDict := 0 }
      abortReq := false }
    exec (.reservedCmd01xx l2 ie) s = .next t ∧ exec (.reservedCmd1xxx l3 ie) s = .next t

/-- R207: the W1C write of STATUS clears DONE and ERR where a 1 is written and changes nothing else; a flag written 0 keeps its
value. -/
def Obligations.StatusWriteClearsWhereOne : Prop :=
  ∀ (d e : Bool) (s : State), s.rst = false →
    exec (.statusW1c d e) s = .next { s with
      regs := { s.regs with done := if d then false else s.regs.done, err := if e then false else s.regs.err } }

/-- R208: a configuration write stores the value in its register, and in no other, when the block is IDLE; it is ignored when
BUSY, and a write of a read-only or reserved index is ignored at any time. -/
def Obligations.ConfigurationWritesStoreWhenIdle : Prop :=
  ∀ (r : Reg) (v : Word) (s : State), s.rst = false → (Instr.configWrite r v).wellFormed = true →
    (s.fsm = .idle → r = .dictLen ∨ r = .srcAddr ∨ r = .srcLen ∨ r = .dstAddr ∨ r = .dstCap →
      ∃ g : HostRegs, exec (.configWrite r v) s = .next { s with regs := g } ∧
        regValue { s with regs := g } r = v ∧ ∀ q : Reg, q ≠ r → regValue { s with regs := g } q = regValue s q) ∧
    (s.fsm ≠ .idle ∨ ¬(r = .dictLen ∨ r = .srcAddr ∨ r = .srcLen ∨ r = .dstAddr ∨ r = .dstCap) →
      exec (.configWrite r v) s = .next s)

/-- R209, R22 to R34, R221: what a read of each index returns, the twelve error numbers written out; a read changes nothing but the data
returned. -/
def Obligations.ReadsReturnTheRegisterMap : Prop :=
  ∀ s : State, s.rst = false →
    exec (.regRead .ctrl) s = .next { s with rdata := if s.regs.ie then 0x100 else 0 } ∧
    exec (.regRead .status) s = .next { s with
      rdata := BitVec.ofNat 32 ((if s.fsm = .idle then 0 else 1) + (if s.regs.done then 2 else 0) + (if s.regs.err then 4 else 0)) } ∧
    exec (.regRead .errcode) s = .next { s with
      rdata := match s.regs.errcode with
        | .noError => 0
        | .invalidDictionary => 1 | .dictionaryTooSmall => 2 | .dictionaryTooLarge => 3 | .outputTooSmall => 4
        | .truncatedInput => 5 | .corruptHeader => 6 | .badOffset => 7 | .lengthOverrun => 8
        | .badBuffer => 9 | .illegalCommand => 10 | .aborted => 11 | .busError => 12 } ∧
    exec (.regRead .dictLen) s = .next { s with rdata := s.regs.dictLen } ∧
    exec (.regRead .srcAddr) s = .next { s with rdata := s.regs.srcAddr } ∧
    exec (.regRead .srcLen) s = .next { s with rdata := s.regs.srcLen } ∧
    exec (.regRead .dstAddr) s = .next { s with rdata := s.regs.dstAddr } ∧
    exec (.regRead .dstCap) s = .next { s with rdata := s.regs.dstCap } ∧
    exec (.regRead .resultLen) s = .next { s with rdata := s.regs.resultLen } ∧
    exec (.regRead .hdrUlen) s = .next { s with rdata := s.regs.hdrUlen } ∧
    exec (.regRead .hdrDict) s = .next { s with rdata := s.regs.hdrDict } ∧
    exec (.regRead .ident) s = .next { s with rdata := 0x4C5A5353 }

/-- R34: indices 12 to 15 read 0 and ignore writes, with no side effect. -/
def Obligations.ReservedIndicesReadZeroAndIgnoreWrites : Prop :=
  ∀ (r : Reg) (v : Word) (s : State), r = .rsv12 ∨ r = .rsv13 ∨ r = .rsv14 ∨ r = .rsv15 →
    exec (.regRead r) s = .next { s with rdata := 0 } ∧ exec (.configWrite r v) s = .next s

/-- R250: while `rst` is asserted every host write is ignored, and a read returns the register's reset value. -/
def Obligations.PortWhileResetIsAsserted : Prop :=
  ∀ (ie d e : Bool) (l2 : BitVec 2) (l3 : BitVec 3) (r : Reg) (v : Word) (s : State), s.rst = true →
    exec (.nop ie) s = .next s ∧ exec (.compress ie) s = .next s ∧ exec (.decompress ie) s = .next s ∧
    exec (.abort ie) s = .next s ∧ exec (.reservedCmd01xx l2 ie) s = .next s ∧ exec (.reservedCmd1xxx l3 ie) s = .next s ∧
    exec (.statusW1c d e) s = .next s ∧ exec (.configWrite r v) s = .next s ∧
    exec (.regRead r) s = .next { s with rdata := if r = .ident then 0x4C5A5353 else 0 }

/-- R36: the interrupt output is a function of IE, DONE and ERR alone. -/
def Obligations.InterruptIsEnableAndDoneOrError : Prop :=
  (∀ s : State, s.irq = true ↔ s.regs.ie = true ∧ (s.regs.done = true ∨ s.regs.err = true)) ∧
  (∀ s t : State, t.regs.ie = s.regs.ie → t.regs.done = s.regs.done → t.regs.err = s.regs.err → t.irq = s.irq)

/-! ## The sequencer, error entry, reset -/

/-- A step runs the event at the head of the inbox: a bus access runs the instruction it decodes to, a level on `rst` runs RESET, an
agent's access reads or writes one byte of memory; with an empty inbox the block takes its own step.  R211 and U19 leave the
interleaving open: that it is the order of the inbox is the model's choice (assumption 13), and so is what an access at no register
address does (assumption 11), where memory does not answer (assumption 16) and at a device (assumption 17).  What an agent's read sees of
the output region of a running operation is any value (R71; assumption 6); its write into a region of one is refused, stated apart. -/
def Obligations.StepRunsTheDecodedInstruction : Prop :=
  ∀ s : State,
    (s.inbox = [] → step s = exec .step s) ∧
    (∀ a rest i, s.inbox = .bus a :: rest → decodeBus s.plat.csrBase a = .ok i → step s = exec i { s with inbox := rest }) ∧
    (∀ a rest r, s.inbox = .bus a :: rest → decodeBus s.plat.csrBase a = .error r → step s = .next { s with inbox := rest }) ∧
    (∀ rest, s.inbox = .blockStep :: rest → step s = exec .step { s with inbox := rest }) ∧
    (∀ b rest, s.inbox = .rst b :: rest → step s = exec (.reset b) { s with inbox := rest }) ∧
    (∀ a rest, s.inbox = .agentRead a :: rest →
      (memOk s.plat a.toNat = false → step s = .next { s with inbox := rest }) ∧
      (memOk s.plat a.toNat = true →
        (inDevice s.plat a.toNat = false → s.fsm = .idle ∨ s.op.inOutput a.toNat = false →
          step s = .next { s with inbox := rest, agentData := s.mem.read a.toNat }) ∧
        (inDevice s.plat a.toNat = true ∨ s.fsm ≠ .idle ∧ s.op.inOutput a.toNat = true →
          ∃ v, step s = .next { s with inbox := rest, agentData := v, fresh := s.fresh + 1 }))) ∧
    (∀ a v rest, s.inbox = .agentWrite a v :: rest →
      s.fsm = .idle ∨ s.op.inInput a.toNat = false ∧ s.op.inOutput a.toNat = false →
      (memOk s.plat a.toNat = false ∨ inDevice s.plat a.toNat = true → step s = .next { s with inbox := rest }) ∧
      (memOk s.plat a.toNat = true → inDevice s.plat a.toNat = false → s.mem.wf →
        ∃ m : Memory, step s = .next { s with inbox := rest, mem := m } ∧ m.read a.toNat = v ∧
          ∀ b, b ≠ a.toNat → m.read b = s.mem.read b))

/-- R211, R245: which of the operations STEP performs.  An IDLE block waits; a pending abort is raised instead of the step; after the
start step it is an element step while elements remain, else the end step.  The input region answers everywhere (else R61's early
BusError is possible, stated apart). -/
def Obligations.StepPerformsTheRunningOperation : Prop :=
  ∀ s : State,
    (s.fsm = .idle → exec .step s = .next s) ∧
    (s.fsm ≠ .idle → s.abortReq = true → exec .step s = exec (.errorEntry .aborted) s) ∧
    (s.abortReq = false → s.phase = .loop → inputHasHole s.plat s.op = false →
      (s.fsm = .enc → s.enc.cur.toNat < s.op.len.toNat → exec .step s = exec .encodeStep s) ∧
      (s.fsm = .enc → s.op.len.toNat ≤ s.enc.cur.toNat →
        ∀ t, exec .finish s = .next t → t.fsm = .enc → exec .step s = exec (.complete t.enc.wc) t) ∧
      (s.fsm = .dec → 0 < s.dec.rem.toNat → exec .step s = exec .decodeStep s) ∧
      (s.fsm = .dec → s.dec.rem.toNat = 0 → exec .step s = exec (.complete s.op.n) s))

/-- R210: COMPLETE(r) writes RESULT_LEN, sets DONE, makes the block IDLE, and with IE = 1 raises irq.  That the datapath registers keep
their values is the model's choice (U12; assumption 18). -/
def Obligations.CompleteReportsTheResult : Prop :=
  ∀ (r : Word) (s : State),
    exec (.complete r) s = .next { s with regs := { s.regs with resultLen := r, done := true }, abortReq := false, fsm := .idle } ∧
    ∀ t, exec (.complete r) s = .next t → (t.irq = true ↔ s.regs.ie = true)

/-- R235: error entry with code c.  The registers are exact; memory outside the output region is unchanged; after a code that R235
lists as raised before any write, memory is unchanged altogether.  That a code 4 is a start step's when st.phase is START is read
from R37 and R211 (DEDUCED, assumption 4).  (Nothing is said of the output region's bytes otherwise: they are any value.) -/
def Obligations.ErrorEntryRecordsTheCode : Prop :=
  ∀ (c : ErrorCode) (s : State), (Instr.errorEntry c).wellFormed = true →
    ∃ (m : Memory) (g : Nat),
      exec (.errorEntry c) s = .next { s with
        regs := { s.regs with errcode := c, resultLen := 0, err := true }, abortReq := false, fsm := .idle, mem := m, fresh := g } ∧
      (∀ b, s.op.inOutput b = false → m.read b = s.mem.read b) ∧
      (c = .invalidDictionary ∨ c = .dictionaryTooSmall ∨ c = .dictionaryTooLarge ∨ c = .corruptHeader ∨ c = .badBuffer ∨
        c = .illegalCommand ∨ (c = .outputTooSmall ∧ s.phase = .start) → m = s.mem)

/-- R250, R251, R252: RESET.  While `rst` is asserted and when it is released, the host registers and the control state take their
reset values and irq falls; memory is unchanged if no operation runs, and outside the output region if one does; the platform and the
inbox are not the block's.  That the data last read by the host and by an agent are kept is the model's choice (assumption 7), and that
a low level where `rst` is low already is no reset and changes nothing is its reading of R250 (assumption 14). -/
def Obligations.ResetTakesTheResetValues : Prop :=
  ∀ (asserted : Bool) (s : State),
    (asserted = true ∨ s.rst = true → ∃ t : State, exec (.reset asserted) s = .next t ∧
      t.regs = HostRegs.reset ∧ t.fsm = .idle ∧ t.abortReq = false ∧ t.irq = false ∧ t.rst = asserted ∧
      t.plat = s.plat ∧ t.inbox = s.inbox ∧ t.rdata = s.rdata ∧ t.agentData = s.agentData ∧
      (s.fsm = .idle → t.mem = s.mem) ∧ (∀ b, s.op.inOutput b = false → t.mem.read b = s.mem.read b)) ∧
    (asserted = false → s.rst = false → exec (.reset asserted) s = .next s)

/-! ## The stream's items as the decoder takes them; tokens (30_encoding.md, 43_decoder.md) -/

/-- R81, R83 to R86: what taking a stream item does: a header's fields are recorded and returned; a word becomes the current word of
its kind, all of it unused; a token's two fields are returned, the same by slices (R86) and by masks (R176).  That a row of the table
that is a data format means this is assumption 10. -/
def Obligations.StreamItemsBecomeTheCurrentWord : Prop :=
  ∀ (n d w : Word) (t0 t1 : Token) (b0 b1 b2 b3 : Byte) (s : State),
    exec (.header n d) s = .next { s with regs := { s.regs with hdrUlen := n, hdrDict := d }, result := .headerFields n d } ∧
    exec (.flagWord w) s = .next { s with dec := { s.dec with fWord := w, fIdx := 0 } } ∧
    exec (.stringWord t0 t1) s = .next { s with dec := { s.dec with sWord := t1 ++ t0, sLeft := 2 } } ∧
    exec (.byteWord b0 b1 b2 b3) s = .next { s with dec := { s.dec with bWord := b3 ++ b2 ++ b1 ++ b0, bLeft := 4 } } ∧
    (DecParams s.op →
      let r : OpResult := .offLen (t0.toNat % s.op.d.toNat + 3) (t0.toNat / s.op.d.toNat + 3)
      exec (.token t0) s = .next { s with result := r } ∧ exec (.tokenUnpack t0) s = .next { s with result := r })

/-- R87: every 16-bit value is a token for every legal d, its fields in range; 0xFFFF gives the largest offset and length, 0 gives
(3, 3). -/
def Obligations.EveryTokenIsLegal : Prop :=
  ∀ (t : Token) (s : State), EncParams s.op → DecParams s.op →
    (∃ off len, exec (.tokenUnpack t) s = .next { s with result := .offLen off len } ∧
      3 ≤ off ∧ off ≤ s.op.maxOff ∧ 3 ≤ len ∧ len ≤ s.op.maxLen) ∧
    exec (.tokenUnpack 0xFFFF) s = .next { s with result := .offLen s.op.maxOff s.op.maxLen } ∧
    exec (.tokenUnpack 0) s = .next { s with result := .offLen 3 3 }

/-- R184: the source's 32-bit lengthMask is `2^(32-ls) - 1` and gives the same length as the 16-bit mask for every token. -/
def Obligations.LengthMaskWidthsAgree : Prop :=
  ∀ (d : Word) (ls : Nat) (t : Token), dictLegal d = true → 2 ^ ls = d.toNat →
    (~~~(d - 1)) >>> ls = BitVec.ofNat 32 (2 ^ (32 - ls) - 1) ∧
    ∀ off16 : Word, unpackToken ls off16 ((~~~(d - 1)) >>> ls) t = unpackToken ls off16 (BitVec.ofNat 32 (2 ^ (16 - ls) - 1)) t

/-- R146, R151, R176: TOKEN_PACK completes on every match in range, its token is `(length-3) * 2^ls + (offset-3)`, and TOKEN_UNPACK
takes it back. -/
def Obligations.TokenPackIsUndoneByUnpack : Prop :=
  ∀ (off len : Nat) (s : State), EncParams s.op → DecParams s.op → 3 ≤ off → off ≤ s.op.maxOff → 3 ≤ len → len ≤ s.op.maxLen →
    ∃ t : Token, t.toNat = (len - 3) * 2 ^ s.op.ls + (off - 3) ∧
      exec (.tokenPack off len) s = .next { s with result := .token t } ∧
      exec (.tokenUnpack t) s = .next { s with result := .offLen off len }

/-! ## The header codec (40_header.md) -/

/-- R110, R61, R233: WRITE_HEADER writes the two words at the head of the output region, records them, and changes nothing else; if the
memory does not answer at the first byte it raises BusError and has written nothing. -/
def Obligations.WriteHeaderStoresTwoWords : Prop :=
  ∀ (n d : Word) (s : State), (Instr.writeHeader n d).wellFormed = true →
    (s.mem.wf → Answers s s.op.dst.toNat 8 → ∃ m : Memory,
      let t : State := { s with mem := m, regs := { s.regs with hdrUlen := n, hdrDict := d } }
      exec (.writeHeader n d) s = .next t ∧
      HoldsWord t s.op.dst.toNat n ∧ HoldsWord t (s.op.dst.toNat + 4) d ∧ SameOutside s t s.op.dst.toNat 8) ∧
    (memOk s.plat s.op.dst.toNat = false → exec (.writeHeader n d) s = exec (.errorEntry .busError) s)

/-- R111, R61, R233: READ_HEADER returns and records the two words at the head of the input region, whatever they are, and changes
nothing else; if the memory does not answer at the first byte it raises BusError. -/
def Obligations.ReadHeaderReturnsTwoWords : Prop :=
  ∀ s : State,
    (Answers s s.op.src.toNat 8 →
      exec .readHeader s = .next { s with
        regs := { s.regs with hdrUlen := wordAt s s.op.src.toNat, hdrDict := wordAt s (s.op.src.toNat + 4) }
        result := .headerFields (wordAt s s.op.src.toNat) (wordAt s (s.op.src.toNat + 4)) }) ∧
    (memOk s.plat s.op.src.toNat = false → exec .readHeader s = exec (.errorEntry .busError) s)

/-- R112: READ_HEADER applied to the 8 bytes that WRITE_HEADER(n, d) wrote returns (n, d), for every n and every d. -/
def Obligations.HeaderRoundTrip : Prop :=
  ∀ (n d : Word) (s t u v : State), s.mem.wf → exec (.writeHeader n d) s = .next t → t.regs.err = false →
    Answers u u.op.src.toNat 8 → (∀ i < 8, u.mem.read (u.op.src.toNat + i) = t.mem.read (s.op.dst.toNat + i)) →
    exec .readHeader u = .next v → v.result = .headerFields n d

/-! ## The packer (41_packer.md) -/

/-- R120: PACKER_INIT sets the write cursor to 8 and closes the three accumulators. -/
def Obligations.PackerInitClosesTheAccumulators : Prop :=
  ∀ s : State, exec .packerInit s = .next { s with
    enc := { s.enc with
      wc := 8
      f := { s.enc.f with isOpen := false, pos := 0 }
      s := { s.enc.s with isOpen := false, pos := 0 }
      b := { s.enc.b with isOpen := false, pos := 0 } } }

/-- R121: RESERVE returns the write cursor and advances it by 4 when the slot fits, a slot ending exactly at the capacity included;
else it raises OutputTooSmall. -/
def Obligations.ReserveChecksTheCapacity : Prop :=
  ∀ s : State,
    (s.enc.wc.toNat + 4 ≤ s.op.cap.toNat → ∃ w : Word, w.toNat = s.enc.wc.toNat + 4 ∧
      exec .reserve s = .next { s with enc := { s.enc with wc := w }, result := .word s.enc.wc }) ∧
    (s.op.cap.toNat < s.enc.wc.toNat + 4 → exec .reserve s = exec (.errorEntry .outputTooSmall) s)

/-- R122, R62, R233: FLUSH(k) stores the accumulator at its slot and closes it; where the memory does not answer at byte j of the slot,
and does before, it raises BusError with the j bytes before stored and the later ones not. -/
def Obligations.FlushStoresTheWordAtItsSlot : Prop :=
  ∀ (k : SubStream) (s : State), s.mem.wf →
    let a := s.op.dst.toNat + (s.enc.slotOf k).toNat
    (Answers s a 4 → ∃ (m : Memory) (e : EncRegs),
      let t : State := { s with mem := m, enc := e }
      exec (.flush k) s = .next t ∧ HoldsWord t a (s.enc.accOf k) ∧ SameOutside s t a 4 ∧
      e = match k with
        | .flags => { s.enc with f := { s.enc.f with isOpen := false, pos := 0 } }
        | .strings => { s.enc with s := { s.enc.s with isOpen := false, pos := 0 } }
        | .bytes => { s.enc with b := { s.enc.b with isOpen := false, pos := 0 } }) ∧
    (∀ j < 4, a + j < 2 ^ 32 → Answers s a j → memOk s.plat (a + j) = false → ∃ m : Memory,
      let t : State := { s with mem := m }
      exec (.flush k) s = exec (.errorEntry .busError) t ∧ (∀ i < j, m.read (a + i) = byteOf (s.enc.accOf k) i) ∧ SameOutside s t a j)

/-- The slot of the word an element goes to: the open word's, or the one the write cursor gives a new word (R123 to R125). -/
def EmitSlot {cap : Nat} (s : State) (a : Accum cap) : Word := if a.isOpen then a.slot else s.enc.wc

/-- The position of the element in its word. -/
def EmitPos {cap : Nat} (a : Accum cap) : Nat := if a.isOpen then a.pos.val else 0

/-- The word with the element put in, at bit `width * position` (R120). -/
def EmitWord {cap : Nat} (a : Accum cap) (width : Nat) (v : Word) : Word :=
  (if a.isOpen then a.acc else 0) ||| (v <<< (width * EmitPos a))

/-- An element can be emitted: the word is open or its slot fits, and if the element fills the word the memory answers at its slot. -/
abbrev CanEmit {cap : Nat} (s : State) (a : Accum cap) : Prop :=
  (a.isOpen = false → s.enc.wc.toNat + 4 ≤ s.op.cap.toNat) ∧
  (EmitPos a + 1 = cap → Answers s (s.op.dst.toNat + (EmitSlot s a).toNat) 4)

/-- What emitting an element of `width` bits leaves (R123 to R125): in its accumulator (from `a` to `a'`), in the write cursor, and
in memory, where a word is stored exactly when the element filled it. -/
def AfterEmit {cap : Nat} (s t : State) (a a' : Accum cap) (width : Nat) (v : Word) : Prop :=
  t.enc.wc.toNat = (if a.isOpen then s.enc.wc.toNat else s.enc.wc.toNat + 4) ∧ a'.slot = EmitSlot s a ∧ a'.acc = EmitWord a width v ∧
  (EmitPos a + 1 < cap → a'.isOpen = true ∧ a'.pos.val = EmitPos a + 1 ∧ SameMemory s t) ∧
  (EmitPos a + 1 = cap → a'.isOpen = false ∧ a'.pos.val = 0 ∧
    HoldsWord t (s.op.dst.toNat + (EmitSlot s a).toNat) (EmitWord a width v) ∧
    SameOutside s t (s.op.dst.toNat + (EmitSlot s a).toNat) 4)

/-- R123: EMIT_FLAG(b). -/
def Obligations.EmitFlagFillsTheFlagWord : Prop :=
  ∀ (b : Bool) (s : State), s.mem.wf → CanEmit s s.enc.f →
    ∃ (m : Memory) (a : Accum 32) (w : Word),
      let t : State := { s with mem := m, enc := { s.enc with f := a, wc := w } }
      exec (.emitFlag b) s = .next t ∧ AfterEmit s t s.enc.f a 1 (if b then 1 else 0)

/-- R124: EMIT_LITERAL(v). -/
def Obligations.EmitLiteralFillsTheByteWord : Prop :=
  ∀ (v : Byte) (s : State), s.mem.wf → CanEmit s s.enc.b →
    ∃ (m : Memory) (a : Accum 4) (w : Word),
      let t : State := { s with mem := m, enc := { s.enc with b := a, wc := w } }
      exec (.emitLiteral v) s = .next t ∧ AfterEmit s t s.enc.b a 8 (v.zeroExtend 32)

/-- R125: EMIT_STRING(offset, length). -/
def Obligations.EmitStringFillsTheStringWord : Prop :=
  ∀ (off len : Nat) (s : State), s.mem.wf → EncParams s.op → 3 ≤ off → off ≤ s.op.maxOff → 3 ≤ len → len ≤ s.op.maxLen →
    CanEmit s s.enc.s →
    ∃ (m : Memory) (a : Accum 2) (w : Word),
      let t : State := { s with mem := m, enc := { s.enc with s := a, wc := w } }
      exec (.emitString off len) s = .next t ∧
      AfterEmit s t s.enc.s a 16 (BitVec.ofNat 32 ((len - 3) * 2 ^ s.op.ls + (off - 3)))

/-- R123 to R125, R121: an element whose word is not open and whose slot does not fit raises OutputTooSmall with nothing reserved. -/
def Obligations.EmitWithoutRoomRaisesOutputTooSmall : Prop :=
  ∀ (b : Bool) (v : Byte) (s : State), s.op.cap.toNat < s.enc.wc.toNat + 4 →
    (s.enc.f.isOpen = false → exec (.emitFlag b) s = exec (.errorEntry .outputTooSmall) s) ∧
    (s.enc.b.isOpen = false → exec (.emitLiteral v) s = exec (.errorEntry .outputTooSmall) s) ∧
    (s.enc.s.isOpen = false → EncParams s.op → ∀ off len, 3 ≤ off → off ≤ s.op.maxOff → 3 ≤ len → len ≤ s.op.maxLen →
      exec (.emitString off len) s = exec (.errorEntry .outputTooSmall) s)

/-- R126: FINISH stores every open word at its slot, closes it, and stores nothing else. -/
def Obligations.FinishStoresEveryOpenWord : Prop :=
  ∀ s : State, s.mem.wf → EncRun s → s.plat.holes = [] →
    ∃ (m : Memory) (e : EncRegs),
      let t : State := { s with mem := m, enc := e }
      exec .finish s = .next t ∧
      e.wc = s.enc.wc ∧ e.cur = s.enc.cur ∧ e.bestLen = s.enc.bestLen ∧ e.bestOff = s.enc.bestOff ∧
      (∀ k, e.openOf k = false ∧ e.accOf k = s.enc.accOf k ∧ e.slotOf k = s.enc.slotOf k) ∧
      e.f.pos = 0 ∧ e.s.pos = 0 ∧ e.b.pos = 0 ∧
      (∀ k, s.enc.openOf k = true → HoldsWord t (s.op.dst.toNat + (s.enc.slotOf k).toNat) (s.enc.accOf k)) ∧
      (∀ b, (∀ k, s.enc.openOf k = true →
        b < s.op.dst.toNat + (s.enc.slotOf k).toNat ∨ s.op.dst.toNat + (s.enc.slotOf k).toNat + 4 ≤ b) →
        m.read b = s.mem.read b)

/-! ## The encoder (42_encoder.md) -/

/-- R140, R171: what DERIVE_PARAMS and DEC_INIT derive from a legal d; DEC_INIT also sets the cursors and empties the three current
words. -/
def Obligations.ParametersOfALegalDictionary : Prop :=
  ∀ (n d : Word) (s : State), dictLegal d = true → ∃ (ls : Nat) (offM lenM : Word),
    2 ^ ls = d.toNat ∧ offM.toNat = d.toNat - 1 ∧ lenM.toNat = 2 ^ (16 - ls) - 1 ∧
    exec (.deriveParams d) s = .next { s with op := { s.op with ls := ls, maxOff := d.toNat + 2, maxLen := 65536 / d.toNat + 2 } } ∧
    exec (.decInit n d) s = .next { s with
      op := { s.op with n := n, d := d, ls := ls, offMask := offM, lenMask := lenM }
      dec := { s.dec with rc := 8, o := 0, rem := n, fIdx := 32, sLeft := 0, bLeft := 0 } }

/-- R141: VALIDATE_DICT lets the legal lengths pass and raises the error the rule names for every other value. -/
def Obligations.ValidateDictSortsEveryValue : Prop :=
  ∀ (d : Word) (s : State),
    (dictLegal d = true → exec (.validateDict d) s = .next s) ∧
    ((¬∃ k, d.toNat = 2 ^ k) → exec (.validateDict d) s = exec (.errorEntry .invalidDictionary) s) ∧
    (d.toNat = 1 ∨ d.toNat = 2 → exec (.validateDict d) s = exec (.errorEntry .dictionaryTooSmall) s) ∧
    ((∃ k, 15 ≤ k ∧ d.toNat = 2 ^ k) → exec (.validateDict d) s = exec (.errorEntry .dictionaryTooLarge) s)

/-- `l` is the match length of the candidate `start` at `cur` under the limit `lim`: the bytes are equal up to `l`, and `l` is the
limit or the next two bytes differ (R143). -/
def IsMatchLen (s : State) (start cur lim l : Nat) : Prop :=
  l ≤ lim ∧
  (∀ i < l, s.mem.read (s.op.src.toNat + start + i) = s.mem.read (s.op.src.toNat + cur + i)) ∧
  (l < lim → s.mem.read (s.op.src.toNat + start + l) ≠ s.mem.read (s.op.src.toNat + cur + l))

/-- R143: MATCH_LEN returns the match length and changes nothing else. -/
def Obligations.MatchLenCountsEqualBytes : Prop :=
  ∀ (start cur lim : Nat) (s : State), (Instr.matchLen start cur lim).wellFormed = true →
    Answers s (s.op.src.toNat + start) (cur - start + lim) →
    ∃ l, IsMatchLen s start cur lim l ∧ exec (.matchLen start cur lim) s = .next { s with result := .length l }

/-- R144, R142, R145: MATCH_SEARCH returns the closed form: with no candidate, length 0; else the greatest match length of a
candidate, and the closest candidate that has it.  Only the two match-finder registers change. -/
def Obligations.MatchSearchFindsTheLongestClosest : Prop :=
  ∀ (cur : Nat) (s : State), cur < s.op.len.toNat → s.op.bufferBad = false → s.plat.holes = [] → 3 ≤ s.op.maxOff →
    let lim := min s.op.maxLen (s.op.len.toNat - cur)
    ∃ len off : Nat,
      exec (.matchSearch cur) s = .next { s with
        enc := { s.enc with bestLen := BitVec.ofNat 32 len, bestOff := BitVec.ofNat 32 off }, result := .offLen off len } ∧
      (cur < 3 → len = 0 ∧ off = 0) ∧
      (3 ≤ cur → 3 ≤ off ∧ off ≤ s.op.maxOff ∧ off ≤ cur ∧ IsMatchLen s (cur - off) cur lim len ∧
        ∀ start l, cur - s.op.maxOff ≤ start → start + 3 ≤ cur → IsMatchLen s start cur lim l →
          l ≤ len ∧ (l = len → start ≤ cur - off))

/-- R147: ENCODE_STEP is MATCH_SEARCH, then the flag, then the payload, then the advance: a string if the match is longer than 2, else
a literal. -/
def Obligations.EncodeStepEmitsFlagThenPayload : Prop :=
  ∀ (s u v w : State) (len off : Nat), s.fsm = .enc →
    exec (.matchSearch s.enc.cur.toNat) s = .next u → u.fsm = .enc → u.result = .offLen off len →
    exec (.emitFlag (decide (2 < len))) { u with result := s.result } = .next v → v.fsm = .enc →
    (2 < len → exec (.emitString off len) v = .next w → w.fsm = .enc →
      exec .encodeStep s = .next { w with enc := { w.enc with cur := w.enc.cur + BitVec.ofNat 32 len } }) ∧
    (len ≤ 2 → Answers s (s.op.src.toNat + s.enc.cur.toNat) 1 →
      exec (.emitLiteral (v.mem.read (s.op.src.toNat + s.enc.cur.toNat))) v = .next w → w.fsm = .enc →
      exec .encodeStep s = .next { w with enc := { w.enc with cur := w.enc.cur + 1 } })

/-- R147, R149, R152: where two more slots fit, an element step completes: it advances by at least 1 and at most to the end of the
input, keeps what a running COMPRESS keeps, and stores only below the write cursor in the output region. -/
def Obligations.EncodeStepCompletesAndAdvances : Prop :=
  ∀ s : State, s.fsm = .enc → s.mem.wf → EncRun s → s.plat.holes = [] → s.enc.cur.toNat < s.op.len.toNat →
    s.enc.wc.toNat + 8 ≤ s.op.cap.toNat →
    ∃ (m : Memory) (e : EncRegs),
      let t : State := { s with mem := m, enc := e }
      exec .encodeStep s = .next t ∧ EncRun t ∧ s.enc.cur.toNat < e.cur.toNat ∧ e.cur.toNat ≤ s.op.len.toNat ∧
      e.wc.toNat ≤ s.enc.wc.toNat + 8 ∧
      (∀ b, b < s.op.dst.toNat + 8 ∨ s.op.dst.toNat + e.wc.toNat ≤ b → m.read b = s.mem.read b)

/-- What COMPRESS needs to complete on the latched parameters: legal dictionary length, good buffers of ordinary memory that answers
(R148, R66, R64, R61). -/
abbrev CanCompress (s : State) : Prop :=
  s.mem.wf ∧ s.op.bufferBad = false ∧ dictLegal s.op.d = true ∧ s.plat.holes = [] ∧ s.plat.devices = []

/-- R148, R76: with room for two slots an element, COMPRESS_BODY completes: DONE, RESULT_LEN at least 8 and a multiple of 4, the
header in place, and every byte outside the first RESULT_LEN bytes of the output region unchanged.  That the decoder's registers are kept
too is the model's choice (U12; assumption 18). -/
def Obligations.CompressBodyCompletesWithRoom : Prop :=
  ∀ s : State, CanCompress s → 8 + 8 * s.op.len.toNat ≤ s.op.cap.toNat →
    ∃ t : State, exec .compressBody s = .next t ∧ t.fsm = .idle ∧ t.regs.done = true ∧ t.regs.err = s.regs.err ∧
      8 ≤ t.regs.resultLen.toNat ∧ t.regs.resultLen.toNat % 4 = 0 ∧ t.regs.resultLen.toNat ≤ s.op.cap.toNat ∧
      t.regs.hdrUlen = s.op.len ∧ t.regs.hdrDict = s.op.d ∧
      HoldsWord t s.op.dst.toNat s.op.len ∧ HoldsWord t (s.op.dst.toNat + 4) s.op.d ∧
      SameOutside s t s.op.dst.toNat t.regs.resultLen.toNat ∧ SameOutsideWorld s t ∧ t.dec = s.dec

/-- R260, R213: RESULT_LEN of a completed COMPRESS is within the bound, and a host that sizes DST_CAP by the bound never gets
OutputTooSmall: COMPRESS_BODY completes. -/
def Obligations.CompressedSizeBound : Prop :=
  ∀ s : State, CanCompress s → s.regs.done = false →
    let n := s.op.len.toNat
    let bound := 8 + 4 * ((n + 31) / 32 + (n + 3) / 4) + (if 6 ≤ n then 4 else 0)
    (∀ t, exec .compressBody s = .next t → t.regs.done = true → t.regs.resultLen.toNat ≤ bound) ∧
    (bound ≤ s.op.cap.toNat → ∃ t : State, exec .compressBody s = .next t ∧ t.regs.done = true ∧ t.regs.err = s.regs.err)

/-! ## The decoder (43_decoder.md) -/

/-- R172, R173, R175, R180: READ_WORD returns the next stream word and advances by 4 when it lies in the input, and a refill makes that
word the current one of its kind, all of it unused; else each raises TruncatedInput, and BusError where the memory does not answer at
one of the word's four bytes (R233), with nothing changed before the error entry. -/
def Obligations.RefillsReadTheNextStreamWord : Prop :=
  ∀ s : State,
    (s.dec.rc.toNat + 4 ≤ s.op.len.toNat → Answers s (s.op.src.toNat + s.dec.rc.toNat) 4 →
      let w := wordAt s (s.op.src.toNat + s.dec.rc.toNat)
      ∃ rc : Word, rc.toNat = s.dec.rc.toNat + 4 ∧
        exec .readWord s = .next { s with dec := { s.dec with rc := rc }, result := .word w } ∧
        exec .flagRefill s = .next { s with dec := { s.dec with rc := rc, fWord := w, fIdx := 0 } } ∧
        exec .stringRefill s = .next { s with dec := { s.dec with rc := rc, sWord := w, sLeft := 2 } } ∧
        exec .byteRefill s = .next { s with dec := { s.dec with rc := rc, bWord := w, bLeft := 4 } }) ∧
    (s.op.len.toNat < s.dec.rc.toNat + 4 →
      exec .readWord s = exec (.errorEntry .truncatedInput) s ∧ exec .flagRefill s = exec (.errorEntry .truncatedInput) s ∧
      exec .stringRefill s = exec (.errorEntry .truncatedInput) s ∧ exec .byteRefill s = exec (.errorEntry .truncatedInput) s) ∧
    (s.dec.rc.toNat + 4 ≤ s.op.len.toNat → s.op.src.toNat + s.dec.rc.toNat + 4 ≤ 2 ^ 32 →
      (∃ i < 4, memOk s.plat (s.op.src.toNat + s.dec.rc.toNat + i) = false) →
      exec .readWord s = exec (.errorEntry .busError) s ∧ exec .flagRefill s = exec (.errorEntry .busError) s ∧
      exec .stringRefill s = exec (.errorEntry .busError) s ∧ exec .byteRefill s = exec (.errorEntry .busError) s)

/-- R177: the string checks, offset first. -/
def Obligations.StringChecksInOrder : Prop :=
  ∀ (off len : Nat) (s : State),
    (off ≤ s.dec.o.toNat → len ≤ s.dec.rem.toNat → exec (.stringChecks off len) s = .next s) ∧
    (s.dec.o.toNat < off → exec (.stringChecks off len) s = exec (.errorEntry .badOffset) s) ∧
    (off ≤ s.dec.o.toNat → s.dec.rem.toNat < len → exec (.stringChecks off len) s = exec (.errorEntry .lengthOverrun) s)

/-- R178: WINDOW_COPY appends `len` bytes, each equal to the byte `off` places before it in the output AFTER the copy (so that a
self-overlapping copy repeats), and changes no other byte. -/
def Obligations.WindowCopyRepeatsTheWindow : Prop :=
  ∀ (off len : Nat) (s : State), s.mem.wf → 3 ≤ off → off ≤ s.dec.o.toNat → len ≤ s.dec.rem.toNat →
    s.dec.o.toNat + s.dec.rem.toNat < 2 ^ 32 → Answers s (s.op.dst.toNat + s.dec.o.toNat - off) (off + len) →
    ∃ (m : Memory) (o rem : Word),
      let t : State := { s with mem := m, dec := { s.dec with o := o, rem := rem } }
      exec (.windowCopy off len) s = .next t ∧ o.toNat = s.dec.o.toNat + len ∧ rem.toNat = s.dec.rem.toNat - len ∧
      (∀ j < len, m.read (s.op.dst.toNat + s.dec.o.toNat + j) = m.read (s.op.dst.toNat + s.dec.o.toNat + j - off)) ∧
      SameOutside s t (s.op.dst.toNat + s.dec.o.toNat) len

/-- The byte word a literal takes its byte from, and the read cursor after that: the current one, or the next stream word if the
current one is exhausted (R180, R181). -/
def LiteralWord (s : State) : Word := if s.dec.bLeft = 0 then wordAt s (s.op.src.toNat + s.dec.rc.toNat) else s.dec.bWord

/-- The string word a string takes its token from (R175, R179). -/
def StringWordNow (s : State) : Word := if s.dec.sLeft = 0 then wordAt s (s.op.src.toNat + s.dec.rc.toNat) else s.dec.sWord

/-- A word can be read from the stream. -/
abbrev CanReadWord (s : State) : Prop :=
  s.dec.rc.toNat + 4 ≤ s.op.len.toNat ∧ Answers s (s.op.src.toNat + s.dec.rc.toNat) 4

/-- The state after the byte refill that a literal may need (R181). -/
def AfterByteRefill (s : State) : State :=
  if s.dec.bLeft = 0 then { s with dec := { s.dec with rc := s.dec.rc + 4, bWord := LiteralWord s, bLeft := 4 } } else s

/-- The state after the string refill that a string may need (R179). -/
def AfterStringRefill (s : State) : State :=
  if s.dec.sLeft = 0 then { s with dec := { s.dec with rc := s.dec.rc + 4, sWord := StringWordNow s, sLeft := 2 } } else s

/-- R181, R180, R226, R233: LIT writes the low byte of the byte word as the next output byte, refilling first if the word is exhausted.
It raises TruncatedInput where the refill finds no word, and BusError where the memory does not answer at the output byte, which is
then not written. -/
def Obligations.LiteralElementAppendsTheByte : Prop :=
  ∀ s : State,
    (s.mem.wf → (s.dec.bLeft = 0 → CanReadWord s) → Answers s (s.op.dst.toNat + s.dec.o.toNat) 1 →
      s.dec.o.toNat + s.dec.rem.toNat < 2 ^ 32 → 0 < s.dec.rem.toNat →
      ∃ (m : Memory) (o rem rc : Word) (left : Fin 5),
        let t : State := { s with mem := m, dec := { s.dec with o := o, rem := rem, rc := rc, bWord := LiteralWord s >>> 8, bLeft := left } }
        exec .lit s = .next t ∧ o.toNat = s.dec.o.toNat + 1 ∧ rem.toNat = s.dec.rem.toNat - 1 ∧
        rc.toNat = (if s.dec.bLeft = 0 then s.dec.rc.toNat + 4 else s.dec.rc.toNat) ∧
        left.val = (if s.dec.bLeft = 0 then 3 else s.dec.bLeft.val - 1) ∧
        m.read (s.op.dst.toNat + s.dec.o.toNat) = (LiteralWord s).extractLsb' 0 8 ∧
        SameOutside s t (s.op.dst.toNat + s.dec.o.toNat) 1) ∧
    (s.dec.bLeft = 0 → s.op.len.toNat < s.dec.rc.toNat + 4 → exec .lit s = exec (.errorEntry .truncatedInput) s) ∧
    ((s.dec.bLeft = 0 → CanReadWord s) → s.op.dst.toNat + s.dec.o.toNat < 2 ^ 32 →
      memOk s.plat (s.op.dst.toNat + s.dec.o.toNat) = false →
      exec .lit s = exec (.errorEntry .busError) (AfterByteRefill s))

/-- R179, R175, R176, R177, R178: STR takes the low token of the string word, refilling first if the word is exhausted, and, when the
token passes the string checks, copies from the window and drops the token.  It raises TruncatedInput where the refill finds no word,
and BadOffset or, after that check, LengthOverrun on a token that fails, before any byte is written. -/
def Obligations.StringElementCopiesFromTheWindow : Prop :=
  ∀ s : State,
    (s.dec.sLeft = 0 → s.op.len.toNat < s.dec.rc.toNat + 4 → exec .str s = exec (.errorEntry .truncatedInput) s) ∧
    (DecParams s.op → (s.dec.sLeft = 0 → CanReadWord s) →
      let tok := (StringWordNow s).toNat % 2 ^ 16
      let off := tok % s.op.d.toNat + 3
      let len := tok / s.op.d.toNat + 3
      (s.dec.o.toNat < off → exec .str s = exec (.errorEntry .badOffset) (AfterStringRefill s)) ∧
      (off ≤ s.dec.o.toNat → s.dec.rem.toNat < len → exec .str s = exec (.errorEntry .lengthOverrun) (AfterStringRefill s)) ∧
      (off ≤ s.dec.o.toNat → len ≤ s.dec.rem.toNat → s.mem.wf → s.dec.o.toNat + s.dec.rem.toNat < 2 ^ 32 →
        Answers s (s.op.dst.toNat + s.dec.o.toNat - off) (off + len) →
        ∃ (m : Memory) (o rem rc : Word) (left : Fin 3),
          let t : State := { s with mem := m, dec := { s.dec with o := o, rem := rem, rc := rc, sWord := StringWordNow s >>> 16, sLeft := left } }
          exec .str s = .next t ∧ o.toNat = s.dec.o.toNat + len ∧ rem.toNat = s.dec.rem.toNat - len ∧
          rc.toNat = (if s.dec.sLeft = 0 then s.dec.rc.toNat + 4 else s.dec.rc.toNat) ∧
          left.val = (if s.dec.sLeft = 0 then 1 else s.dec.sLeft.val - 1) ∧
          (∀ j < len, m.read (s.op.dst.toNat + s.dec.o.toNat + j) = m.read (s.op.dst.toNat + s.dec.o.toNat + j - off)) ∧
          SameOutside s t (s.op.dst.toNat + s.dec.o.toNat) len))

/-- R182: FLAG_ADVANCE moves to the next flag, 32 being exhausted; it reads no word. -/
def Obligations.FlagAdvanceReadsNothing : Prop :=
  ∀ s : State, s.dec.fIdx.val < 32 → ∃ i : Fin 33, i.val = s.dec.fIdx.val + 1 ∧
    exec .flagAdvance s = .next { s with dec := { s.dec with fIdx := i } }

/-- R174: DECODE_STEP refills an exhausted flag word first, takes the element its flag bit names, and then advances the flag; where the
refill or the element ends in an error, DECODE_STEP ends in it. -/
def Obligations.DecodeStepFollowsTheFlagBit : Prop :=
  ∀ s t : State, s.fsm = .dec → 0 < s.dec.rem.toNat →
    (s.dec.fIdx.val < 32 → exec (decodeElement (s.dec.fWord.getLsbD s.dec.fIdx.val)) s = .next t →
      (t.fsm = .dec → exec .decodeStep s = exec .flagAdvance t) ∧ (t.fsm ≠ .dec → exec .decodeStep s = .next t)) ∧
    (s.dec.fIdx.val = 32 → exec .flagRefill s = .next t →
      (t.fsm = .dec → exec .decodeStep s = exec .decodeStep t) ∧ (t.fsm ≠ .dec → exec .decodeStep s = .next t))

/-- R174, R181, R183: on a literal whose words are at hand DECODE_STEP completes: one byte appended, one flag used. -/
def Obligations.DecodeStepCompletesOnALiteral : Prop :=
  ∀ s : State, s.mem.wf → s.dec.fIdx.val < 32 → s.dec.fWord.getLsbD s.dec.fIdx.val = false → 0 < s.dec.bLeft.val →
    0 < s.dec.rem.toNat → s.dec.o.toNat + s.dec.rem.toNat < 2 ^ 32 → Answers s (s.op.dst.toNat + s.dec.o.toNat) 1 →
    ∃ (m : Memory) (d : DecRegs),
      let t : State := { s with mem := m, dec := d }
      exec .decodeStep s = .next t ∧ d.o.toNat = s.dec.o.toNat + 1 ∧ d.rem.toNat + 1 = s.dec.rem.toNat ∧
      d.fIdx.val = s.dec.fIdx.val + 1 ∧ d.fWord = s.dec.fWord ∧ d.rc = s.dec.rc ∧ d.sWord = s.dec.sWord ∧ d.sLeft = s.dec.sLeft ∧
      d.bWord = s.dec.bWord >>> 8 ∧ d.bLeft.val + 1 = s.dec.bLeft.val ∧
      m.read (s.op.dst.toNat + s.dec.o.toNat) = s.dec.bWord.extractLsb' 0 8 ∧ SameOutside s t (s.op.dst.toNat + s.dec.o.toNat) 1

/-- R170, R89, R90, R185: a stream of at most 32 literals decodes to its bytes, whatever its padding, its trailing bytes and DICT_LEN;
RESULT_LEN is the header's length and no other byte is written.  That the encoder's registers are kept too is the model's choice (U12;
assumption 18). -/
def Obligations.DecompressBodyDecodesLiterals : Prop :=
  ∀ s : State, s.mem.wf → s.op.bufferBad = false → s.plat.holes = [] → s.plat.devices = [] →
    let src := s.op.src.toNat
    let n := (wordAt s src).toNat
    dictLegal (wordAt s (src + 4)) = true → n ≤ 32 → n ≤ s.op.cap.toNat → 12 + 4 * ((n + 3) / 4) ≤ s.op.len.toNat →
    (∀ i < n, (wordAt s (src + 8)).getLsbD i = false) →
    ∃ t : State, exec .decompressBody s = .next t ∧ t.fsm = .idle ∧ t.regs.done = true ∧ t.regs.err = s.regs.err ∧
      t.regs.resultLen.toNat = n ∧ t.regs.hdrUlen.toNat = n ∧ t.regs.hdrDict = wordAt s (src + 4) ∧
      (∀ i < n, t.mem.read (s.op.dst.toNat + i) = s.mem.read (src + 12 + i)) ∧
      SameOutside s t s.op.dst.toNat n ∧ SameOutsideWorld s t ∧ t.enc = s.enc

/-- The regions are bad (R66): one wraps past `2^32`, or, both being non-empty, they overlap. -/
abbrev RegionsBad (s : State) : Prop :=
  2 ^ 32 < s.op.src.toNat + s.op.len.toNat ∨ 2 ^ 32 < s.op.dst.toNat + s.op.cap.toNat ∨
  0 < s.op.len.toNat ∧ 0 < s.op.cap.toNat ∧ s.op.src.toNat < s.op.dst.toNat + s.op.cap.toNat ∧
    s.op.dst.toNat < s.op.src.toNat + s.op.len.toNat

/-- R234, R170, R66: the DECOMPRESS start step's checks in their order: BadBuffer, CorruptHeader, then on the header read the
dictionary errors, then OutputTooSmall; each leaves the header registers as the rule says.  Whatever a start step of DECOMPRESS ends in,
BusError too, memory is unchanged; for BusError that is R170's and D31's word against R235's list (assumption 4). -/
def Obligations.DecompressStartChecksInOrder : Prop :=
  ∀ s : State, s.fsm = .dec → s.abortReq = false → s.phase = .start →
    (∀ t, exec .step s = .next t → t.mem = s.mem) ∧
    (s.plat.holes = [] → s.plat.devices = [] →
      (RegionsBad s → exec .step s = exec (.errorEntry .badBuffer) s) ∧
      (¬RegionsBad s → s.op.len.toNat < 8 → exec .step s = exec (.errorEntry .corruptHeader) s) ∧
      (¬RegionsBad s → 8 ≤ s.op.len.toNat →
        let n := wordAt s s.op.src.toNat
        let d := wordAt s (s.op.src.toNat + 4)
        let h : State := { s with regs := { s.regs with hdrUlen := n, hdrDict := d } }
        (∀ c, dictError d = some c → exec .step s = exec (.errorEntry c) h) ∧
        (dictError d = none → s.op.cap.toNat < n.toNat → exec .step s = exec (.errorEntry .outputTooSmall) h) ∧
        (dictError d = none → n.toNat ≤ s.op.cap.toNat →
          ∃ t, exec (.decInit n d) h = .next t ∧ exec .step s = .next { t with phase := .loop })))

/-- R234, R148, R66: the COMPRESS start step's checks in their order: BadBuffer, the dictionary errors, OutputTooSmall; where they pass,
the parameters are derived, the header is written and recorded, the packer is empty, and the block is at its first element.  Where the
memory does not answer at the first byte of the output region, whatever the start step ends in leaves memory unchanged (D31;
assumption 4).  The model's buffer check says just what R66 says. -/
def Obligations.CompressStartChecksInOrder : Prop :=
  ∀ s : State, s.fsm = .enc → s.abortReq = false → s.phase = .start →
    (s.op.bufferBad = true ↔ RegionsBad s) ∧
    (memOk s.plat s.op.dst.toNat = false → ∀ t, exec .step s = .next t → t.mem = s.mem) ∧
    (s.plat.holes = [] → s.plat.devices = [] →
      (RegionsBad s → exec .step s = exec (.errorEntry .badBuffer) s) ∧
      (¬RegionsBad s →
        (∀ c, dictError s.op.d = some c → exec .step s = exec (.errorEntry c) s) ∧
        (dictError s.op.d = none → s.op.cap.toNat < 8 → exec .step s = exec (.errorEntry .outputTooSmall) s) ∧
        (dictLegal s.op.d = true → 8 ≤ s.op.cap.toNat → s.mem.wf → ∃ (m : Memory) (ls : Nat), 2 ^ ls = s.op.d.toNat ∧
          let t : State := { s with
            mem := m
            op := { s.op with ls := ls, maxOff := s.op.d.toNat + 2, maxLen := 65536 / s.op.d.toNat + 2 }
            regs := { s.regs with hdrUlen := s.op.len, hdrDict := s.op.d }
            enc := { s.enc with
              cur := 0
              wc := 8
              f := { s.enc.f with isOpen := false, pos := 0 }
              s := { s.enc.s with isOpen := false, pos := 0 }
              b := { s.enc.b with isOpen := false, pos := 0 } }
            phase := .loop }
          exec .step s = .next t ∧ HoldsWord t s.op.dst.toNat s.op.len ∧ HoldsWord t (s.op.dst.toNat + 4) s.op.d ∧
          SameOutside s t s.op.dst.toNat 8)))

/-! ## Encoding -/

/-- 30_encoding.md: decoding the encoding of an instruction gives it back, for every well-formed instruction that has an encoding,
every operand and every `CSR_BASE`. -/
def Obligations.DecodeUndoesEncode : Prop :=
  ∀ (base : Word) (i : Instr) (c : Code), i.wellFormed = true → encode base i = some c → decode base c = .ok (i, [])

/-- R92, R93, R80, R84 to R86, R88, R62: a few words written out from the tables decode to what they stand for.  That an address inside a
register is rejected is read from R21 (DEDUCED, assumption 11). -/
def Obligations.WrittenOutWordsDecode : Prop :=
  decodeBus 0x40000000 { isWrite := true, addr := 0x40000000, data := 0x101 } = .ok (.compress true) ∧
  decodeBus 0x40000000 { isWrite := true, addr := 0x40000000, data := 0xE2 } = .ok (.decompress false) ∧
  decodeBus 0x40000000 { isWrite := true, addr := 0x40000000, data := 0xD } = .ok (.reservedCmd1xxx 5 false) ∧
  decodeBus 0x40000000 { isWrite := true, addr := 0x40000004, data := 0x2 } = .ok (.statusW1c true false) ∧
  decodeBus 0x40000000 { isWrite := true, addr := 0x40000018, data := 0x2000 } = .ok (.configWrite .dstAddr 0x2000) ∧
  decodeBus 0x40000000 { isWrite := false, addr := 0x40000020, data := 0 } = .ok (.regRead .resultLen) ∧
  decodeBus 0x40000000 { isWrite := false, addr := 0x40000002, data := 0 } = .error .notARegisterAddress ∧
  decodeStream .header [0x09, 0, 0, 0, 0x10, 0, 0, 0] = .ok (.header 9 16, []) ∧
  decodeStream .stringWord [0x36, 0, 0x6C, 0] = .ok (.stringWord 0x0036 0x006C, []) ∧
  decodeStream .byteWord [0x41, 0x42, 0x43, 0] = .ok (.byteWord 0x41 0x42 0x43 0, []) ∧
  decodeStream .token [0xA0, 0xD4] = .ok (.token 0xD4A0, []) ∧
  decodeElement false = .lit ∧ decodeElement true = .str

/-! ## The whole machine -/

/-- 10_state.md: the machine after reset meets the invariant. -/
def Obligations.ResetStateMeetsInvariant : Prop := Inv State.reset

/-- 10_state.md (R24, R30, R37 to R49, R51), 20_memory.md: every step keeps the invariant, from every state that meets it. -/
def Obligations.StepKeepsInvariant : Prop := ∀ s t : State, Inv s → step s = .next t → Inv t

/-- R8, R60, R65: from a state that meets the invariant no step faults, and none is refused but for the two host duties of R64 and
R70. -/
def Obligations.InvariantExcludesFaults : Prop :=
  ∀ s : State, Inv s →
    (∀ f, step s ≠ .fault f) ∧
    (∀ r, step s = .refused r → r = .regionsUntouchedWhileBusy ∨ r = .regionsAreOrdinaryMemory)

/-- R65, R76: the block's own step never changes a byte outside the output region of its operation, also when it ends in an error. -/
def Obligations.BlockWritesOnlyItsOutputRegion : Prop :=
  ∀ s t : State, Inv s → exec .step s = .next t → ∀ b, s.op.inOutput b = false → t.mem.read b = s.mem.read b

/-- R261, R262: every operation ends.  With no event waiting, a BUSY block is IDLE, with DONE or ERR, after at most `stepsLeft s`
steps of its own, whatever the input (R149, R183). -/
def Obligations.EveryOperationTerminates : Prop :=
  ∀ s : State, Inv s → s.fsm ≠ .idle → s.inbox = [] → s.plat.devices = [] →
    ∃ k t, k ≤ stepsLeft s ∧ Core.run core k s = .next t ∧ t.fsm = .idle ∧ (t.regs.done = true ∨ t.regs.err = true)

/-- R211, R148, R170: the steps of R211 perform the bodies: run step by step with no event between, the block reaches the state that
COMPRESS_BODY or DECOMPRESS_BODY run as a whole ends in. -/
def Obligations.StepsPerformTheBodies : Prop :=
  ∀ s t : State, s.phase = .start → s.abortReq = false → s.inbox = [] →
    (s.fsm = .enc → exec .compressBody s = .next t → ∃ k, k ≤ s.op.len.toNat + 2 ∧ Core.run core k s = .next t) ∧
    (s.fsm = .dec → exec .decompressBody s = .next t → ∃ k, k ≤ 2 ^ 32 + 1 ∧ Core.run core k s = .next t)

/-- R187: the round trip.  When COMPRESS of the n input bytes with a legal d completes with RESULT_LEN = r, DECOMPRESS of the r bytes
it wrote, wherever they lie, into a region of capacity at least n, completes with RESULT_LEN = n and the input as output. -/
def Obligations.DecompressUndoesCompress : Prop :=
  ∀ s t u : State, CanCompress s → s.regs.done = false → exec .compressBody s = .next t → t.regs.done = true →
    u.mem.wf → u.op.bufferBad = false → u.plat.holes = [] → u.plat.devices = [] →
    u.op.len = t.regs.resultLen → s.op.len.toNat ≤ u.op.cap.toNat →
    (∀ i < t.regs.resultLen.toNat, u.mem.read (u.op.src.toNat + i) = t.mem.read (s.op.dst.toNat + i)) →
    ∃ v : State, exec .decompressBody u = .next v ∧ v.regs.done = true ∧ v.regs.err = u.regs.err ∧ v.regs.resultLen = s.op.len ∧
      ∀ i < s.op.len.toNat, v.mem.read (u.op.dst.toNat + i) = s.mem.read (s.op.src.toNat + i)

/-- R61, R233, R234 f: when a byte of the input region does not answer, an element step, and the end step of DECOMPRESS, is either
error entry with BusError or the step the rules perform; which of the two is a free value of the model (assumption 5). -/
def Obligations.EarlyBusErrorIsTheOnlyOtherOutcome : Prop :=
  ∀ s : State, s.abortReq = false → s.phase = .loop → inputHasHole s.plat s.op = true →
    let u : State := { s with fresh := s.fresh + 1 }
    s.fsm ≠ .idle ∧ exec .step s = exec (.errorEntry .busError) u ∨
    (s.fsm = .enc → s.enc.cur.toNat < s.op.len.toNat → exec .step s = exec .encodeStep u) ∧
    (s.fsm = .dec → 0 < s.dec.rem.toNat → exec .step s = exec .decodeStep u) ∧
    (s.fsm = .dec → s.dec.rem.toNat = 0 → exec .step s = exec (.complete s.op.n) u)

/-- R70, R64: the two runs the model does not admit: another agent's write into a region of the running operation, and an operation
on memory that is not ordinary. -/
def Obligations.HostDutiesAreRefusedByName : Prop :=
  ∀ s : State,
    (∀ a v rest, s.inbox = .agentWrite a v :: rest → s.fsm ≠ .idle → s.op.inInput a.toNat = true ∨ s.op.inOutput a.toNat = true →
      step s = .refused .regionsUntouchedWhileBusy) ∧
    (s.fsm ≠ .idle → s.abortReq = false → s.phase = .start → s.op.bufferBad = false → regionsOrdinary s.plat s.op = false →
      exec .step s = .refused .regionsAreOrdinaryMemory)

/-- R185: DECOMPRESS never reads DICT_LEN: run on a state with another value there, the block's step does the same and leaves that
value. -/
def Obligations.DecompressIgnoresDictLen : Prop :=
  ∀ (x : Word) (s t : State), s.fsm = .dec → exec .step s = .next t →
    exec .step { s with regs := { s.regs with dictLen := x } } = .next { t with regs := { t.regs with dictLen := x } }
end

