-- ==== Sys2Proof/Laws/State.lean ====
section
/-! SUPPORT. One lemma per field per update of State, so that no proof unfolds a record update. -/

namespace Sys2Proof.Machine

@[simp] theorem State.setRegs_regs (s : State) (v : HostRegs) : (s.setRegs v).regs = v := rfl
@[simp] theorem State.setRegs_fsm (s : State) (v : HostRegs) : (s.setRegs v).fsm = s.fsm := rfl
@[simp] theorem State.setRegs_abortReq (s : State) (v : HostRegs) : (s.setRegs v).abortReq = s.abortReq := rfl
@[simp] theorem State.setRegs_phase (s : State) (v : HostRegs) : (s.setRegs v).phase = s.phase := rfl
@[simp] theorem State.setRegs_op (s : State) (v : HostRegs) : (s.setRegs v).op = s.op := rfl
@[simp] theorem State.setRegs_enc (s : State) (v : HostRegs) : (s.setRegs v).enc = s.enc := rfl
@[simp] theorem State.setRegs_dec (s : State) (v : HostRegs) : (s.setRegs v).dec = s.dec := rfl
@[simp] theorem State.setRegs_mem (s : State) (v : HostRegs) : (s.setRegs v).mem = s.mem := rfl
@[simp] theorem State.setRegs_plat (s : State) (v : HostRegs) : (s.setRegs v).plat = s.plat := rfl
@[simp] theorem State.setRegs_rst (s : State) (v : HostRegs) : (s.setRegs v).rst = s.rst := rfl
@[simp] theorem State.setRegs_inbox (s : State) (v : HostRegs) : (s.setRegs v).inbox = s.inbox := rfl
@[simp] theorem State.setRegs_rdata (s : State) (v : HostRegs) : (s.setRegs v).rdata = s.rdata := rfl
@[simp] theorem State.setRegs_agentData (s : State) (v : HostRegs) : (s.setRegs v).agentData = s.agentData := rfl
@[simp] theorem State.setRegs_result (s : State) (v : HostRegs) : (s.setRegs v).result = s.result := rfl
@[simp] theorem State.setRegs_fresh (s : State) (v : HostRegs) : (s.setRegs v).fresh = s.fresh := rfl

@[simp] theorem State.setFsm_regs (s : State) (v : Fsm) : (s.setFsm v).regs = s.regs := rfl
@[simp] theorem State.setFsm_fsm (s : State) (v : Fsm) : (s.setFsm v).fsm = v := rfl
@[simp] theorem State.setFsm_abortReq (s : State) (v : Fsm) : (s.setFsm v).abortReq = s.abortReq := rfl
@[simp] theorem State.setFsm_phase (s : State) (v : Fsm) : (s.setFsm v).phase = s.phase := rfl
@[simp] theorem State.setFsm_op (s : State) (v : Fsm) : (s.setFsm v).op = s.op := rfl
@[simp] theorem State.setFsm_enc (s : State) (v : Fsm) : (s.setFsm v).enc = s.enc := rfl
@[simp] theorem State.setFsm_dec (s : State) (v : Fsm) : (s.setFsm v).dec = s.dec := rfl
@[simp] theorem State.setFsm_mem (s : State) (v : Fsm) : (s.setFsm v).mem = s.mem := rfl
@[simp] theorem State.setFsm_plat (s : State) (v : Fsm) : (s.setFsm v).plat = s.plat := rfl
@[simp] theorem State.setFsm_rst (s : State) (v : Fsm) : (s.setFsm v).rst = s.rst := rfl
@[simp] theorem State.setFsm_inbox (s : State) (v : Fsm) : (s.setFsm v).inbox = s.inbox := rfl
@[simp] theorem State.setFsm_rdata (s : State) (v : Fsm) : (s.setFsm v).rdata = s.rdata := rfl
@[simp] theorem State.setFsm_agentData (s : State) (v : Fsm) : (s.setFsm v).agentData = s.agentData := rfl
@[simp] theorem State.setFsm_result (s : State) (v : Fsm) : (s.setFsm v).result = s.result := rfl
@[simp] theorem State.setFsm_fresh (s : State) (v : Fsm) : (s.setFsm v).fresh = s.fresh := rfl

@[simp] theorem State.setAbortReq_regs (s : State) (v : Bool) : (s.setAbortReq v).regs = s.regs := rfl
@[simp] theorem State.setAbortReq_fsm (s : State) (v : Bool) : (s.setAbortReq v).fsm = s.fsm := rfl
@[simp] theorem State.setAbortReq_abortReq (s : State) (v : Bool) : (s.setAbortReq v).abortReq = v := rfl
@[simp] theorem State.setAbortReq_phase (s : State) (v : Bool) : (s.setAbortReq v).phase = s.phase := rfl
@[simp] theorem State.setAbortReq_op (s : State) (v : Bool) : (s.setAbortReq v).op = s.op := rfl
@[simp] theorem State.setAbortReq_enc (s : State) (v : Bool) : (s.setAbortReq v).enc = s.enc := rfl
@[simp] theorem State.setAbortReq_dec (s : State) (v : Bool) : (s.setAbortReq v).dec = s.dec := rfl
@[simp] theorem State.setAbortReq_mem (s : State) (v : Bool) : (s.setAbortReq v).mem = s.mem := rfl
@[simp] theorem State.setAbortReq_plat (s : State) (v : Bool) : (s.setAbortReq v).plat = s.plat := rfl
@[simp] theorem State.setAbortReq_rst (s : State) (v : Bool) : (s.setAbortReq v).rst = s.rst := rfl
@[simp] theorem State.setAbortReq_inbox (s : State) (v : Bool) : (s.setAbortReq v).inbox = s.inbox := rfl
@[simp] theorem State.setAbortReq_rdata (s : State) (v : Bool) : (s.setAbortReq v).rdata = s.rdata := rfl
@[simp] theorem State.setAbortReq_agentData (s : State) (v : Bool) : (s.setAbortReq v).agentData = s.agentData := rfl
@[simp] theorem State.setAbortReq_result (s : State) (v : Bool) : (s.setAbortReq v).result = s.result := rfl
@[simp] theorem State.setAbortReq_fresh (s : State) (v : Bool) : (s.setAbortReq v).fresh = s.fresh := rfl

@[simp] theorem State.setPhase_regs (s : State) (v : Phase) : (s.setPhase v).regs = s.regs := rfl
@[simp] theorem State.setPhase_fsm (s : State) (v : Phase) : (s.setPhase v).fsm = s.fsm := rfl
@[simp] theorem State.setPhase_abortReq (s : State) (v : Phase) : (s.setPhase v).abortReq = s.abortReq := rfl
@[simp] theorem State.setPhase_phase (s : State) (v : Phase) : (s.setPhase v).phase = v := rfl
@[simp] theorem State.setPhase_op (s : State) (v : Phase) : (s.setPhase v).op = s.op := rfl
@[simp] theorem State.setPhase_enc (s : State) (v : Phase) : (s.setPhase v).enc = s.enc := rfl
@[simp] theorem State.setPhase_dec (s : State) (v : Phase) : (s.setPhase v).dec = s.dec := rfl
@[simp] theorem State.setPhase_mem (s : State) (v : Phase) : (s.setPhase v).mem = s.mem := rfl
@[simp] theorem State.setPhase_plat (s : State) (v : Phase) : (s.setPhase v).plat = s.plat := rfl
@[simp] theorem State.setPhase_rst (s : State) (v : Phase) : (s.setPhase v).rst = s.rst := rfl
@[simp] theorem State.setPhase_inbox (s : State) (v : Phase) : (s.setPhase v).inbox = s.inbox := rfl
@[simp] theorem State.setPhase_rdata (s : State) (v : Phase) : (s.setPhase v).rdata = s.rdata := rfl
@[simp] theorem State.setPhase_agentData (s : State) (v : Phase) : (s.setPhase v).agentData = s.agentData := rfl
@[simp] theorem State.setPhase_result (s : State) (v : Phase) : (s.setPhase v).result = s.result := rfl
@[simp] theorem State.setPhase_fresh (s : State) (v : Phase) : (s.setPhase v).fresh = s.fresh := rfl

@[simp] theorem State.setOp_regs (s : State) (v : OpParams) : (s.setOp v).regs = s.regs := rfl
@[simp] theorem State.setOp_fsm (s : State) (v : OpParams) : (s.setOp v).fsm = s.fsm := rfl
@[simp] theorem State.setOp_abortReq (s : State) (v : OpParams) : (s.setOp v).abortReq = s.abortReq := rfl
@[simp] theorem State.setOp_phase (s : State) (v : OpParams) : (s.setOp v).phase = s.phase := rfl
@[simp] theorem State.setOp_op (s : State) (v : OpParams) : (s.setOp v).op = v := rfl
@[simp] theorem State.setOp_enc (s : State) (v : OpParams) : (s.setOp v).enc = s.enc := rfl
@[simp] theorem State.setOp_dec (s : State) (v : OpParams) : (s.setOp v).dec = s.dec := rfl
@[simp] theorem State.setOp_mem (s : State) (v : OpParams) : (s.setOp v).mem = s.mem := rfl
@[simp] theorem State.setOp_plat (s : State) (v : OpParams) : (s.setOp v).plat = s.plat := rfl
@[simp] theorem State.setOp_rst (s : State) (v : OpParams) : (s.setOp v).rst = s.rst := rfl
@[simp] theorem State.setOp_inbox (s : State) (v : OpParams) : (s.setOp v).inbox = s.inbox := rfl
@[simp] theorem State.setOp_rdata (s : State) (v : OpParams) : (s.setOp v).rdata = s.rdata := rfl
@[simp] theorem State.setOp_agentData (s : State) (v : OpParams) : (s.setOp v).agentData = s.agentData := rfl
@[simp] theorem State.setOp_result (s : State) (v : OpParams) : (s.setOp v).result = s.result := rfl
@[simp] theorem State.setOp_fresh (s : State) (v : OpParams) : (s.setOp v).fresh = s.fresh := rfl

@[simp] theorem State.setEnc_regs (s : State) (v : EncRegs) : (s.setEnc v).regs = s.regs := rfl
@[simp] theorem State.setEnc_fsm (s : State) (v : EncRegs) : (s.setEnc v).fsm = s.fsm := rfl
@[simp] theorem State.setEnc_abortReq (s : State) (v : EncRegs) : (s.setEnc v).abortReq = s.abortReq := rfl
@[simp] theorem State.setEnc_phase (s : State) (v : EncRegs) : (s.setEnc v).phase = s.phase := rfl
@[simp] theorem State.setEnc_op (s : State) (v : EncRegs) : (s.setEnc v).op = s.op := rfl
@[simp] theorem State.setEnc_enc (s : State) (v : EncRegs) : (s.setEnc v).enc = v := rfl
@[simp] theorem State.setEnc_dec (s : State) (v : EncRegs) : (s.setEnc v).dec = s.dec := rfl
@[simp] theorem State.setEnc_mem (s : State) (v : EncRegs) : (s.setEnc v).mem = s.mem := rfl
@[simp] theorem State.setEnc_plat (s : State) (v : EncRegs) : (s.setEnc v).plat = s.plat := rfl
@[simp] theorem State.setEnc_rst (s : State) (v : EncRegs) : (s.setEnc v).rst = s.rst := rfl
@[simp] theorem State.setEnc_inbox (s : State) (v : EncRegs) : (s.setEnc v).inbox = s.inbox := rfl
@[simp] theorem State.setEnc_rdata (s : State) (v : EncRegs) : (s.setEnc v).rdata = s.rdata := rfl
@[simp] theorem State.setEnc_agentData (s : State) (v : EncRegs) : (s.setEnc v).agentData = s.agentData := rfl
@[simp] theorem State.setEnc_result (s : State) (v : EncRegs) : (s.setEnc v).result = s.result := rfl
@[simp] theorem State.setEnc_fresh (s : State) (v : EncRegs) : (s.setEnc v).fresh = s.fresh := rfl

@[simp] theorem State.setDec_regs (s : State) (v : DecRegs) : (s.setDec v).regs = s.regs := rfl
@[simp] theorem State.setDec_fsm (s : State) (v : DecRegs) : (s.setDec v).fsm = s.fsm := rfl
@[simp] theorem State.setDec_abortReq (s : State) (v : DecRegs) : (s.setDec v).abortReq = s.abortReq := rfl
@[simp] theorem State.setDec_phase (s : State) (v : DecRegs) : (s.setDec v).phase = s.phase := rfl
@[simp] theorem State.setDec_op (s : State) (v : DecRegs) : (s.setDec v).op = s.op := rfl
@[simp] theorem State.setDec_enc (s : State) (v : DecRegs) : (s.setDec v).enc = s.enc := rfl
@[simp] theorem State.setDec_dec (s : State) (v : DecRegs) : (s.setDec v).dec = v := rfl
@[simp] theorem State.setDec_mem (s : State) (v : DecRegs) : (s.setDec v).mem = s.mem := rfl
@[simp] theorem State.setDec_plat (s : State) (v : DecRegs) : (s.setDec v).plat = s.plat := rfl
@[simp] theorem State.setDec_rst (s : State) (v : DecRegs) : (s.setDec v).rst = s.rst := rfl
@[simp] theorem State.setDec_inbox (s : State) (v : DecRegs) : (s.setDec v).inbox = s.inbox := rfl
@[simp] theorem State.setDec_rdata (s : State) (v : DecRegs) : (s.setDec v).rdata = s.rdata := rfl
@[simp] theorem State.setDec_agentData (s : State) (v : DecRegs) : (s.setDec v).agentData = s.agentData := rfl
@[simp] theorem State.setDec_result (s : State) (v : DecRegs) : (s.setDec v).result = s.result := rfl
@[simp] theorem State.setDec_fresh (s : State) (v : DecRegs) : (s.setDec v).fresh = s.fresh := rfl

@[simp] theorem State.setMem_regs (s : State) (v : Memory) : (s.setMem v).regs = s.regs := rfl
@[simp] theorem State.setMem_fsm (s : State) (v : Memory) : (s.setMem v).fsm = s.fsm := rfl
@[simp] theorem State.setMem_abortReq (s : State) (v : Memory) : (s.setMem v).abortReq = s.abortReq := rfl
@[simp] theorem State.setMem_phase (s : State) (v : Memory) : (s.setMem v).phase = s.phase := rfl
@[simp] theorem State.setMem_op (s : State) (v : Memory) : (s.setMem v).op = s.op := rfl
@[simp] theorem State.setMem_enc (s : State) (v : Memory) : (s.setMem v).enc = s.enc := rfl
@[simp] theorem State.setMem_dec (s : State) (v : Memory) : (s.setMem v).dec = s.dec := rfl
@[simp] theorem State.setMem_mem (s : State) (v : Memory) : (s.setMem v).mem = v := rfl
@[simp] theorem State.setMem_plat (s : State) (v : Memory) : (s.setMem v).plat = s.plat := rfl
@[simp] theorem State.setMem_rst (s : State) (v : Memory) : (s.setMem v).rst = s.rst := rfl
@[simp] theorem State.setMem_inbox (s : State) (v : Memory) : (s.setMem v).inbox = s.inbox := rfl
@[simp] theorem State.setMem_rdata (s : State) (v : Memory) : (s.setMem v).rdata = s.rdata := rfl
@[simp] theorem State.setMem_agentData (s : State) (v : Memory) : (s.setMem v).agentData = s.agentData := rfl
@[simp] theorem State.setMem_result (s : State) (v : Memory) : (s.setMem v).result = s.result := rfl
@[simp] theorem State.setMem_fresh (s : State) (v : Memory) : (s.setMem v).fresh = s.fresh := rfl

@[simp] theorem State.setRst_regs (s : State) (v : Bool) : (s.setRst v).regs = s.regs := rfl
@[simp] theorem State.setRst_fsm (s : State) (v : Bool) : (s.setRst v).fsm = s.fsm := rfl
@[simp] theorem State.setRst_abortReq (s : State) (v : Bool) : (s.setRst v).abortReq = s.abortReq := rfl
@[simp] theorem State.setRst_phase (s : State) (v : Bool) : (s.setRst v).phase = s.phase := rfl
@[simp] theorem State.setRst_op (s : State) (v : Bool) : (s.setRst v).op = s.op := rfl
@[simp] theorem State.setRst_enc (s : State) (v : Bool) : (s.setRst v).enc = s.enc := rfl
@[simp] theorem State.setRst_dec (s : State) (v : Bool) : (s.setRst v).dec = s.dec := rfl
@[simp] theorem State.setRst_mem (s : State) (v : Bool) : (s.setRst v).mem = s.mem := rfl
@[simp] theorem State.setRst_plat (s : State) (v : Bool) : (s.setRst v).plat = s.plat := rfl
@[simp] theorem State.setRst_rst (s : State) (v : Bool) : (s.setRst v).rst = v := rfl
@[simp] theorem State.setRst_inbox (s : State) (v : Bool) : (s.setRst v).inbox = s.inbox := rfl
@[simp] theorem State.setRst_rdata (s : State) (v : Bool) : (s.setRst v).rdata = s.rdata := rfl
@[simp] theorem State.setRst_agentData (s : State) (v : Bool) : (s.setRst v).agentData = s.agentData := rfl
@[simp] theorem State.setRst_result (s : State) (v : Bool) : (s.setRst v).result = s.result := rfl
@[simp] theorem State.setRst_fresh (s : State) (v : Bool) : (s.setRst v).fresh = s.fresh := rfl

@[simp] theorem State.setInbox_regs (s : State) (v : List Event) : (s.setInbox v).regs = s.regs := rfl
@[simp] theorem State.setInbox_fsm (s : State) (v : List Event) : (s.setInbox v).fsm = s.fsm := rfl
@[simp] theorem State.setInbox_abortReq (s : State) (v : List Event) : (s.setInbox v).abortReq = s.abortReq := rfl
@[simp] theorem State.setInbox_phase (s : State) (v : List Event) : (s.setInbox v).phase = s.phase := rfl
@[simp] theorem State.setInbox_op (s : State) (v : List Event) : (s.setInbox v).op = s.op := rfl
@[simp] theorem State.setInbox_enc (s : State) (v : List Event) : (s.setInbox v).enc = s.enc := rfl
@[simp] theorem State.setInbox_dec (s : State) (v : List Event) : (s.setInbox v).dec = s.dec := rfl
@[simp] theorem State.setInbox_mem (s : State) (v : List Event) : (s.setInbox v).mem = s.mem := rfl
@[simp] theorem State.setInbox_plat (s : State) (v : List Event) : (s.setInbox v).plat = s.plat := rfl
@[simp] theorem State.setInbox_rst (s : State) (v : List Event) : (s.setInbox v).rst = s.rst := rfl
@[simp] theorem State.setInbox_inbox (s : State) (v : List Event) : (s.setInbox v).inbox = v := rfl
@[simp] theorem State.setInbox_rdata (s : State) (v : List Event) : (s.setInbox v).rdata = s.rdata := rfl
@[simp] theorem State.setInbox_agentData (s : State) (v : List Event) : (s.setInbox v).agentData = s.agentData := rfl
@[simp] theorem State.setInbox_result (s : State) (v : List Event) : (s.setInbox v).result = s.result := rfl
@[simp] theorem State.setInbox_fresh (s : State) (v : List Event) : (s.setInbox v).fresh = s.fresh := rfl

@[simp] theorem State.setRdata_regs (s : State) (v : Word) : (s.setRdata v).regs = s.regs := rfl
@[simp] theorem State.setRdata_fsm (s : State) (v : Word) : (s.setRdata v).fsm = s.fsm := rfl
@[simp] theorem State.setRdata_abortReq (s : State) (v : Word) : (s.setRdata v).abortReq = s.abortReq := rfl
@[simp] theorem State.setRdata_phase (s : State) (v : Word) : (s.setRdata v).phase = s.phase := rfl
@[simp] theorem State.setRdata_op (s : State) (v : Word) : (s.setRdata v).op = s.op := rfl
@[simp] theorem State.setRdata_enc (s : State) (v : Word) : (s.setRdata v).enc = s.enc := rfl
@[simp] theorem State.setRdata_dec (s : State) (v : Word) : (s.setRdata v).dec = s.dec := rfl
@[simp] theorem State.setRdata_mem (s : State) (v : Word) : (s.setRdata v).mem = s.mem := rfl
@[simp] theorem State.setRdata_plat (s : State) (v : Word) : (s.setRdata v).plat = s.plat := rfl
@[simp] theorem State.setRdata_rst (s : State) (v : Word) : (s.setRdata v).rst = s.rst := rfl
@[simp] theorem State.setRdata_inbox (s : State) (v : Word) : (s.setRdata v).inbox = s.inbox := rfl
@[simp] theorem State.setRdata_rdata (s : State) (v : Word) : (s.setRdata v).rdata = v := rfl
@[simp] theorem State.setRdata_agentData (s : State) (v : Word) : (s.setRdata v).agentData = s.agentData := rfl
@[simp] theorem State.setRdata_result (s : State) (v : Word) : (s.setRdata v).result = s.result := rfl
@[simp] theorem State.setRdata_fresh (s : State) (v : Word) : (s.setRdata v).fresh = s.fresh := rfl

@[simp] theorem State.setAgentData_regs (s : State) (v : Byte) : (s.setAgentData v).regs = s.regs := rfl
@[simp] theorem State.setAgentData_fsm (s : State) (v : Byte) : (s.setAgentData v).fsm = s.fsm := rfl
@[simp] theorem State.setAgentData_abortReq (s : State) (v : Byte) : (s.setAgentData v).abortReq = s.abortReq := rfl
@[simp] theorem State.setAgentData_phase (s : State) (v : Byte) : (s.setAgentData v).phase = s.phase := rfl
@[simp] theorem State.setAgentData_op (s : State) (v : Byte) : (s.setAgentData v).op = s.op := rfl
@[simp] theorem State.setAgentData_enc (s : State) (v : Byte) : (s.setAgentData v).enc = s.enc := rfl
@[simp] theorem State.setAgentData_dec (s : State) (v : Byte) : (s.setAgentData v).dec = s.dec := rfl
@[simp] theorem State.setAgentData_mem (s : State) (v : Byte) : (s.setAgentData v).mem = s.mem := rfl
@[simp] theorem State.setAgentData_plat (s : State) (v : Byte) : (s.setAgentData v).plat = s.plat := rfl
@[simp] theorem State.setAgentData_rst (s : State) (v : Byte) : (s.setAgentData v).rst = s.rst := rfl
@[simp] theorem State.setAgentData_inbox (s : State) (v : Byte) : (s.setAgentData v).inbox = s.inbox := rfl
@[simp] theorem State.setAgentData_rdata (s : State) (v : Byte) : (s.setAgentData v).rdata = s.rdata := rfl
@[simp] theorem State.setAgentData_agentData (s : State) (v : Byte) : (s.setAgentData v).agentData = v := rfl
@[simp] theorem State.setAgentData_result (s : State) (v : Byte) : (s.setAgentData v).result = s.result := rfl
@[simp] theorem State.setAgentData_fresh (s : State) (v : Byte) : (s.setAgentData v).fresh = s.fresh := rfl

@[simp] theorem State.setResult_regs (s : State) (v : OpResult) : (s.setResult v).regs = s.regs := rfl
@[simp] theorem State.setResult_fsm (s : State) (v : OpResult) : (s.setResult v).fsm = s.fsm := rfl
@[simp] theorem State.setResult_abortReq (s : State) (v : OpResult) : (s.setResult v).abortReq = s.abortReq := rfl
@[simp] theorem State.setResult_phase (s : State) (v : OpResult) : (s.setResult v).phase = s.phase := rfl
@[simp] theorem State.setResult_op (s : State) (v : OpResult) : (s.setResult v).op = s.op := rfl
@[simp] theorem State.setResult_enc (s : State) (v : OpResult) : (s.setResult v).enc = s.enc := rfl
@[simp] theorem State.setResult_dec (s : State) (v : OpResult) : (s.setResult v).dec = s.dec := rfl
@[simp] theorem State.setResult_mem (s : State) (v : OpResult) : (s.setResult v).mem = s.mem := rfl
@[simp] theorem State.setResult_plat (s : State) (v : OpResult) : (s.setResult v).plat = s.plat := rfl
@[simp] theorem State.setResult_rst (s : State) (v : OpResult) : (s.setResult v).rst = s.rst := rfl
@[simp] theorem State.setResult_inbox (s : State) (v : OpResult) : (s.setResult v).inbox = s.inbox := rfl
@[simp] theorem State.setResult_rdata (s : State) (v : OpResult) : (s.setResult v).rdata = s.rdata := rfl
@[simp] theorem State.setResult_agentData (s : State) (v : OpResult) : (s.setResult v).agentData = s.agentData := rfl
@[simp] theorem State.setResult_result (s : State) (v : OpResult) : (s.setResult v).result = v := rfl
@[simp] theorem State.setResult_fresh (s : State) (v : OpResult) : (s.setResult v).fresh = s.fresh := rfl

@[simp] theorem State.setFresh_regs (s : State) (v : Nat) : (s.setFresh v).regs = s.regs := rfl
@[simp] theorem State.setFresh_fsm (s : State) (v : Nat) : (s.setFresh v).fsm = s.fsm := rfl
@[simp] theorem State.setFresh_abortReq (s : State) (v : Nat) : (s.setFresh v).abortReq = s.abortReq := rfl
@[simp] theorem State.setFresh_phase (s : State) (v : Nat) : (s.setFresh v).phase = s.phase := rfl
@[simp] theorem State.setFresh_op (s : State) (v : Nat) : (s.setFresh v).op = s.op := rfl
@[simp] theorem State.setFresh_enc (s : State) (v : Nat) : (s.setFresh v).enc = s.enc := rfl
@[simp] theorem State.setFresh_dec (s : State) (v : Nat) : (s.setFresh v).dec = s.dec := rfl
@[simp] theorem State.setFresh_mem (s : State) (v : Nat) : (s.setFresh v).mem = s.mem := rfl
@[simp] theorem State.setFresh_plat (s : State) (v : Nat) : (s.setFresh v).plat = s.plat := rfl
@[simp] theorem State.setFresh_rst (s : State) (v : Nat) : (s.setFresh v).rst = s.rst := rfl
@[simp] theorem State.setFresh_inbox (s : State) (v : Nat) : (s.setFresh v).inbox = s.inbox := rfl
@[simp] theorem State.setFresh_rdata (s : State) (v : Nat) : (s.setFresh v).rdata = s.rdata := rfl
@[simp] theorem State.setFresh_agentData (s : State) (v : Nat) : (s.setFresh v).agentData = s.agentData := rfl
@[simp] theorem State.setFresh_result (s : State) (v : Nat) : (s.setFresh v).result = s.result := rfl
@[simp] theorem State.setFresh_fresh (s : State) (v : Nat) : (s.setFresh v).fresh = v := rfl

end Sys2Proof.Machine
end

