-- ==== Sys2Proof/Laws/Memory.lean ====
section
/-! SUPPORT. Memory: what a read answers after a write or after a range becomes unspecified, and that every operation keeps the
canonical form. -/

namespace Sys2Proof.Machine

open Sys2Proof

/-! ## The list of cells -/

theorem Memory.listed_setCell_same (a : Nat) (v : Byte) (cs : List Host.Cell)
    (h : cs.Pairwise (fun c e => c.1 < e.1)) :
    Memory.listed a (Memory.setCell a v cs) = if v = 0 then none else some v := by
  induction cs with
  | nil => by_cases hv : v = 0 <;> simp only [setCell, listed, hv, if_true, if_false]
  | cons c cs ih =>
    obtain ⟨b, w⟩ := c
    have hcs := List.pairwise_cons.1 h
    have hnone : ∀ ds : List Host.Cell, (∀ e ∈ ds, a < e.1) → Memory.listed a ds = none := by
      intro ds
      induction ds with
      | nil => intro _; rfl
      | cons e ds ihd =>
        intro hd
        have h1 : e.1 ≠ a := (Nat.ne_of_lt (hd e (by simp))).symm
        simp only [listed, h1, if_false]
        exact ihd fun e' he' => hd e' (by simp [he'])
    unfold setCell
    split
    · rename_i hlt
      simp only [listed, Nat.ne_of_lt hlt, if_false]
      exact ih hcs.2
    · split
      · rename_i heq
        subst heq
        by_cases hv : v = 0
        · simp only [hv, if_true]
          exact hnone cs fun e he => hcs.1 e he
        · simp only [hv, listed, if_true, if_false]
      · rename_i hnl hne
        by_cases hv : v = 0
        · simp only [hv, if_true]
          refine hnone _ fun e he => ?_
          rcases List.mem_cons.1 he with rfl | he
          · simp only; omega
          · have := hcs.1 e he; simp only at this; omega
        · simp only [hv, listed, if_true, if_false]

theorem Memory.listed_setCell_other (a b : Nat) (v : Byte) (cs : List Host.Cell) (hab : b ≠ a) :
    Memory.listed b (Memory.setCell a v cs) = Memory.listed b cs := by
  induction cs with
  | nil => by_cases hv : v = 0 <;> simp only [setCell, listed, hv, hab.symm, if_true, if_false]
  | cons c cs ih =>
    obtain ⟨c, w⟩ := c
    unfold setCell
    split
    · simp only [listed, ih]
    · split
      · rename_i heq
        subst heq
        by_cases hv : v = 0 <;> simp only [hv, listed, hab.symm, if_true, if_false]
      · by_cases hv : v = 0 <;> simp only [hv, listed, hab.symm, if_true, if_false]

theorem Memory.listed_filter (p : Nat → Bool) (a : Nat) (cs : List Host.Cell) :
    Memory.listed a (cs.filter fun c => p c.1) = if p a then Memory.listed a cs else none := by
  induction cs with
  | nil => simp [listed]
  | cons c cs ih =>
    by_cases hc : p c.1
    · by_cases hca : c.1 = a
      · subst hca; simp [hc, listed]
      · simp [hc, listed, hca, ih]
    · by_cases hca : c.1 = a
      · subst hca; simp [hc, ih]
      · simp [hc, listed, hca, ih]

theorem Memory.mem_setCell (a : Nat) (v : Byte) (cs : List Host.Cell) (e : Host.Cell)
    (he : e ∈ Memory.setCell a v cs) : (e = (a, v) ∧ v ≠ 0) ∨ e ∈ cs := by
  induction cs with
  | nil =>
    by_cases hv : v = 0 <;> simp_all [setCell]
  | cons c cs ih =>
    obtain ⟨b, w⟩ := c
    unfold setCell at he
    split at he
    · rcases List.mem_cons.1 he with rfl | he
      · simp
      · rcases ih he with h | h
        · exact .inl h
        · exact .inr (by simp [h])
    · split at he
      · by_cases hv : v = 0 <;> simp_all [or_comm]; tauto
      · by_cases hv : v = 0
        · simp only [hv, if_true] at he; exact .inr he
        · simp only [hv, if_false] at he
          rcases List.mem_cons.1 he with rfl | he
          · exact .inl ⟨rfl, hv⟩
          · exact .inr he

theorem Memory.setCell_pairwise (a : Nat) (v : Byte) (cs : List Host.Cell)
    (h : cs.Pairwise (fun c e => c.1 < e.1)) : (Memory.setCell a v cs).Pairwise (fun c e => c.1 < e.1) := by
  induction cs with
  | nil => by_cases hv : v = 0 <;> simp only [setCell, hv, if_true, if_false, List.Pairwise.nil, List.pairwise_singleton]
  | cons c cs ih =>
    obtain ⟨b, w⟩ := c
    have hcs := List.pairwise_cons.1 h
    unfold setCell
    split
    · rename_i hlt
      refine List.pairwise_cons.2 ⟨fun e he => ?_, ih hcs.2⟩
      rcases mem_setCell a v cs e he with ⟨rfl, -⟩ | he
      · exact hlt
      · exact hcs.1 e he
    · split
      · rename_i heq
        subst heq
        by_cases hv : v = 0
        · simpa [hv] using hcs.2
        · simp only [hv, if_false]
          exact List.pairwise_cons.2 ⟨fun e he => hcs.1 e he, hcs.2⟩
      · rename_i hnl hne
        by_cases hv : v = 0
        · simpa [hv] using h
        · simp only [hv, if_false]
          refine List.pairwise_cons.2 ⟨fun e he => ?_, h⟩
          rcases List.mem_cons.1 he with rfl | he
          · simp only; omega
          · have := hcs.1 e he; simp only at this ⊢; omega

/-! ## The unspecified ranges -/

/-- The unspecified range an address lies in. -/
def Memory.rangeAt (us : List Unspec) (a : Nat) : Option Unspec :=
  us.find? fun u => decide (u.lo ≤ a) && decide (a < u.hi)

theorem Memory.background_eq (m : Memory) (a : Nat) :
    m.background a = match Memory.rangeAt m.unspec a with | some u => Config.freeByte u.gen a | none => 0 := rfl

/-- The event an address was last left unspecified by. -/
def Memory.genAt (us : List Unspec) (a : Nat) : Option Nat := (Memory.rangeAt us a).map (·.gen)

theorem Memory.background_genAt (m : Memory) (a : Nat) :
    m.background a = match Memory.genAt m.unspec a with | some g => Config.freeByte g a | none => 0 := by
  rw [background_eq, genAt]
  cases Memory.rangeAt m.unspec a <;> rfl

theorem Memory.genAt_cons (u : Unspec) (us : List Unspec) (a : Nat) :
    Memory.genAt (u :: us) a = if u.lo ≤ a ∧ a < u.hi then some u.gen else Memory.genAt us a := by
  by_cases h : u.lo ≤ a ∧ a < u.hi
  · simp [genAt, rangeAt, h]
  · have : (decide (u.lo ≤ a) && decide (a < u.hi)) = false := by simp; omega
    simp only [genAt, rangeAt, List.find?_cons, this, h, if_false]

theorem Memory.genAt_append (us vs : List Unspec) (a : Nat) :
    Memory.genAt (us ++ vs) a = (Memory.genAt us a).or (Memory.genAt vs a) := by
  induction us with
  | nil => simp [genAt, rangeAt]
  | cons u us ih =>
    rw [List.cons_append, genAt_cons, genAt_cons, ih]
    split <;> simp

theorem Memory.genAt_minus (lo hi : Nat) (u : Unspec) (a : Nat) (h : lo ≤ hi) :
    Memory.genAt (u.minus lo hi) a = if (u.lo ≤ a ∧ a < u.hi) ∧ ¬(lo ≤ a ∧ a < hi) then some u.gen else none := by
  have hnil : Memory.genAt [] a = none := rfl
  unfold Unspec.minus
  by_cases h1 : u.lo < min u.hi lo <;> by_cases h2 : max u.lo hi < u.hi <;>
    simp only [h1, h2, if_true, if_false, List.nil_append, List.append_nil, genAt_append, genAt_cons, hnil] <;>
    split_ifs <;> first | rfl | (exfalso; omega)

theorem Memory.genAt_cut (lo hi : Nat) (us : List Unspec) (a : Nat) (h : lo ≤ hi) :
    Memory.genAt (Memory.cut lo hi us) a = if lo ≤ a ∧ a < hi then none else Memory.genAt us a := by
  induction us with
  | nil => simp [cut, genAt, rangeAt]
  | cons u us ih =>
    have : cut lo hi (u :: us) = u.minus lo hi ++ cut lo hi us := rfl
    rw [this, genAt_append, genAt_minus _ _ _ _ h, ih, genAt_cons]
    by_cases h1 : lo ≤ a ∧ a < hi <;> by_cases h2 : u.lo ≤ a ∧ a < u.hi <;> simp [h1, h2]

theorem Memory.mem_minus {lo hi : Nat} {u v : Unspec} (h : v ∈ u.minus lo hi) :
    u.lo ≤ v.lo ∧ v.hi ≤ u.hi ∧ v.lo < v.hi ∧ v.gen = u.gen ∧ (v.hi ≤ lo ∨ hi ≤ v.lo) := by
  unfold Unspec.minus at h
  rcases List.mem_append.1 h with h | h
  · split at h
    · simp only [List.mem_singleton] at h; subst h; simp only [true_and]; omega
    · simp at h
  · split at h
    · simp only [List.mem_singleton] at h; subst h; simp only [true_and]; omega
    · simp at h

theorem Memory.mem_cut {lo hi : Nat} {us : List Unspec} {v : Unspec} (h : v ∈ Memory.cut lo hi us) :
    ∃ u ∈ us, u.lo ≤ v.lo ∧ v.hi ≤ u.hi ∧ v.lo < v.hi ∧ v.gen = u.gen ∧ (v.hi ≤ lo ∨ hi ≤ v.lo) := by
  obtain ⟨u, hu, hv⟩ := List.mem_flatMap.1 h
  exact ⟨u, hu, mem_minus hv⟩

/-- Two unspecified ranges in their order: apart, and from different events if they touch. -/
abbrev Unspec.before (u v : Unspec) : Prop := u.hi ≤ v.lo ∧ (u.hi = v.lo → u.gen ≠ v.gen)

theorem Memory.minus_pairwise (lo hi : Nat) (u : Unspec) (h : lo < hi) : (u.minus lo hi).Pairwise Unspec.before := by
  unfold Unspec.minus
  have key : min u.hi lo < max u.lo hi ∨ ¬u.lo < min u.hi lo ∨ ¬max u.lo hi < u.hi := by omega
  split <;> split <;> simp [Unspec.before]; omega

theorem Memory.cut_pairwise {lo hi : Nat} {us : List Unspec} (h : lo < hi) (hu : us.Pairwise Unspec.before)
    (hne : ∀ u ∈ us, u.lo < u.hi) : (Memory.cut lo hi us).Pairwise Unspec.before := by
  induction us with
  | nil => simp [cut]
  | cons u us ih =>
    have hp := List.pairwise_cons.1 hu
    have : cut lo hi (u :: us) = u.minus lo hi ++ cut lo hi us := rfl
    rw [this]
    refine List.pairwise_append.2 ⟨minus_pairwise lo hi u h, ih hp.2 fun v hv => hne v (by simp [hv]), fun x hx y hy => ?_⟩
    have h1 := mem_minus hx
    obtain ⟨v, hv, h2⟩ := mem_cut hy
    have h3 := hp.1 v hv
    refine ⟨by omega, fun he => ?_⟩
    have := h3.2 (by omega)
    rw [h1.2.2.2.1, h2.2.2.2.1]; exact this

theorem Memory.mem_insertUnspec {u v : Unspec} {us : List Unspec} (h : v ∈ Memory.insertUnspec u us) : v = u ∨ v ∈ us := by
  induction us with
  | nil => simpa [insertUnspec] using h
  | cons w us ih =>
    unfold insertUnspec at h
    split at h
    · rcases List.mem_cons.1 h with rfl | h
      · simp
      · rcases ih h with h | h <;> simp [h]
    · simpa using h

theorem Memory.insertUnspec_pairwise {u : Unspec} {us : List Unspec} (hu : us.Pairwise Unspec.before)
    (hlt : u.lo < u.hi) (hne : ∀ v ∈ us, v.lo < v.hi)
    (hap : ∀ v ∈ us, v.gen ≠ u.gen ∧ (v.hi ≤ u.lo ∨ u.hi ≤ v.lo)) :
    (Memory.insertUnspec u us).Pairwise Unspec.before := by
  induction us with
  | nil => simp [insertUnspec]
  | cons w us ih =>
    have hp := List.pairwise_cons.1 hu
    have hw := hap w (by simp)
    have hwl := hne w (by simp)
    unfold insertUnspec
    split
    · refine List.pairwise_cons.2 ⟨fun v hv => ?_, ih hp.2 (fun v hv => hne v (by simp [hv])) fun v hv => hap v (by simp [hv])⟩
      rcases mem_insertUnspec hv with rfl | hv
      · exact ⟨by omega, fun _ => hw.1⟩
      · exact hp.1 v hv
    · refine List.pairwise_cons.2 ⟨fun v hv => ?_, hu⟩
      rcases List.mem_cons.1 hv with rfl | hv
      · exact ⟨by omega, fun _ => hw.1.symm⟩
      · have := hp.1 v hv
        have hv' := hap v (by simp [hv])
        exact ⟨by omega, fun _ => hv'.1.symm⟩

theorem Memory.genAt_insertUnspec (u : Unspec) (us : List Unspec) (a : Nat)
    (h : u.lo ≤ a ∧ a < u.hi → Memory.genAt us a = none) :
    Memory.genAt (Memory.insertUnspec u us) a = if u.lo ≤ a ∧ a < u.hi then some u.gen else Memory.genAt us a := by
  induction us with
  | nil => simp [insertUnspec, genAt_cons]
  | cons w us ih =>
    unfold insertUnspec
    split
    · rw [genAt_cons] at h ⊢
      have ih' := ih fun hu => by
        have := h hu
        split at this
        · simp at this
        · exact this
      rw [ih', genAt_cons]
      by_cases hu : u.lo ≤ a ∧ a < u.hi
      · have := h hu
        split at this
        · simp at this
        · rename_i hw; simp [hu, hw]
      · simp [hu]
    · rw [genAt_cons]

/-! ## Reading after writing -/

theorem Memory.read_write_same {m : Memory} (h : m.wf) (a : Nat) (v : Byte) : (m.write a v).read a = v := by
  have hb : (m.write a v).background a = 0 := by
    rw [background_genAt]
    simp [write, genAt_cut]
  unfold read
  rw [hb]
  simp only [write, listed_setCell_same a v m.cells h.1]
  by_cases hv : v = 0
  · simp only [hv, if_true, Option.getD_none]
  · simp only [hv, if_false, Option.getD_some]

theorem Memory.read_write_other (m : Memory) (a b : Nat) (v : Byte) (hab : b ≠ a) : (m.write a v).read b = m.read b := by
  have hb : (m.write a v).background b = m.background b := by
    rw [background_genAt, background_genAt]
    have : ¬(a ≤ b ∧ b < a + 1) := by omega
    simp only [write, genAt_cut _ _ _ _ (Nat.le_succ a), this, if_false]
  unfold read
  rw [hb]
  simp only [write, listed_setCell_other a b v m.cells hab]

/-- A read after a write: the byte written, or what was there. -/
theorem Memory.read_write {m : Memory} (h : m.wf) (a b : Nat) (v : Byte) :
    (m.write a v).read b = if b = a then v else m.read b := by
  split
  · rename_i hb; subst hb; exact read_write_same h b v
  · rename_i hb; exact read_write_other m a b v hb

/-- A read outside a range that has become unspecified. -/
theorem Memory.read_spoil_outside (m : Memory) (lo hi gen a : Nat) (h : a < lo ∨ hi ≤ a) :
    (m.spoil lo hi gen).read a = m.read a := by
  unfold spoil
  split
  · rename_i hlt
    have hna : ¬(lo ≤ a ∧ a < hi) := by omega
    have hb : Memory.background ⟨m.cells.filter (fun c => decide (c.1 < lo) || decide (hi ≤ c.1)),
        Memory.insertUnspec { lo := lo, hi := hi, gen := gen } (Memory.cut lo hi m.unspec)⟩ a = m.background a := by
      rw [background_genAt, background_genAt]
      rw [genAt_insertUnspec _ _ _ (fun hc => absurd hc hna)]
      simp only [hna, if_false, genAt_cut _ _ _ _ (Nat.le_of_lt hlt)]
    unfold read
    rw [hb]
    have hp : (decide (a < lo) || decide (hi ≤ a)) = true := by simpa using h
    simp only [listed_filter (fun a => decide (a < lo) || decide (hi ≤ a)), hp, if_true]
  · rfl

/-- A read inside a range that has become unspecified: the free byte. -/
theorem Memory.read_spoil_inside (m : Memory) (lo hi gen a : Nat) (h : lo ≤ a) (h' : a < hi) :
    (m.spoil lo hi gen).read a = Config.freeByte gen a := by
  unfold spoil
  rw [if_pos (by omega)]
  have hin : lo ≤ a ∧ a < hi := ⟨h, h'⟩
  have hb : Memory.background ⟨m.cells.filter (fun c => decide (c.1 < lo) || decide (hi ≤ c.1)),
        Memory.insertUnspec { lo := lo, hi := hi, gen := gen } (Memory.cut lo hi m.unspec)⟩ a
      = Config.freeByte gen a := by
    rw [background_genAt, genAt_insertUnspec]
    · simp [hin]
    · intro _; simp [genAt_cut _ _ _ _ (by omega : lo ≤ hi), hin]
  unfold read
  rw [hb]
  have hp : (decide (a < lo) || decide (hi ≤ a)) = false := by simp; omega
  rw [show (Memory.listed a (m.cells.filter fun c => decide (c.1 < lo) || decide (hi ≤ c.1))) = none by
    simp only [listed_filter (fun a => decide (a < lo) || decide (hi ≤ a)), hp]; simp]
  rfl

/-! ## The canonical form -/

theorem Memory.wf_empty : Memory.empty.wf := by decide

/-- A write keeps the canonical form. -/
theorem Memory.wf_write {m : Memory} (h : m.wf) {a : Nat} (ha : a < Config.addressSpace) (v : Byte) : (m.write a v).wf := by
  obtain ⟨h1, h2, h3, h4⟩ := h
  refine ⟨setCell_pairwise a v _ h1, fun c hc => ?_, cut_pairwise (Nat.lt_succ_self a) h3 fun u hu => (h4 u hu).1, fun u hu => ?_⟩
  · rcases mem_setCell a v _ c hc with ⟨rfl, hv⟩ | hc
    · refine ⟨ha, hv, fun u hu => ?_⟩
      obtain ⟨w, -, hw⟩ := mem_cut hu
      simp only; omega
    · obtain ⟨hc1, hc2, hc3⟩ := h2 c hc
      refine ⟨hc1, hc2, fun u hu => ?_⟩
      obtain ⟨w, hw, hw'⟩ := mem_cut hu
      have := hc3 w hw
      omega
  · obtain ⟨w, hw, hw'⟩ := mem_cut hu
    have := h4 w hw
    omega

/-- Leaving a range unspecified keeps the canonical form, if the event is new. -/
theorem Memory.wf_spoil {m : Memory} (h : m.wf) {lo hi gen : Nat} (hhi : hi ≤ Config.addressSpace)
    (hg : ∀ u ∈ m.unspec, u.gen < gen) : (m.spoil lo hi gen).wf := by
  unfold spoil
  split
  · rename_i hlt
    obtain ⟨h1, h2, h3, h4⟩ := h
    have hcutne : ∀ v ∈ Memory.cut lo hi m.unspec, v.lo < v.hi := fun v hv => by
      obtain ⟨w, -, hw⟩ := mem_cut hv; omega
    refine ⟨h1.filter _, fun c hc => ?_, ?_, fun u hu => ?_⟩
    · obtain ⟨hc, hout⟩ := List.mem_filter.1 hc
      obtain ⟨hc1, hc2, hc3⟩ := h2 c hc
      refine ⟨hc1, hc2, fun u hu => ?_⟩
      rcases mem_insertUnspec hu with rfl | hu
      · simpa using hout
      · obtain ⟨w, hw, hw'⟩ := mem_cut hu
        have := hc3 w hw
        omega
    · refine insertUnspec_pairwise (cut_pairwise hlt h3 fun u hu => (h4 u hu).1) hlt hcutne fun v hv => ?_
      obtain ⟨w, hw, hw'⟩ := mem_cut hv
      have := hg w hw
      simp only
      exact ⟨by omega, by omega⟩
    · rcases mem_insertUnspec hu with rfl | hu
      · exact ⟨hlt, hhi⟩
      · obtain ⟨w, hw, hw'⟩ := mem_cut hu
        have := h4 w hw
        omega
  · exact h

/-- The events of the unspecified ranges after a write are among those before it. -/
theorem Memory.gen_write {m : Memory} {a : Nat} {v : Byte} {g : Nat} (h : ∀ u ∈ m.unspec, u.gen < g) :
    ∀ u ∈ (m.write a v).unspec, u.gen < g := fun u hu => by
  obtain ⟨w, hw, hw'⟩ := mem_cut hu
  have := h w hw; omega

/-- The events of the unspecified ranges after one more. -/
theorem Memory.gen_spoil {m : Memory} {lo hi gen : Nat} (h : ∀ u ∈ m.unspec, u.gen < gen) :
    ∀ u ∈ (m.spoil lo hi gen).unspec, u.gen < gen + 1 := fun u hu => by
  unfold spoil at hu
  split at hu
  · rcases mem_insertUnspec hu with rfl | hu
    · simp
    · obtain ⟨w, hw, hw'⟩ := mem_cut hu
      have := h w hw; omega
  · have := h u hu; omega

end Sys2Proof.Machine
end

