-- ==== Sys2Proof/Laws/Ops.lean ====
section
/-! SUPPORT. What each shared operation of Machine/Ops.lean can do, said once. -/

namespace Sys2Proof.Machine

open Sys2Proof Sys2Proof.Safety

/-! ## Sequencing: what a rule's parts end in -/

@[simp] theorem Access.bind_ok {α β : Type} (a : α) (f : α → Access β) : (Access.ok a).bind f = f a := rfl
@[simp] theorem Access.bind_busError {α β : Type} (f : α → Access β) : (Access.busError : Access α).bind f = .busError := rfl
@[simp] theorem Access.bind_outside {α β : Type} (f : α → Access β) : (Access.outside : Access α).bind f = .outside := rfl

theorem Access.bind_eq_ok {α β : Type} {x : Access α} {f : α → Access β} {b : β} :
    x.bind f = .ok b ↔ ∃ a, x = .ok a ∧ f a = .ok b := by cases x <;> simp [Access.bind]

theorem Access.bind_eq_outside {α β : Type} {x : Access α} {f : α → Access β} :
    x.bind f = .outside ↔ x = .outside ∨ ∃ a, x = .ok a ∧ f a = .outside := by cases x <;> simp [Access.bind]

@[simp] theorem Access.toRes_ok {α : Type} (a : α) (s : State) : (Access.ok a).toRes s = .ok a s := rfl
@[simp] theorem Access.toRes_busError {α : Type} (s : State) : (Access.busError : Access α).toRes s = .raise .busError s := rfl
@[simp] theorem Access.toRes_outside {α : Type} (s : State) :
    (Access.outside : Access α).toRes s = .fault .outsideAddressSpace := rfl

@[simp] theorem Res.bind_ok {α β : Type} (a : α) (s : State) (f : α → State → Res β) : (Res.ok a s).bind f = f a s := rfl
@[simp] theorem Res.bind_raise {α β : Type} (e : ErrorCode) (s : State) (f : α → State → Res β) :
    (Res.raise e s : Res α).bind f = .raise e s := rfl
@[simp] theorem Res.bind_unwritten {α β : Type} (s : State) (f : α → State → Res β) :
    (Res.unwritten s : Res α).bind f = .unwritten s := rfl
@[simp] theorem Res.bind_fault {α β : Type} (g : Fault) (f : α → State → Res β) :
    (Res.fault g : Res α).bind f = .fault g := rfl
@[simp] theorem Res.bind_refuse {α β : Type} (r : Refusal) (f : α → State → Res β) :
    (Res.refuse r : Res α).bind f = .refuse r := rfl

theorem Res.bind_eq_ok {α β : Type} {x : Res α} {f : α → State → Res β} {b : β} {t : State} :
    x.bind f = .ok b t ↔ ∃ a u, x = .ok a u ∧ f a u = .ok b t := by
  cases x <;> simp [Res.bind]

theorem Res.bind_eq_raise {α β : Type} {x : Res α} {f : α → State → Res β} {e : ErrorCode} {t : State} :
    x.bind f = .raise e t ↔ x = .raise e t ∨ ∃ a u, x = .ok a u ∧ f a u = .raise e t := by
  cases x <;> simp [Res.bind]

theorem Res.bind_eq_unwritten {α β : Type} {x : Res α} {f : α → State → Res β} {t : State} :
    x.bind f = .unwritten t ↔ x = .unwritten t ∨ ∃ a u, x = .ok a u ∧ f a u = .unwritten t := by
  cases x <;> simp [Res.bind]

theorem Res.bind_eq_fault {α β : Type} {x : Res α} {f : α → State → Res β} {g : Fault} :
    x.bind f = .fault g ↔ x = .fault g ∨ ∃ a u, x = .ok a u ∧ f a u = .fault g := by
  cases x <;> simp [Res.bind]

theorem Res.bind_eq_refuse {α β : Type} {x : Res α} {f : α → State → Res β} {r : Refusal} :
    x.bind f = .refuse r ↔ x = .refuse r ∨ ∃ a u, x = .ok a u ∧ f a u = .refuse r := by
  cases x <;> simp [Res.bind]

theorem Res.bind_assoc {α β γ : Type} (x : Res α) (f : α → State → Res β) (g : β → State → Res γ) :
    (x.bind f).bind g = x.bind fun a s => (f a s).bind g := by cases x <;> rfl

@[simp] theorem Res.beforeWrites_ok {α : Type} (a : α) (s : State) : (Res.ok a s).beforeWrites = .ok a s := rfl
@[simp] theorem Res.beforeWrites_busError {α : Type} (s : State) :
    (Res.raise .busError s : Res α).beforeWrites = .unwritten s := rfl
@[simp] theorem Res.beforeWrites_refuse {α : Type} (r : Refusal) : (Res.refuse r : Res α).beforeWrites = .refuse r := rfl
@[simp] theorem Res.beforeWrites_fault {α : Type} (g : Fault) : (Res.fault g : Res α).beforeWrites = .fault g := rfl
@[simp] theorem Res.beforeWrites_unwritten {α : Type} (s : State) : (Res.unwritten s : Res α).beforeWrites = .unwritten s := rfl

/-- Only BusError is treated apart. -/
theorem Res.beforeWrites_raise {α : Type} {e : ErrorCode} (he : e ≠ .busError) (s : State) :
    (Res.raise e s : Res α).beforeWrites = .raise e s := by cases e <;> first | rfl | exact absurd rfl he

theorem Res.beforeWrites_eq_ok {α : Type} {x : Res α} {a : α} {t : State} : x.beforeWrites = .ok a t ↔ x = .ok a t := by
  cases x with
  | raise e s => cases e <;> simp [Res.beforeWrites]
  | _ => simp

theorem assertRange_pos {α : Type} {c : Prop} [Decidable c] (h : c) (k : Res α) : assertRange c k = k := if_pos h

theorem assertRange_eq_ok {α : Type} {c : Prop} [Decidable c] {k : Res α} {a : α} {t : State} :
    assertRange c k = .ok a t ↔ c ∧ k = .ok a t := by unfold assertRange; split <;> simp_all

/-- Everything a rule can end in: a value with `Q`, an error with `E` (BusError, where nothing has been written yet); no fault; a refusal only by the start step's check of its
regions (R64). -/
def Res.All {α : Type} (x : Res α) (Q : α → State → Prop) (E : ErrorCode → State → Prop) : Prop :=
  match x with
  | .ok a t => Q a t
  | .raise e t => E e t
  | .unwritten t => E .busError t
  | .fault _ => False
  | .refuse r => r = .regionsAreOrdinaryMemory

@[simp] theorem Res.all_ok {α : Type} (a : α) (t : State) (Q : α → State → Prop) (E : ErrorCode → State → Prop) :
    (Res.ok a t).All Q E ↔ Q a t := Iff.rfl
@[simp] theorem Res.all_raise {α : Type} (e : ErrorCode) (t : State) (Q : α → State → Prop) (E : ErrorCode → State → Prop) :
    (Res.raise e t : Res α).All Q E ↔ E e t := Iff.rfl

/-- The parts of a rule, one after the other. -/
theorem Res.All.bind {α β : Type} {x : Res α} {f : α → State → Res β} {P : α → State → Prop} {Q : β → State → Prop}
    {E : ErrorCode → State → Prop} (hx : x.All P E) (hf : ∀ a t, P a t → (f a t).All Q E) : (x.bind f).All Q E := by
  cases x with
  | ok a t => exact hf a t hx
  | raise e t => exact hx
  | unwritten t => exact hx
  | fault g => exact hx.elim
  | refuse r => exact hx

theorem Res.All.mono {α : Type} {x : Res α} {P Q : α → State → Prop} {D E : ErrorCode → State → Prop} (hx : x.All P D)
    (hq : ∀ a t, P a t → Q a t) (he : ∀ e t, D e t → E e t) : x.All Q E := by
  cases x with
  | ok a t => exact hq a t hx
  | raise e t => exact he e t hx
  | unwritten t => exact he _ t hx
  | fault g => exact hx
  | refuse r => exact hx

theorem Res.All.beforeWrites {α : Type} {x : Res α} {Q : α → State → Prop} {E : ErrorCode → State → Prop} (hx : x.All Q E) :
    x.beforeWrites.All Q E := by
  cases x with
  | raise e t => cases e <;> exact hx
  | _ => exact hx

theorem Res.all_assertRange {α : Type} {c : Prop} [Decidable c] {k : Res α} {Q : α → State → Prop} {E : ErrorCode → State → Prop}
    (hc : c) (hk : k.All Q E) : (assertRange c k).All Q E := by rwa [assertRange_pos hc]

/-! ## Running a rule by itself -/

@[simp] theorem settle_ok {α : Type} (a : α) (t : State) : settle (Res.ok a t) = .next t := rfl
@[simp] theorem settle_raise {α : Type} (e : ErrorCode) (t : State) :
    settle (Res.raise e t : Res α) = .next (enterError e t) := rfl
@[simp] theorem settle_unwritten {α : Type} (t : State) : settle (Res.unwritten t : Res α) = .next (recordError .busError t) := rfl

theorem settle_eq_next {α : Type} {x : Res α} {t : State} :
    settle x = .next t ↔ (∃ a, x = .ok a t) ∨ (∃ e u, x = .raise e u ∧ t = enterError e u) ∨
      ∃ u, x = .unwritten u ∧ t = recordError .busError u := by
  cases x <;> simp [settle, eq_comm]

/-- A rule that ends as `All` says ends in a next state unless it is refused. -/
theorem settle_all {α : Type} {x : Res α} {Q : State → Prop} {E : ErrorCode → State → Prop} (hx : x.All (fun _ t => Q t) E)
    (he : ∀ e t, E e t → Q (enterError e t)) (hu : ∀ t, E .busError t → Q (recordError .busError t)) :
    (∃ t, settle x = .next t ∧ Q t) ∨ settle x = .refused .regionsAreOrdinaryMemory := by
  cases x with
  | ok a t => exact .inl ⟨t, rfl, hx⟩
  | raise e t => exact .inl ⟨_, rfl, he e t hx⟩
  | unwritten t => exact .inl ⟨_, rfl, hu t hx⟩
  | fault g => exact hx.elim
  | refuse r => exact .inr (by rw [show r = _ from hx]; rfl)

theorem settleReturn_ok {α : Type} (out : α → OpResult) (a : α) (t : State) :
    settleReturn out (.ok a t) = .next (t.setResult (out a)) := rfl
theorem settleReturn_raise {α : Type} (out : α → OpResult) (e : ErrorCode) (t : State) :
    settleReturn out (.raise e t : Res α) = .next (enterError e t) := rfl

/-! ## Reading memory (R61, R62) -/

theorem memRead1_ok {s : State} {a : Nat} (ha : a < Config.addressSpace) (hm : memOk s.plat a = true) :
    memRead1 s a = .ok (s.mem.read a) := by simp [memRead1, ha, hm]

/-- A read inside the address space answers the byte or does not complete. -/
theorem memRead1_cases {s : State} {a : Nat} (ha : a < Config.addressSpace) :
    memOk s.plat a = true ∧ memRead1 s a = .ok (s.mem.read a) ∨ memOk s.plat a = false ∧ memRead1 s a = .busError := by
  cases hm : memOk s.plat a <;> simp [memRead1, ha, hm]

theorem memRead1_eq_ok {s : State} {a : Nat} {v : Byte} (h : memRead1 s a = .ok v) :
    a < Config.addressSpace ∧ memOk s.plat a = true ∧ v = s.mem.read a := by
  unfold memRead1 at h
  split at h
  · split at h
    · rename_i ha hm; cases h; exact ⟨ha, hm, rfl⟩
    · cases h
  · cases h

/-- A word read where memory answers returns the word at the address (R62). -/
theorem memRead4_ok {s : State} {a : Nat} (h : Answers s a 4) : memRead4 s a = .ok (wordAt s a) := by
  have h0 := h 0 (by decide)
  have h1 := h 1 (by decide)
  have h2 := h 2 (by decide)
  have h3 := h 3 (by decide)
  simp [memRead4, memRead1_ok (by simpa using h0.1) (by simpa using h0.2), memRead1_ok h1.1 h1.2, memRead1_ok h2.1 h2.2,
    memRead1_ok h3.1 h3.2, wordAt]

/-- A word read that completes has read the word at the address, at which memory answers. -/
theorem memRead4_eq_ok {s : State} {a : Nat} {w : Word} (h : memRead4 s a = .ok w) : Answers s a 4 ∧ w = wordAt s a := by
  simp only [memRead4, Access.bind_eq_ok] at h
  obtain ⟨b0, h0, b1, h1, b2, h2, b3, h3, hw⟩ := h
  obtain ⟨ha0, hm0, rfl⟩ := memRead1_eq_ok h0
  obtain ⟨ha1, hm1, rfl⟩ := memRead1_eq_ok h1
  obtain ⟨ha2, hm2, rfl⟩ := memRead1_eq_ok h2
  obtain ⟨ha3, hm3, rfl⟩ := memRead1_eq_ok h3
  refine ⟨fun i hi => ?_, by cases hw; rfl⟩
  have : i = 0 ∨ i = 1 ∨ i = 2 ∨ i = 3 := by omega
  rcases this with rfl | rfl | rfl | rfl
  exacts [⟨ha0, hm0⟩, ⟨ha1, hm1⟩, ⟨ha2, hm2⟩, ⟨ha3, hm3⟩]

/-- A word read inside the address space answers the word or does not complete. -/
theorem memRead4_cases {s : State} {a : Nat} (ha : a + 4 ≤ Config.addressSpace) :
    memRead4 s a = .ok (wordAt s a) ∨ memRead4 s a = .busError := by
  unfold memRead4
  rcases memRead1_cases (s := s) (a := a) (by omega) with ⟨-, h0⟩ | ⟨-, h0⟩ <;> simp only [h0, Access.bind_ok, Access.bind_busError]
  · rcases memRead1_cases (s := s) (a := a + 1) (by omega) with ⟨-, h1⟩ | ⟨-, h1⟩ <;>
      simp only [h1, Access.bind_ok, Access.bind_busError]
    · rcases memRead1_cases (s := s) (a := a + 2) (by omega) with ⟨-, h2⟩ | ⟨-, h2⟩ <;>
        simp only [h2, Access.bind_ok, Access.bind_busError]
      · rcases memRead1_cases (s := s) (a := a + 3) (by omega) with ⟨-, h3⟩ | ⟨-, h3⟩ <;>
          simp only [h3, Access.bind_ok, Access.bind_busError]
        · exact .inl rfl
        · exact .inr trivial
      · exact .inr trivial
    · exact .inr trivial
  · exact .inr trivial

/-! ## Writing memory (R61, R62) -/

/-- Memory with the word `v` at `a`. -/
def Memory.writeWord (m : Memory) (a : Nat) (v : Word) : Memory :=
  (((m.write a (byteOf v 0)).write (a + 1) (byteOf v 1)).write (a + 2) (byteOf v 2)).write (a + 3) (byteOf v 3)

theorem Memory.wf_writeWord {m : Memory} (h : m.wf) {a : Nat} (ha : a + 4 ≤ Config.addressSpace) (v : Word) :
    (m.writeWord a v).wf :=
  wf_write (wf_write (wf_write (wf_write h (by omega) _) (by omega) _) (by omega) _) (by omega) _

theorem Memory.gen_writeWord {m : Memory} {a : Nat} {v : Word} {g : Nat} (h : ∀ u ∈ m.unspec, u.gen < g) :
    ∀ u ∈ (m.writeWord a v).unspec, u.gen < g := gen_write (gen_write (gen_write (gen_write h)))

theorem Memory.read_writeWord_outside (m : Memory) (a b : Nat) (v : Word) (hb : b < a ∨ a + 4 ≤ b) :
    (m.writeWord a v).read b = m.read b := by
  unfold writeWord
  rw [read_write_other _ _ _ _ (by omega), read_write_other _ _ _ _ (by omega), read_write_other _ _ _ _ (by omega),
    read_write_other _ _ _ _ (by omega)]

/-- A word written is the word held. -/
theorem Memory.read_writeWord {m : Memory} (h : m.wf) {a : Nat} (ha : a + 4 ≤ Config.addressSpace) (v : Word) {j : Nat}
    (hj : j < 4) : (m.writeWord a v).read (a + j) = byteOf v j := by
  have w1 := wf_write h (a := a) (by omega) (byteOf v 0)
  have w2 := wf_write w1 (a := a + 1) (by omega) (byteOf v 1)
  have w3 := wf_write w2 (a := a + 2) (by omega) (byteOf v 2)
  have : j = 0 ∨ j = 1 ∨ j = 2 ∨ j = 3 := by omega
  unfold writeWord
  rw [read_write w3, read_write w2, read_write w1, read_write h]
  rcases this with rfl | rfl | rfl | rfl <;> simp

theorem memWrite1_ok {s : State} {a : Nat} (ha : a < Config.addressSpace) (hm : memOk s.plat a = true) (v : Byte) :
    memWrite1 a v s = .ok () (s.setMem (s.mem.write a v)) := by simp [memWrite1, ha, hm]

/-- A write inside the address space stores the byte or raises BusError and changes nothing. -/
theorem memWrite1_cases {s : State} {a : Nat} (ha : a < Config.addressSpace) (v : Byte) :
    memOk s.plat a = true ∧ memWrite1 a v s = .ok () (s.setMem (s.mem.write a v)) ∨
    memOk s.plat a = false ∧ memWrite1 a v s = .raise .busError s := by
  cases hm : memOk s.plat a <;> simp [memWrite1, ha, hm]

/-- A word write where memory answers stores the word (R62). -/
theorem memWrite4_ok {s : State} {a : Nat} (h : Answers s a 4) (v : Word) :
    memWrite4 a v s = .ok () (s.setMem (s.mem.writeWord a v)) := by
  have h0 := h 0 (by decide)
  have h1 := h 1 (by decide)
  have h2 := h 2 (by decide)
  have h3 := h 3 (by decide)
  unfold memWrite4
  rw [memWrite1_ok (by simpa using h0.1) (by simpa using h0.2), Res.bind_ok, memWrite1_ok h1.1 (by simpa using h1.2), Res.bind_ok,
    memWrite1_ok h2.1 (by simpa using h2.2), Res.bind_ok, memWrite1_ok h3.1 (by simpa using h3.2)]
  rfl

/-- What an operation that only writes memory, inside `[a, a + n)`, may leave. -/
structure OnlyMemory (s t : State) (a n : Nat) : Prop where
  eq : t = s.setMem t.mem
  same : SameOutside s t a n
  wf : s.mem.wf → t.mem.wf
  gen : ∀ g, (∀ u ∈ s.mem.unspec, u.gen < g) → ∀ u ∈ t.mem.unspec, u.gen < g

theorem OnlyMemory.refl (s : State) (a n : Nat) : OnlyMemory s s a n := ⟨rfl, fun _ _ => rfl, id, fun _ h => h⟩

theorem OnlyMemory.write {s t : State} {a n : Nat} (h : OnlyMemory s t a n) {b : Nat} (hb : a ≤ b) (hn : b < a + n)
    (hs : b < Config.addressSpace) (v : Byte) : OnlyMemory s (t.setMem (t.mem.write b v)) a n := by
  refine ⟨by rw [h.eq]; rfl, fun c hc => ?_, fun hw => Memory.wf_write (h.wf hw) hs v, fun g hg => Memory.gen_write (h.gen g hg)⟩
  rw [State.setMem_mem, Memory.read_write_other _ _ _ _ (by omega)]
  exact h.same c hc

/-- A word write inside the address space stores the word, or raises BusError with only bytes of the word stored. -/
theorem memWrite4_all {s : State} {a : Nat} (ha : a + 4 ≤ Config.addressSpace) (v : Word) :
    (memWrite4 a v s).All (fun _ t => t = s.setMem (s.mem.writeWord a v)) (fun e t => e = .busError ∧ OnlyMemory s t a 4) := by
  unfold memWrite4
  have r0 := OnlyMemory.refl s a 4
  rcases memWrite1_cases (s := s) (a := a) (by omega) (byteOf v 0) with ⟨-, h0⟩ | ⟨-, h0⟩
  · rw [h0, Res.bind_ok]
    have r1 := r0.write (b := a) (by omega) (by omega) (by omega) (byteOf v 0)
    rcases memWrite1_cases (s := s.setMem (s.mem.write a (byteOf v 0))) (a := a + 1) (by omega) (byteOf v 1) with ⟨-, h1⟩ | ⟨-, h1⟩
    · rw [h1, Res.bind_ok]
      have r2 := r1.write (b := a + 1) (by omega) (by omega) (by omega) (byteOf v 1)
      generalize hu : ((s.setMem (s.mem.write a (byteOf v 0))).setMem _ : State) = u at r2 ⊢
      rcases memWrite1_cases (s := u) (a := a + 2) (by omega) (byteOf v 2) with ⟨-, h2⟩ | ⟨-, h2⟩
      · rw [h2, Res.bind_ok]
        have r3 := r2.write (b := a + 2) (by omega) (by omega) (by omega) (byteOf v 2)
        generalize hw : (u.setMem (u.mem.write (a + 2) (byteOf v 2)) : State) = w at r3 ⊢
        rcases memWrite1_cases (s := w) (a := a + 3) (by omega) (byteOf v 3) with ⟨-, h3⟩ | ⟨-, h3⟩
        · rw [h3, ← hw, ← hu]; rfl
        · rw [h3]; exact ⟨rfl, r3⟩
      · rw [h2]; exact ⟨rfl, r2⟩
    · rw [h1]; exact ⟨rfl, r1⟩
  · rw [h0]; exact ⟨rfl, r0⟩

/-! ## The opportunities to raise BusError early (R61) -/

theorem prefetch_of_no_hole {s : State} (h : inputHasHole s.plat s.op = false) : prefetch s = .ok () s := by
  simp [prefetch, h]

theorem inputHasHole_nil {p : Platform} (h : p.holes = []) (op : OpParams) : inputHasHole p op = false := by
  simp [inputHasHole, h]

theorem memOk_nil {p : Platform} (h : p.holes = []) (a : Nat) : memOk p a = true := by simp [memOk, h]

/-- With no hole every byte of the address space answers. -/
theorem answers_of_no_holes {s : State} (h : s.plat.holes = []) {a n : Nat} (hn : a + n ≤ Config.addressSpace) : Answers s a n :=
  fun i hi => ⟨by omega, memOk_nil h (a + i)⟩

/-- Only the count of free values drawn changes. -/
theorem prefetch_all (s : State) :
    (prefetch s).All (fun _ t => ∃ g, s.fresh ≤ g ∧ t = s.setFresh g) (fun e t => e = .busError ∧ ∃ g, s.fresh ≤ g ∧ t = s.setFresh g) := by
  unfold prefetch
  split
  · split
    · exact ⟨rfl, _, Nat.le_succ _, rfl⟩
    · exact ⟨_, Nat.le_succ _, rfl⟩
  · exact ⟨s.fresh, Nat.le_refl _, rfl⟩

/-! ## Error entry, acceptance, completion, reset -/

@[simp] theorem spoilOutput_regs (s : State) : (spoilOutput s).regs = s.regs := rfl
@[simp] theorem spoilOutput_fresh (s : State) : (spoilOutput s).fresh = s.fresh + 1 := rfl

theorem spoilOutput_read (s : State) {b : Nat} (h : s.op.inOutput b = false) : (spoilOutput s).mem.read b = s.mem.read b := by
  refine Memory.read_spoil_outside _ _ _ _ _ ?_
  have : ¬(s.op.dst.toNat ≤ b ∧ b < s.op.dstEnd) := by simpa [OpParams.inOutput] using h
  omega

theorem spoilOutput_memoryOk {s : State} (h : MemoryOk s) : MemoryOk (spoilOutput s) :=
  ⟨Memory.wf_spoil h.1 (Nat.min_le_right _ _) h.2, Memory.gen_spoil h.2⟩

/-- Everything error entry writes in the registers (R235); memory is left as it is. -/
theorem recordError_eq (c : ErrorCode) (s : State) :
    recordError c s = { s with regs := { s.regs with errcode := c, resultLen := 0, err := true }, abortReq := false, fsm := .idle } := rfl

@[simp] theorem recordError_mem (c : ErrorCode) (s : State) : (recordError c s).mem = s.mem := rfl
@[simp] theorem recordError_fresh (c : ErrorCode) (s : State) : (recordError c s).fresh = s.fresh := rfl
@[simp] theorem recordError_fsm (c : ErrorCode) (s : State) : (recordError c s).fsm = .idle := rfl
@[simp] theorem recordError_abortReq (c : ErrorCode) (s : State) : (recordError c s).abortReq = false := rfl
@[simp] theorem recordError_regs (c : ErrorCode) (s : State) :
    (recordError c s).regs = { s.regs with errcode := c, resultLen := 0, err := true } := rfl

@[simp] theorem enterError_fsm (c : ErrorCode) (s : State) : (enterError c s).fsm = .idle := rfl
@[simp] theorem enterError_abortReq (c : ErrorCode) (s : State) : (enterError c s).abortReq = false := rfl

/-- Everything error entry writes (R235): the registers it names, and, after the codes that leave the output region unspecified,
memory and the count of free values. -/
theorem enterError_eq (c : ErrorCode) (s : State) :
    enterError c s = { s with
      regs := { s.regs with errcode := c, resultLen := 0, err := true }, abortReq := false, fsm := .idle
      mem := if spoilsOutput c s.phase then (spoilOutput s).mem else s.mem
      fresh := if spoilsOutput c s.phase then s.fresh + 1 else s.fresh } := by
  unfold enterError
  split <;> rfl

theorem enterError_regs (c : ErrorCode) (s : State) :
    (enterError c s).regs = { s.regs with errcode := c, resultLen := 0, err := true } := by rw [enterError_eq]

theorem enterError_read (c : ErrorCode) (s : State) {b : Nat} (h : s.op.inOutput b = false) :
    (enterError c s).mem.read b = s.mem.read b := by
  rw [enterError_eq]
  by_cases hc : spoilsOutput c s.phase = true
  · simp only [hc, if_true]; exact spoilOutput_read s h
  · simp only [hc]; rfl

theorem enterError_memoryOk (c : ErrorCode) {s : State} (h : MemoryOk s) : MemoryOk (enterError c s) := by
  rw [enterError_eq]
  by_cases hc : spoilsOutput c s.phase = true
  · simp only [hc, if_true]; exact spoilOutput_memoryOk h
  · simp only [hc]; exact h

@[simp] theorem completeOp_fsm (r : Word) (s : State) : (completeOp r s).fsm = .idle := rfl
@[simp] theorem completeOp_mem (r : Word) (s : State) : (completeOp r s).mem = s.mem := rfl
@[simp] theorem completeOp_fresh (r : Word) (s : State) : (completeOp r s).fresh = s.fresh := rfl
@[simp] theorem completeOp_regs (r : Word) (s : State) :
    (completeOp r s).regs = { s.regs with resultLen := r, done := true } := rfl

@[simp] theorem acceptOp_fsm (k : OpKind) (s : State) : (acceptOp k s).fsm = fsmOf k := rfl
@[simp] theorem acceptOp_phase (k : OpKind) (s : State) : (acceptOp k s).phase = .start := rfl
@[simp] theorem acceptOp_abortReq (k : OpKind) (s : State) : (acceptOp k s).abortReq = false := rfl
@[simp] theorem acceptOp_mem (k : OpKind) (s : State) : (acceptOp k s).mem = s.mem := rfl
@[simp] theorem acceptOp_fresh (k : OpKind) (s : State) : (acceptOp k s).fresh = s.fresh := rfl
@[simp] theorem acceptOp_regs (k : OpKind) (s : State) : (acceptOp k s).regs =
    { s.regs with done := false, err := false, errcode := .noError, resultLen := 0, hdrUlen := 0, hdrDict := 0 } := rfl

/-- A reset: a level that is asserted, or the release of one. -/
theorem resetBlock_eq {b : Bool} {s : State} (h : b = true ∨ s.rst = true) : resetBlock b s = (resetState s).setRst b := by
  unfold resetBlock
  rw [if_pos (by simpa using h)]

/-- A low level where `rst` is low already changes nothing. -/
theorem resetBlock_low {s : State} (h : s.rst = false) : resetBlock false s = s := by simp [resetBlock, h]

theorem resetState_memoryOk {s : State} (h : MemoryOk s) : MemoryOk (resetState s) := by
  unfold resetState
  by_cases hi : s.fsm = .idle
  · simp only [hi, if_true]; exact h
  · simp only [hi, if_false]; exact spoilOutput_memoryOk h

theorem resetBlock_memoryOk (b : Bool) {s : State} (h : MemoryOk s) : MemoryOk (resetBlock b s) := by
  unfold resetBlock
  split
  · exact resetState_memoryOk h
  · exact h

end Sys2Proof.Machine
end

