-- ==== Sys2Proof/Laws/Datapath.lean ====
section
/-! SUPPORT. What the operations shared by the packer, the encoder and the decoder can do, said once. -/

namespace Sys2Proof.Machine

open Sys2Proof Sys2Proof.Safety

/-! ## Dictionary lengths (R6, R140, R141) -/

/-- A word passes R141's first test exactly when it is a power of two. -/
theorem powerOfTwo_test (d : Word) : (d = 0 ∨ d &&& (d - 1) ≠ 0) ↔ ¬∃ k, d.toNat = 2 ^ k := by
  by_cases hz : d = 0
  · subst hz
    simp only [true_or, true_iff, not_exists]
    intro k hk
    have := Nat.one_le_two_pow (n := k)
    have h0 : (0 : Word).toNat = 0 := rfl
    omega
  · have hn : d.toNat ≠ 0 := fun h => hz (BitVec.eq_of_toNat_eq (by simpa using h))
    have hsub : (d - 1).toNat = d.toNat - 1 := by
      have h1 : (1 : Word).toNat = 1 := rfl
      rw [BitVec.toNat_sub_of_le (by rw [BitVec.le_def, h1]; omega), h1]
    have hand : (d &&& (d - 1)).toNat = d.toNat &&& (d.toNat - 1) := by rw [BitVec.toNat_and, hsub]
    have key := Nat.and_sub_one_eq_zero_iff_isPowerOfTwo hn
    rw [show Nat.isPowerOfTwo d.toNat ↔ ∃ k, d.toNat = 2 ^ k from Iff.rfl] at key
    rw [← key, ← hand]
    constructor
    · rintro (h | h) h'
      · exact hz h
      · exact h (BitVec.eq_of_toNat_eq (by simpa using h'))
    · intro h
      exact .inr fun h' => h (by rw [h']; rfl)

theorem dictLegal_iff (d : Word) : dictLegal d = true ↔ ∃ k, 2 ≤ k ∧ k ≤ 14 ∧ d.toNat = 2 ^ k := by
  unfold dictLegal
  rw [List.contains_iff_mem]
  generalize d.toNat = n
  constructor
  · intro h
    simp only [legalDicts, List.mem_cons, List.not_mem_nil, or_false] at h
    rcases h with rfl | rfl | rfl | rfl | rfl | rfl | rfl | rfl | rfl | rfl | rfl | rfl | rfl
    exacts [⟨2, by decide⟩, ⟨3, by decide⟩, ⟨4, by decide⟩, ⟨5, by decide⟩, ⟨6, by decide⟩, ⟨7, by decide⟩, ⟨8, by decide⟩,
      ⟨9, by decide⟩, ⟨10, by decide⟩, ⟨11, by decide⟩, ⟨12, by decide⟩, ⟨13, by decide⟩, ⟨14, by decide⟩]
  · rintro ⟨k, h2, h14, rfl⟩
    interval_cases k <;> decide

/-- The checks of R141 pass exactly the legal lengths of R6. -/
theorem dictError_eq_none (d : Word) : dictError d = none ↔ dictLegal d = true := by
  rw [dictLegal_iff]
  unfold dictError
  constructor
  · intro h
    split at h
    · cases h
    · rename_i hp
      obtain ⟨k, hk⟩ := not_not.1 ((not_congr (powerOfTwo_test d)).1 hp)
      split at h
      · cases h
      · split at h
        · cases h
        · rename_i hlo hhi
          simp only [Config.dictMin, Config.dictMax, hk] at hlo hhi
          refine ⟨k, ?_, ?_, hk⟩
          · by_contra hlt
            have := Nat.pow_le_pow_right (n := 2) (by decide) (show k ≤ 1 by omega)
            omega
          · by_contra hgt
            have := Nat.pow_le_pow_right (n := 2) (by decide) (show 15 ≤ k by omega)
            omega
  · rintro ⟨k, h2, h14, hk⟩
    have hlo := Nat.pow_le_pow_right (n := 2) (by decide) h2
    have hhi := Nat.pow_le_pow_right (n := 2) (by decide) h14
    rw [if_neg (fun h => (powerOfTwo_test d).1 h ⟨k, hk⟩), if_neg (by simp only [Config.dictMin]; omega), if_neg (by simp only [Config.dictMax]; omega)]

/-! ## The packer (R120 to R126) -/

/-- RESERVE advances the write cursor by 4, which stays within the capacity, or raises OutputTooSmall and changes nothing. -/
theorem reserveOp_all (s : State) :
    (reserveOp s).All
      (fun slot t => s.enc.wc.toNat + 4 ≤ s.op.cap.toNat ∧ slot = s.enc.wc ∧ t = s.setEnc { s.enc with wc := s.enc.wc + 4 })
      (fun e t => s.op.cap.toNat < s.enc.wc.toNat + 4 ∧ e = .outputTooSmall ∧ t = s) := by
  unfold reserveOp
  split
  · exact ⟨by omega, rfl, rfl⟩
  · exact ⟨by omega, rfl, rfl⟩

/-- FLUSH stores the word at its slot and closes it. -/
theorem flushOp_all (k : SubStream) {s : State} (h : s.op.dst.toNat + (s.enc.slotOf k).toNat + 4 ≤ Config.addressSpace) :
    (flushOp k s).All
      (fun _ t => t = (s.setMem (s.mem.writeWord (s.op.dst.toNat + (s.enc.slotOf k).toNat) (s.enc.accOf k))).setEnc (s.enc.closeOf k))
      (fun e t => e = .busError ∧ OnlyMemory s t (s.op.dst.toNat + (s.enc.slotOf k).toNat) 4) :=
  (memWrite4_all h _).bind (P := fun _ t => t = s.setMem (s.mem.writeWord _ _)) fun _ t ht => by subst ht; exact rfl

theorem flushOp_ok (k : SubStream) {s : State} (h : Answers s (s.op.dst.toNat + (s.enc.slotOf k).toNat) 4) :
    flushOp k s =
      .ok () ((s.setMem (s.mem.writeWord (s.op.dst.toNat + (s.enc.slotOf k).toNat) (s.enc.accOf k))).setEnc (s.enc.closeOf k)) := by
  unfold flushOp
  rw [memWrite4_ok h]
  rfl

/-- The accumulator an element goes to: the open one, or one just opened at the write cursor. -/
def wordFor {cap : Nat} [NeZero cap] (s : State) (a : Accum cap) : Accum cap := if a.isOpen then a else Accum.opened s.enc.wc

/-- The encoder with that accumulator open and its slot reserved. -/
def openedFor {cap : Nat} [NeZero cap] (get : EncRegs → Accum cap) (set : EncRegs → Accum cap → EncRegs) (s : State) : State :=
  if (get s.enc).isOpen then s
  else s.setEnc (set { s.enc with wc := s.enc.wc + 4 } (Accum.opened s.enc.wc))

/-- Emitting an element (R123 to R125): either no word is open and no slot fits, or the element is put in the word and the word is
flushed if that filled it. -/
theorem emitOn_eq {cap : Nat} [NeZero cap] (k : SubStream) (get : EncRegs → Accum cap) (set : EncRegs → Accum cap → EncRegs)
    (hget : ∀ e a, get (set e a) = a) (width : Nat) (v : Word) (s : State) :
    emitOn k get set width v s =
      if (get s.enc).isOpen = false ∧ s.op.cap.toNat < s.enc.wc.toNat + 4 then .raise .outputTooSmall s
      else
        let u := openedFor get set s
        let a := (wordFor s (get s.enc)).put width v
        match a.nextPos with
        | some p => .ok () (u.setEnc (set u.enc { a with pos := p }))
        | none => flushOp k (u.setEnc (set u.enc a)) := by
  unfold emitOn wordFor openedFor reserveOp
  cases ho : (get s.enc).isOpen
  · by_cases hc : s.op.cap.toNat < s.enc.wc.toNat + 4
    · simp [hc]
    · have hc' : ¬(s.enc.wc.toNat + 4 > s.op.cap.toNat) := hc
      simp only [hc', if_false, and_false, Res.bind_ok, State.setEnc_enc, hget, Bool.false_eq_true]
      rfl
  · rfl

theorem nextPos_eq_none {cap : Nat} {a : Accum cap} : a.nextPos = none ↔ a.pos.val + 1 = cap := by
  unfold Accum.nextPos
  have := a.pos.isLt
  split <;> simp <;> omega

theorem nextPos_eq_some {cap : Nat} {a : Accum cap} {p : Fin cap} : a.nextPos = some p ↔ p.val = a.pos.val + 1 := by
  unfold Accum.nextPos
  have := p.isLt
  split
  · simp only [Option.some.injEq, Fin.ext_iff]; omega
  · simp only [reduceCtorEq, false_iff]; omega

/-! ## The decoder (R172 to R181) -/

/-- READ_WORD inside the address space: TruncatedInput, BusError, or the word at the read cursor; only the cursor changes. -/
theorem readWordOp_all {s : State} (h : s.op.src.toNat + s.op.len.toNat ≤ Config.addressSpace) :
    (readWordOp s).All
      (fun w t => s.dec.rc.toNat + 4 ≤ s.op.len.toNat ∧ w = wordAt s (s.op.src.toNat + s.dec.rc.toNat) ∧
        t = s.setDec { s.dec with rc := s.dec.rc + 4 })
      (fun e t => (e = .truncatedInput ∧ s.op.len.toNat < s.dec.rc.toNat + 4 ∨ e = .busError) ∧ t = s) := by
  unfold readWordOp
  split
  · exact ⟨.inl ⟨rfl, by omega⟩, rfl⟩
  · rcases memRead4_cases (s := s) (a := s.op.src.toNat + s.dec.rc.toNat) (by omega) with hr | hr <;> rw [hr]
    · exact ⟨by omega, rfl, rfl⟩
    · exact ⟨.inr rfl, rfl⟩

theorem readWordOp_ok {s : State} (hl : s.dec.rc.toNat + 4 ≤ s.op.len.toNat)
    (ha : Answers s (s.op.src.toNat + s.dec.rc.toNat) 4) :
    readWordOp s = .ok (wordAt s (s.op.src.toNat + s.dec.rc.toNat)) (s.setDec { s.dec with rc := s.dec.rc + 4 }) := by
  unfold readWordOp
  rw [if_neg (by omega), memRead4_ok ha]
  rfl

/-- One output byte: stored at the output cursor, which advances; or BusError and nothing. -/
theorem putOutput_all (v : Byte) {s : State} (ha : s.op.dst.toNat + s.dec.o.toNat < Config.addressSpace)
    (ho : s.dec.o.toNat + 1 < 2 ^ 32) (hr : 0 < s.dec.rem.toNat) :
    (putOutput v s).All
      (fun _ t => t = (s.setMem (s.mem.write (s.op.dst.toNat + s.dec.o.toNat) v)).setDec
        { s.dec with o := s.dec.o + 1, rem := s.dec.rem - 1 })
      (fun e t => e = .busError ∧ t = s) := by
  unfold putOutput
  rcases memWrite1_cases (s := s) ha v with ⟨-, h⟩ | ⟨-, h⟩ <;> rw [h]
  · rw [Res.bind_ok, advanceOutput, assertRange_pos ⟨ho, hr⟩]; exact rfl
  · exact ⟨rfl, rfl⟩

/-- The string checks change nothing (R177). -/
theorem stringChecksOp_all (off len : Nat) (s : State) :
    (stringChecksOp off len s).All (fun _ t => off ≤ s.dec.o.toNat ∧ len ≤ s.dec.rem.toNat ∧ t = s)
      (fun e t => (e = .badOffset ∨ e = .lengthOverrun) ∧ t = s) := by
  unfold stringChecksOp
  split
  · exact ⟨.inl rfl, rfl⟩
  · split
    · exact ⟨.inr rfl, rfl⟩
    · exact ⟨by omega, by omega, rfl⟩

end Sys2Proof.Machine
end

