-- ==== Sys2Proof/Tests/Slice0.lean ====
section
/-! SUPPORT. Tests: ill-formed terms refused, words written out from the tables of the spec, the spec's own vectors and programs one
step at a time, and for each statement that has hypotheses a state and operands that meet them. -/

namespace Sys2Proof.Tests

open Sys2Proof Sys2Proof.Machine Sys2Proof.Safety Host

/-! ## States the tests start from -/

/-- Bytes from `a` on. -/
def bytesFrom (a : Nat) (bs : List Byte) : List (Nat × Byte) := bs.zipIdx.map fun p => (a + p.2, p.1)

/-- Memory with these bytes. -/
def memOf (bs : List (Nat × Byte)) : Memory := bs.foldl (fun m p => m.write p.1 p.2) Memory.empty

/-- The state after an outcome, if there is one. -/
def next? (o : Outcome State Fault Refusal) : Option State :=
  match o with
  | .next t => some t
  | _ => none

/-- The state after an outcome. -/
def after (o : Outcome State Fault Refusal) : State := (next? o).getD State.reset

theorem next_after {o : Outcome State Fault Refusal} (h : (next? o).isSome = true) : o = .next (after o) := by
  cases o <;> simp_all [next?, after]

/-- ASCII "ABCABCABC", the input of program P1. -/
def abcText : List Byte := [0x41, 0x42, 0x43, 0x41, 0x42, 0x43, 0x41, 0x42, 0x43]

/-- The stream of vector V-E2. -/
def abcStream : List Byte := [9, 0, 0, 0, 16, 0, 0, 0, 8, 0, 0, 0, 0x41, 0x42, 0x43, 0, 0x30, 0, 0, 0]

/-- Program P1 after its command is accepted, before the start step. -/
def compressing : State :=
  { State.reset with
    mem := memOf (bytesFrom 0x1000 abcText)
    regs := { HostRegs.reset with ie := true, dictLen := 16, srcAddr := 0x1000, srcLen := 9, dstAddr := 0x2000, dstCap := 64 }
    op := { OpParams.reset with d := 16, src := 0x1000, len := 9, dst := 0x2000, cap := 64 }
    fsm := .enc }

/-- Program P1 after element 2: three literals encoded (the table of 95_test_vectors.md). -/
def encoding : State :=
  { compressing with
    phase := .loop
    mem := memOf (bytesFrom 0x1000 abcText ++ [(0x2000, 9), (0x2004, 16)])
    regs := { compressing.regs with hdrUlen := 9, hdrDict := 16 }
    op := { compressing.op with ls := 4, maxOff := 18, maxLen := 4098 }
    enc := { EncRegs.reset with
      cur := 3, wc := 16, f := { acc := 0, pos := 3, isOpen := true, slot := 8 }
      b := { acc := 0x434241, pos := 3, isOpen := true, slot := 12 } } }

/-- Program P1 after element 3: only the end step is left. -/
def encoded : State :=
  { encoding with
    enc := { encoding.enc with
      cur := 9, wc := 20, f := { acc := 8, pos := 4, isOpen := true, slot := 8 }
      s := { acc := 0x30, pos := 1, isOpen := true, slot := 16 } } }

/-- Program P2 after its command is accepted, before the start step. -/
def decompressing : State :=
  { State.reset with
    mem := memOf (bytesFrom 0x2000 abcStream)
    regs := { HostRegs.reset with dictLen := 16, srcAddr := 0x2000, srcLen := 20, dstAddr := 0x3000, dstCap := 9 }
    op := { OpParams.reset with d := 16, src := 0x2000, len := 20, dst := 0x3000, cap := 9 }
    fsm := .dec }

/-- Program P2 after element 1. -/
def decoding : State :=
  { decompressing with
    phase := .loop
    mem := memOf (bytesFrom 0x2000 abcStream ++ [(0x3000, 0x41), (0x3001, 0x42)])
    regs := { decompressing.regs with hdrUlen := 9, hdrDict := 16 }
    op := { decompressing.op with n := 9, ls := 4, offMask := 0xF, lenMask := 0xFFF }
    dec := { DecRegs.reset with rc := 16, o := 2, rem := 7, fWord := 8, fIdx := 2, bWord := 0x43, bLeft := 2 } }

/-- Program P2 after element 2: the next element is the string. -/
def decodingString : State :=
  { decoding with
    mem := memOf (bytesFrom 0x2000 abcStream ++ bytesFrom 0x3000 [0x41, 0x42, 0x43])
    dec := { decoding.dec with o := 3, rem := 6, fIdx := 3, bWord := 0, bLeft := 1 } }

/-- Program P2 after element 3: only the end step is left. -/
def decoded : State :=
  { decodingString with
    mem := memOf (bytesFrom 0x2000 abcStream ++ bytesFrom 0x3000 abcText)
    dec := { decodingString.dec with rc := 20, o := 9, rem := 0, fIdx := 4, sWord := 0, sLeft := 1 } }

/-- The state with an event waiting. -/
def withEvent (e : Event) (s : State) : State := { s with inbox := [e] }

/-! ## Ill-formed terms are refused -/

theorem test_configWrite_of_ctrl_is_illFormed : (Instr.configWrite .ctrl 1).wellFormed = false := by decide
theorem test_configWrite_of_status_is_illFormed : (Instr.configWrite .status 1).wellFormed = false := by decide
theorem test_writeHeader_needs_a_legal_d : (Instr.writeHeader 9 6).wellFormed = false := by decide
theorem test_emitString_offset_below_3_is_illFormed : (Instr.emitString 2 3).wellFormed = false := by decide
theorem test_emitString_length_below_3_is_illFormed : (Instr.emitString 3 2).wellFormed = false := by decide
theorem test_emitString_beyond_every_d_is_illFormed : (Instr.emitString 16386 7).wellFormed = false := by decide
theorem test_deriveParams_needs_a_legal_d : (Instr.deriveParams 32768).wellFormed = false := by decide
theorem test_matchLen_start_is_at_most_cur_minus_3 : (Instr.matchLen 1 3 1).wellFormed = false := by decide
theorem test_matchLen_end_fits_the_input : (Instr.matchLen 0 3 0xFFFFFFFD).wellFormed = false := by decide
theorem test_matchSearch_position_fits : (Instr.matchSearch 0x100000000).wellFormed = false := by decide
theorem test_tokenPack_offset_17000_is_illFormed : (Instr.tokenPack 17000 3).wellFormed = false := by decide
theorem test_decInit_needs_a_legal_d : (Instr.decInit 9 3).wellFormed = false := by decide
theorem test_stringChecks_length_16387_is_illFormed : (Instr.stringChecks 3 16387).wellFormed = false := by decide
theorem test_windowCopy_offset_2_is_illFormed : (Instr.windowCopy 2 3).wellFormed = false := by decide
theorem test_errorEntry_needs_an_error : (Instr.errorEntry .noError).wellFormed = false := by decide

/-! ## Words written out from the tables (R80 to R88, R92, R93) -/

/-- A write at `CSR_BASE` + `off` with `CSR_BASE` = 0x40000000. -/
def writeAt (off v : Word) : Option Instr := (decodeBus 0x40000000 { isWrite := true, addr := 0x40000000 + off, data := v }).toOption

theorem test_decode_nop : writeAt 0x00 0x100 = some (.nop true) := by decide
theorem test_decode_compress : writeAt 0x00 0x101 = some (.compress true) := by decide
theorem test_decode_decompress : writeAt 0x00 0xFFFFFEF2 = some (.decompress false) := by decide
theorem test_decode_abort : writeAt 0x00 0x3 = some (.abort false) := by decide
theorem test_decode_reserved01xx : writeAt 0x00 0x7 = some (.reservedCmd01xx 3 false) := by decide
theorem test_decode_reserved1xxx : writeAt 0x00 0x108 = some (.reservedCmd1xxx 0 true) := by decide
theorem test_decode_statusW1c : writeAt 0x04 0xFFFFFFFC = some (.statusW1c false true) := by decide
theorem test_decode_dictLen : writeAt 0x0C 16 = some (.configWrite .dictLen 16) := by decide
theorem test_decode_dstCap : writeAt 0x1C 64 = some (.configWrite .dstCap 64) := by decide
theorem test_decode_last_register : writeAt 0x3C 5 = some (.configWrite .rsv15 5) := by decide
theorem test_decode_past_the_registers : writeAt 0x40 5 = none := by decide
theorem test_decode_inside_a_register : writeAt 0x05 5 = none := by decide
theorem test_decode_read : (decodeBus 0x40000000 { isWrite := false, addr := 0x4000002C, data := 0 }).toOption = some (.regRead .ident) := by
  decide
theorem test_decode_header :
    (decodeStream .header [0xFF, 0xFF, 0xFF, 0xFF, 0x00, 0x40, 0, 0, 7]).toOption = some (.header 0xFFFFFFFF 16384, [7]) := by decide
theorem test_decode_short_header : (decodeStream .header [9, 0, 0, 0, 16, 0, 0]).toOption = none := by decide
theorem test_decode_flagWord : (decodeStream .flagWord [0x00, 0x06, 0, 0x80]).toOption = some (.flagWord 0x80000600, []) := by decide
theorem test_decode_stringWord : (decodeStream .stringWord [0x36, 0, 0x6C, 0]).toOption = some (.stringWord 0x36 0x6C, []) := by decide
theorem test_decode_byteWord :
    (decodeStream .byteWord [0x54, 0x4F, 0x42, 0x45]).toOption = some (.byteWord 0x54 0x4F 0x42 0x45, []) := by decide
theorem test_decode_token : (decodeStream .token [0xA0, 0xD4]).toOption = some (.token 0xD4A0, []) := by decide
theorem test_decode_literal : decodeElement false = .lit := by decide
theorem test_decode_string : decodeElement true = .str := by decide

/-- The interface's table words: a bare word is a CTRL write (assumption 9). -/
theorem test_decodeTableWord : decodeTableWord 8 0x2 = some (.decompress false) := by decide
theorem test_withFetchWord :
    (next? (step (State.reset.withFetchWord 32 0x101))).map (fun t => (t.fsm, t.regs.ie, t.inbox)) = some (.enc, true, []) := by decide

/-! ## One step each (95_test_vectors.md) -/

/-- V-C1, V-C4. -/
theorem test_reserved_command :
    (next? (exec (.reservedCmd01xx 3 true) State.reset)).map (fun t => (t.regs.err, t.regs.errcode, t.busy, t.irq)) =
    some (true, .illegalCommand, false, true) := by decide
theorem test_clearing_err_keeps_the_code :
    (next? (exec (.statusW1c false true) (after (exec (.reservedCmd01xx 3 true) State.reset)))).map
      (fun t => (t.regs.err, t.irq, t.regs.errcode)) = some (false, false, .illegalCommand) := by decide
/-- V-C2. -/
theorem test_abort_while_idle : next? (exec (.abort false) State.reset) = some State.reset := by decide
/-- V-C3. -/
theorem test_ctrl_reads_ie : (next? (exec (.nop true) State.reset)).map (fun t => hostRead t .ctrl) = some 0x100 := by decide
/-- V-C5, V-C6. -/
theorem test_writes_while_busy_are_ignored :
    next? (exec (.configWrite .srcLen 5) compressing) = some compressing ∧ next? (exec (.compress true) compressing) = some compressing := by
  decide
/-- R205: an ABORT, then the next step. -/
theorem test_abort :
    (next? (exec (.abort true) encoding)).map
      (fun t => (t.busy, (next? (exec .step t)).map fun u => (u.regs.errcode, u.regs.resultLen, u.busy, u.regs.hdrUlen))) =
    some (true, some (.aborted, 0, false, 9)) := by decide
/-- V-C7 to V-C10. -/
theorem test_bufferBad :
    ({ OpParams.reset with src := 0x1000, len := 16, dst := 0x100F, cap := 8 }).bufferBad = true ∧
    ({ OpParams.reset with src := 0xFFFFFFF0, len := 0x20 }).bufferBad = true ∧
    ({ OpParams.reset with src := 0x1000, len := 16, dst := 0x1010, cap := 64 }).bufferBad = false ∧
    ({ OpParams.reset with src := 0x2000, len := 0, dst := 0x2000, cap := 8 }).bufferBad = false := by decide
/-- V-C12. -/
theorem test_id : (next? (exec (.regRead .ident) State.reset)).map (·.rdata) = some 0x4C5A5353 := by decide
/-- V-C13. -/
theorem test_resultLen_is_readOnly : next? (exec (.configWrite .resultLen 5) State.reset) = some State.reset := by decide
/-- R203, R204: P1's and P2's commands from idle. -/
theorem test_commands_start :
    next? (exec (.compress true) { compressing with fsm := .idle, op := OpParams.reset }) = some compressing ∧
    (next? (exec (.decompress false) { decompressing with fsm := .idle })).map (fun t => (t.fsm, t.op)) =
      some (.dec, decompressing.op) := by decide

/-- V-H1, V-H2. -/
theorem test_writeHeader :
    (next? (exec (.writeHeader 0xFFFFFFFF 16384) compressing)).map
      (fun t => ((List.range 8).map fun i => t.mem.read (0x2000 + i), t.regs.hdrUlen, t.regs.hdrDict)) =
    some ([0xFF, 0xFF, 0xFF, 0xFF, 0x00, 0x40, 0x00, 0x00], 0xFFFFFFFF, 16384) := by decide
theorem test_readHeader : (next? (exec .readHeader decompressing)).map (·.result) = some (.headerFields 9 16) := by decide
/-- V-D1 to V-D8. -/
theorem test_dictErrors :
    [6, 0, 3, 20000, 2, 1, 32768, 0x80000000, 4, 16384].map dictError =
      [some .invalidDictionary, some .invalidDictionary, some .invalidDictionary, some .invalidDictionary, some .dictionaryTooSmall,
        some .dictionaryTooSmall, some .dictionaryTooLarge, some .dictionaryTooLarge, none, none] := by decide
/-- V-D9 to V-D13. -/
theorem test_deriveParams :
    [4, 16, 256, 4096, 16384].map (fun d => (next? (exec (.deriveParams d) State.reset)).map fun t => (t.op.ls, t.op.maxOff, t.op.maxLen)) =
      [some (2, 6, 16386), some (4, 18, 4098), some (8, 258, 258), some (12, 4098, 18), some (14, 16386, 6)] := by decide
/-- V-T1 to V-T14: tokens packed. -/
theorem test_tokens_packed :
    [packToken 4 3 6, packToken 4 9 6, packToken 4 15 9, packToken 4 3 37, packToken 2 6 16386, packToken 2 3 13611, packToken 12 3 5,
      packToken 14 3 6, packToken 14 16386 6] = [0x0030, 0x0036, 0x006C, 0x0220, 0xFFFF, 0xD4A0, 0x2000, 0xC000, 0xFFFF] := by decide
/-- V-T8, V-T12, V-T16, V-X18: tokens unpacked by masks. -/
theorem test_tokens_unpacked :
    unpackToken 2 3 0x3FFF 0xFFFF = (6, 16386) ∧ unpackToken 14 0x3FFF 3 0xC000 = (3, 6) ∧
    unpackToken 6 0x3F 0x3FF 0x001D = (32, 3) := by decide
/-- The masks' table of §2.3. -/
theorem test_masks :
    [4, 16, 4096, 16384].map (fun d => (offsetMaskOf d, lengthMaskOf d)) =
      [(0x3, 0x3FFF), (0xF, 0xFFF), (0xFFF, 0xF), (0x3FFF, 0x3)] := by decide

/-- P1, the start step. -/
theorem test_compress_start_step :
    (next? (exec .step compressing)).map (fun t => (t.enc.wc, t.enc.cur, t.regs, t.op)) =
    some (8, 0, encoding.regs, encoding.op) := by decide
/-- P1, element 0: from its start step's state. -/
theorem test_encode_literal :
    (next? (exec .step { encoding with enc := { EncRegs.reset with wc := 8 } })).map
      (fun t => (t.enc.cur, t.enc.wc, t.enc.f, t.enc.b)) =
    some (1, 16, { acc := 0, pos := 1, isOpen := true, slot := 8 }, { acc := 0x41, pos := 1, isOpen := true, slot := 12 }) := by decide
/-- P1, element 3. -/
theorem test_encode_string :
    (next? (exec .step encoding)).map (fun t => (t.enc.cur, t.enc.wc, t.enc.f, t.enc.s)) =
    some (9, 20, encoded.enc.f, encoded.enc.s) := by decide
/-- P1, the end step. -/
theorem test_compress_end_step :
    (next? (exec .step encoded)).map
      (fun t => (statusWord t, t.irq, t.regs.resultLen, (List.range 21).map fun i => t.mem.read (0x2000 + i))) =
    some (2, true, 20, abcStream ++ [0]) := by decide
/-- R143's and R144's examples. -/
theorem test_matchLen : (next? (exec (.matchLen 0 3 6) encoding)).map (·.result) = some (.length 6) := by decide
theorem test_matchSearch_prefers_the_closest :
    (next? (exec (.matchSearch 8) { encoding with
      mem := memOf (bytesFrom 0x1000 [0x41, 0x42, 0x43, 0x78, 0x41, 0x42, 0x43, 0x79, 0x41, 0x42, 0x43]), op := { encoding.op with len := 11 } })).map
      (·.result) = some (.offLen 4 3) := by decide
/-- R121's example. -/
theorem test_reserve :
    (next? (exec .reserve { encoding with op := { encoding.op with cap := 12 }, enc := { EncRegs.reset with wc := 8 } })).map
      (fun t => (t.result, t.enc.wc, (next? (exec .reserve t)).map (·.regs.errcode))) =
    some (.word 8, 12, some .outputTooSmall) := by decide
/-- R122's example. -/
theorem test_flush :
    (next? (exec (.flush .flags) encoded)).map (fun t => (t.enc.f.isOpen, (List.range 4).map fun i => t.mem.read (0x2008 + i))) =
    some (false, [8, 0, 0, 0]) := by decide
/-- R123, C5: the 32nd flag is stored at once. -/
theorem test_emitFlag_fills_the_word :
    (next? (exec (.emitFlag true) { encoding with enc := { encoding.enc with f := { acc := 1, pos := 31, isOpen := true, slot := 8 } } })).map
      (fun t => (t.enc.f.isOpen, t.enc.wc, t.mem.read 0x2008, t.mem.read 0x200B)) = some (false, 16, 1, 0x80) := by decide
/-- V-K2: the fourth literal is stored at once. -/
theorem test_emitLiteral_fills_the_word :
    (next? (exec (.emitLiteral 0x78) encoding)).map (fun t => (t.enc.b.isOpen, t.mem.read 0x200C, t.mem.read 0x200F)) =
    some (false, 0x41, 0x78) := by decide
/-- V-K2: two tokens fill a string word. -/
theorem test_emitString_fills_the_word :
    (next? (exec (.emitString 4 3) { encoded with enc := { encoded.enc with s := { acc := 1, pos := 1, isOpen := true, slot := 16 } } })).map
      (fun t => (t.enc.s.isOpen, wordAt t 0x2010)) = some (false, 0x00010001) := by decide
theorem test_packerInit : (next? (exec .packerInit encoded)).map (fun t => (t.enc.wc, t.enc.f.pos, t.enc.s.isOpen)) = some (8, 0, false) := by
  decide
/-- V-P8, V-P7. -/
theorem test_compress_capacity :
    (next? (exec .compressBody { compressing with op := { compressing.op with cap := 20 } })).map (·.regs.resultLen) = some 20 ∧
    (next? (exec .compressBody { compressing with op := { compressing.op with cap := 19 } })).map (·.regs.errcode) = some .outputTooSmall := by
  decide

/-- P2, the start step. -/
theorem test_decompress_start_step :
    (next? (exec .step decompressing)).map (fun t => (t.dec.rc, t.dec.o, t.dec.rem, t.dec.fIdx, t.dec.sLeft, t.dec.bLeft, t.regs.hdrUlen)) =
    some (8, 0, 9, 32, 0, 0, 9) := by decide
/-- P2, element 0. -/
theorem test_decode_literal_with_refills :
    (next? (exec .step { decoding with dec := { DecRegs.reset with rc := 8, rem := 9, fIdx := 32 } })).map
      (fun t => (t.dec.fWord, t.dec.rc, t.mem.read 0x3000, t.dec.o, t.dec.rem, t.dec.fIdx, t.dec.bLeft)) =
    some (8, 16, 0x41, 1, 8, 1, 3) := by decide
/-- P2, elements 2 and 3. -/
theorem test_decode_third_literal : next? (exec .step decoding) = some decodingString := by decide
theorem test_decode_string_element : next? (exec .step decodingString) = some decoded := by decide
/-- P2, the end step. -/
theorem test_decompress_end_step :
    (next? (exec .step decoded)).map (fun t => (statusWord t, t.regs.resultLen, t.mem)) = some (2, 9, decoded.mem) := by decide
/-- V-X3 (P3), V-X4. -/
theorem test_string_checks :
    (next? (exec (.stringChecks 3 3) { decoding with dec := { decoding.dec with o := 0, rem := 3 } })).map (·.regs.errcode) = some .badOffset ∧
    (next? (exec (.stringChecks 3 3) { decoding with dec := { decoding.dec with o := 3, rem := 1 } })).map (·.regs.errcode) =
      some .lengthOverrun := by decide
/-- R178's example: a self-overlapping copy. -/
theorem test_windowCopy :
    (next? (exec (.windowCopy 3 6) decodingString)).map (fun t => (t.mem, t.dec.o, t.dec.rem)) = some (decoded.mem, 9, 0) := by decide
/-- V-X5, V-X6, V-X7, V-X8, V-X10, V-X11: what DECOMPRESS of a bad stream or into a small region ends in. -/
theorem test_decompress_errors :
    (next? (exec .decompressBody { decompressing with op := { decompressing.op with len := 8 } })).map (·.regs.errcode) = some .truncatedInput ∧
    (next? (exec .decompressBody { decompressing with op := { decompressing.op with len := 7 } })).map
      (fun t => (t.regs.errcode, t.regs.hdrUlen)) = some (.corruptHeader, 0) ∧
    (next? (exec .decompressBody { decompressing with op := { decompressing.op with cap := 8 } })).map
      (fun t => (t.regs.errcode, t.regs.hdrUlen, t.regs.hdrDict, t.mem)) = some (.outputTooSmall, 9, 16, decompressing.mem) ∧
    [6, 1, 32768].map (fun d : Nat => (next? (exec .decompressBody { decompressing with
        mem := (decompressing.mem.write 0x2004 (BitVec.ofNat 8 d)).write 0x2005 (BitVec.ofNat 8 (d / 256)) })).map (·.regs.errcode)) =
      [some .invalidDictionary, some .dictionaryTooSmall, some .dictionaryTooLarge] := by decide
/-- V-X13: the padding half of a string word and a trailing word are not used. -/
theorem test_padding_and_trailing_words :
    (next? (exec .decompressBody { decompressing with
      mem := (decompressing.mem.write 0x2012 0xFF).write 0x2014 0xEF, op := { decompressing.op with len := 24 } })).map
      (fun t => (t.regs.resultLen, t.dec.rc, (List.range 9).map fun i => t.mem.read (0x3000 + i))) = some (9, 20, abcText) := by decide
/-- R62: a write whose second byte does not answer has stored the first and not the later ones. -/
theorem test_word_write_stops_at_a_hole :
    (match memWrite4 0x2000 0x04030201 { compressing with plat := { Platform.plain with holes := [⟨0x2001, 0x2002⟩] } } with
      | .raise e t => (e, [t.mem.read 0x2000, t.mem.read 0x2002])
      | _ => (.noError, [])) = (.busError, [1, 0]) := by decide
/-- R251: reset while an operation runs. -/
theorem test_reset_in_operation :
    (next? (exec (.reset true) encoding)).map (fun t => (t.regs, t.fsm, t.mem.read 0x1000, t.mem.unspec)) =
    some (HostRegs.reset, .idle, 0x41, [{ lo := 0x2000, hi := 0x2040, gen := 0 }]) := by decide
/-- R250: a low level resets when it releases `rst`, and is nothing where `rst` is low. -/
theorem test_release_of_reset :
    (next? (exec (.reset false) { encoding with rst := true })).map (fun t => (t.rst, t.fsm, t.regs)) =
      some (false, .idle, HostRegs.reset) ∧
    next? (exec (.reset false) encoding) = some encoding := by decide
/-- R221: the twelve codes and 0, in the table's order. -/
theorem test_error_numbers :
    [ErrorCode.noError, .invalidDictionary, .dictionaryTooSmall, .dictionaryTooLarge, .outputTooSmall, .truncatedInput, .corruptHeader,
      .badOffset, .lengthOverrun, .badBuffer, .illegalCommand, .aborted, .busError].map
      (fun c => hostRead { State.reset with regs := { HostRegs.reset with errcode := c } } .errcode) =
    [0, 1, 2, 3, 4, 5, 6, 7, 8, 9, 10, 11, 12] := by decide
/-- Program P1 before the start step; the first byte of the output region does not answer. -/
def noOutput : State := { compressing with plat := { Platform.plain with holes := [⟨0x2000, 0x2001⟩] } }

/-- Program P2 before the start step; the first byte of the input region does not answer. -/
def noInput : State := { decompressing with plat := { Platform.plain with holes := [⟨0x2000, 0x2001⟩] } }

/-- D31: a start step in which the header cannot be written records BusError and writes no memory. -/
theorem test_compress_busError_before_any_write :
    (next? (exec .step noOutput)).map (fun t => (t.regs.errcode, t.regs.err, t.busy, t.mem)) = some (.busError, true, false, compressing.mem) := by
  decide
/-- R170: a start step in which the header cannot be read does the same, whether BusError comes early or not. -/
theorem test_decompress_busError_writes_nothing : exec .step noInput = .next (recordError .busError (noInput.setFresh 1)) := by
  have early : prefetch noInput =
      if Config.prefetchFault 0 then .raise .busError (noInput.setFresh 1) else .ok () (noInput.setFresh 1) := rfl
  have read : readHeaderOp (noInput.setFresh 1) = .raise .busError (noInput.setFresh 1) := rfl
  have checks : checkRegions noInput = .ok () noInput := rfl
  have long : ¬(noInput.setFresh 1).op.len.toNat < Config.headerBytes := by decide
  have start : decStartStep noInput = .unwritten (noInput.setFresh 1) := by
    unfold decStartStep
    rw [checks]
    simp only [Res.bind, early]
    cases Config.prefetchFault 0
    · simp only [Bool.false_eq_true, if_false, if_neg long, read]; rfl
    · rfl
  show settle ((decStartStep noInput).bind _) = _
  rw [start]; rfl
/-- Memory keeps its canonical form: writing 0 lists nothing. -/
theorem test_memory_canonical : ((Memory.empty.write 7 1).write 7 0) = Memory.empty := by decide
/-- U17: another agent's write into the input of a running operation. -/
theorem test_agent_write_in_region :
    step (withEvent (.agentWrite 0x1008 0) encoding) = .refused .regionsUntouchedWhileBusy := by rfl

/-! ## Witnesses: what meets the hypotheses of each statement

Each theorem names the statement; where a statement has several clauses, each is met, at a boundary of its range. -/

/-- `rst` is asserted. -/
def inReset : State := { State.reset with rst := true }

/-- A region at the very top of the address space. -/
def atTop : State :=
  { encoding with op := { encoding.op with src := 0xFFFFFFF8, len := 8, dst := 0xFFFFFFF8, cap := 8 } }

/-- An input region whose last byte does not answer. -/
def withHole (s : State) : State := { s with plat := { s.plat with holes := [⟨s.op.srcEnd - 1, s.op.srcEnd⟩] } }

/-- The parameters of d = 4 in both directions. -/
def smallest : State :=
  { encoding with op := { encoding.op with d := 4, ls := 2, maxOff := 6, maxLen := 16386, offMask := 3, lenMask := 0x3FFF } }

/-- The parameters of d = 16384 in both directions. -/
def largest : State :=
  { encoding with op := { encoding.op with d := 16384, ls := 14, maxOff := 16386, maxLen := 6, offMask := 0x3FFF, lenMask := 3 } }

theorem witness_StartCommandsAreAcceptedWhenIdle : State.reset.rst = false ∧ State.reset.fsm = .idle := by decide
theorem witness_CommandsWhileBusyAreIgnoredButAbort :
    compressing.rst = false ∧ compressing.fsm ≠ .idle ∧ State.reset.rst = false ∧ State.reset.fsm = .idle := by decide
theorem witness_ReservedCommandsRaiseIllegalCommand : State.reset.rst = false ∧ State.reset.fsm = .idle := by decide
theorem witness_StatusWriteClearsWhereOne : encoding.rst = false := by decide
theorem witness_ConfigurationWritesStoreWhenIdle :
    State.reset.rst = false ∧ State.reset.fsm = .idle ∧ (Instr.configWrite .dictLen 5).wellFormed = true ∧
    (Instr.configWrite .dstCap 5).wellFormed = true ∧ compressing.rst = false ∧ compressing.fsm ≠ .idle ∧
    (Instr.configWrite .errcode 5).wellFormed = true ∧ (Instr.configWrite .rsv15 5).wellFormed = true := by decide
theorem witness_ReadsReturnTheRegisterMap : decoding.rst = false := by decide
theorem witness_ReservedIndicesReadZeroAndIgnoreWrites : Reg.ofIndex 12 = .rsv12 ∧ Reg.ofIndex 15 = .rsv15 := by decide
theorem witness_PortWhileResetIsAsserted : inReset.rst = true := by decide
theorem witness_InterruptIsEnableAndDoneOrError :
    encoding.regs.ie = compressing.regs.ie ∧ encoding.regs.done = compressing.regs.done ∧ encoding.regs.err = compressing.regs.err ∧
    encoding ≠ compressing := by decide
theorem witness_StepRunsTheDecodedInstruction :
    encoding.inbox = [] ∧
    (decodeBus 0x40000000 { isWrite := true, addr := 0x40000000, data := 1 }).toOption = some (.compress false) ∧
    (withEvent (.bus { isWrite := true, addr := 0x40000000, data := 1 }) State.reset).plat.csrBase = 0x40000000 ∧
    (decodeBus 0x40000000 { isWrite := true, addr := 0x40000040, data := 1 }).toOption = none ∧
    (withEvent .blockStep encoding).inbox = [.blockStep] ∧ (withEvent (.rst true) encoding).inbox = [.rst true] := by decide
/-- Another agent's access: the first and last byte of the output region and those around it, a byte that does not answer, a device. -/
theorem witness_StepRunsTheDecodedInstruction_agents :
    let s : State := { encoding with plat := { Platform.plain with holes := [⟨0x5000, 0x5001⟩], devices := [⟨0x6000, 0x6001⟩] } }
    let in_ (a : Nat) := s.op.inInput a || s.op.inOutput a
    s.fsm ≠ .idle ∧ s.mem.wf ∧
    (memOk s.plat 0x2000 = true ∧ s.op.inOutput 0x2000 = true ∧ memOk s.plat 0x203F = true ∧ s.op.inOutput 0x203F = true) ∧
    (memOk s.plat 0x1FFF = true ∧ in_ 0x1FFF = false ∧ inDevice s.plat 0x1FFF = false) ∧
    (memOk s.plat 0x2040 = true ∧ in_ 0x2040 = false ∧ inDevice s.plat 0x2040 = false) ∧
    (memOk s.plat 0x5000 = false ∧ in_ 0x5000 = false) ∧
    (memOk s.plat 0x6000 = true ∧ in_ 0x6000 = false ∧ inDevice s.plat 0x6000 = true) ∧ State.reset.fsm = .idle := by decide
theorem witness_StepPerformsTheRunningOperation :
    (State.reset.fsm = .idle) ∧
    ((after (exec (.abort true) encoding)).fsm ≠ .idle ∧ (after (exec (.abort true) encoding)).abortReq = true) ∧
    (encoding.abortReq = false ∧ encoding.phase = .loop ∧ inputHasHole encoding.plat encoding.op = false ∧ encoding.fsm = .enc ∧
      encoding.enc.cur.toNat < encoding.op.len.toNat) ∧
    (encoded.abortReq = false ∧ encoded.phase = .loop ∧ inputHasHole encoded.plat encoded.op = false ∧ encoded.fsm = .enc ∧
      encoded.op.len.toNat ≤ encoded.enc.cur.toNat ∧ (after (exec .finish encoded)).fsm = .enc) ∧
    (decodingString.phase = .loop ∧ inputHasHole decodingString.plat decodingString.op = false ∧ decodingString.fsm = .dec ∧
      0 < decodingString.dec.rem.toNat) ∧
    (decoded.phase = .loop ∧ inputHasHole decoded.plat decoded.op = false ∧ decoded.fsm = .dec ∧ decoded.dec.rem.toNat = 0) := by
  refine ⟨by decide, by decide, by decide, by decide, by decide, by decide⟩
theorem witness_finish_of_encoded : exec .finish encoded = .next (after (exec .finish encoded)) := next_after (by decide)
theorem witness_CompleteReportsTheResult : exec (.complete 9) decoded = .next (after (exec (.complete 9) decoded)) := next_after (by decide)
theorem witness_ErrorEntryRecordsTheCode :
    (Instr.errorEntry .invalidDictionary).wellFormed = true ∧ (Instr.errorEntry .busError).wellFormed = true ∧
    encoding.op.inOutput 0x1FFF = false ∧ encoding.op.inOutput 0x2040 = false ∧ compressing.phase = .start := by decide
theorem witness_ResetTakesTheResetValues :
    inReset.rst = true ∧ State.reset.rst = false ∧ State.reset.fsm = .idle ∧ encoding.op.inOutput 0x1FFF = false ∧ encoding.op.inOutput 0x2040 = false := by decide

theorem smallest_encParams : EncParams smallest.op := by decide
theorem smallest_decParams : DecParams smallest.op := by decide
theorem largest_encParams : EncParams largest.op := by decide
theorem largest_decParams : DecParams largest.op := by decide
theorem witness_StreamItemsBecomeTheCurrentWord : DecParams decoding.op := by decide
theorem witness_EveryTokenIsLegal :
    EncParams smallest.op ∧ DecParams smallest.op ∧ EncParams largest.op ∧ DecParams largest.op :=
  ⟨smallest_encParams, smallest_decParams, largest_encParams, largest_decParams⟩
theorem witness_LengthMaskWidthsAgree :
    dictLegal 4 = true ∧ 2 ^ 2 = (4 : Word).toNat ∧ dictLegal 16384 = true ∧ 2 ^ 14 = (16384 : Word).toNat := by decide
theorem witness_TokenPackIsUndoneByUnpack :
    EncParams smallest.op ∧ DecParams smallest.op ∧ 3 ≤ 6 ∧ 6 ≤ smallest.op.maxOff ∧ 16386 ≤ smallest.op.maxLen ∧
    EncParams largest.op ∧ DecParams largest.op ∧ 16386 ≤ largest.op.maxOff ∧ 6 ≤ largest.op.maxLen :=
  ⟨smallest_encParams, smallest_decParams, by decide, by decide, by decide, largest_encParams, largest_decParams, by decide, by decide⟩

/-- A region whose first byte does not answer. -/
def blind (s : State) : State := { s with plat := { s.plat with holes := [⟨s.op.dst.toNat, s.op.dst.toNat + 1⟩, ⟨s.op.src.toNat, s.op.srcEnd⟩] } }

theorem witness_WriteHeaderStoresTwoWords :
    atTop.mem.wf ∧ (Instr.writeHeader 9 4).wellFormed = true ∧ (Instr.writeHeader 0 16384).wellFormed = true ∧
    Answers atTop atTop.op.dst.toNat 8 ∧ memOk (blind encoding).plat (blind encoding).op.dst.toNat = false := by decide
theorem witness_ReadHeaderReturnsTwoWords :
    Answers atTop atTop.op.src.toNat 8 ∧ Answers decompressing decompressing.op.src.toNat 8 ∧
    memOk (blind encoding).plat (blind encoding).op.src.toNat = false := by decide
/-- The header written by one state, read back by another. -/
theorem witness_HeaderRoundTrip :
    let t := after (exec (.writeHeader 9 16) compressing)
    let u : State := { t with op := { t.op with src := 0x2000 } }
    (compressing.mem.wf ∧ t.regs.err = false ∧ Answers u u.op.src.toNat 8) ∧
    (∀ i < 8, u.mem.read (u.op.src.toNat + i) = t.mem.read (compressing.op.dst.toNat + i)) ∧
    exec (.writeHeader 9 16) compressing = .next t ∧ exec .readHeader u = .next (after (exec .readHeader u)) :=
  ⟨by decide, by decide, next_after (by decide), next_after (by decide)⟩

theorem witness_ReserveChecksTheCapacity :
    (let s : State := { encoding with op := { encoding.op with cap := 20 } }; s.enc.wc.toNat + 4 ≤ s.op.cap.toNat) ∧
    (let s : State := { encoding with op := { encoding.op with cap := 19 } }; s.op.cap.toNat < s.enc.wc.toNat + 4) := by decide
theorem witness_FlushStoresTheWordAtItsSlot :
    encoded.mem.wf ∧ Answers encoded (encoded.op.dst.toNat + (encoded.enc.slotOf .flags).toNat) 4 ∧
    Answers encoded (encoded.op.dst.toNat + (encoded.enc.slotOf .strings).toNat) 4 ∧
    Answers encoded (encoded.op.dst.toNat + (encoded.enc.slotOf .bytes).toNat) 4 := by decide
/-- The first byte of the slot does not answer; only its last byte does not. -/
theorem witness_FlushStoresTheWordAtItsSlot_busError :
    let s (a : Nat) : State := { encoded with plat := { Platform.plain with holes := [⟨a, a + 1⟩] } }
    encoded.op.dst.toNat + (encoded.enc.slotOf .flags).toNat = 0x2008 ∧
    (Answers (s 0x2008) 0x2008 0 ∧ memOk (s 0x2008).plat 0x2008 = false) ∧
    (Answers (s 0x200B) 0x2008 3 ∧ memOk (s 0x200B).plat (0x2008 + 3) = false) := by decide
/-- Not open, with a slot that ends at the capacity; open; open and filled by the element. -/
theorem witness_EmitFlagFillsTheFlagWord :
    (let s : State := { encoding with op := { encoding.op with cap := 12 }, enc := { EncRegs.reset with wc := 8 } }; CanEmit s s.enc.f) ∧
    CanEmit encoding encoding.enc.f ∧ encoding.mem.wf ∧
    (let s : State := { encoding with enc := { encoding.enc with f := { encoding.enc.f with pos := 31 } } }
     CanEmit s s.enc.f ∧ EmitPos s.enc.f + 1 = 32) := by decide
theorem witness_EmitLiteralFillsTheByteWord :
    (let s : State := { encoding with op := { encoding.op with cap := 12 }, enc := { EncRegs.reset with wc := 8 } }; CanEmit s s.enc.b) ∧
    CanEmit encoding encoding.enc.b ∧ EmitPos encoding.enc.b + 1 = 4 ∧ encoding.mem.wf := by decide
theorem witness_EmitStringFillsTheStringWord :
    (encoding.mem.wf ∧ EncParams encoding.op ∧ 3 ≤ 18 ∧ 18 ≤ encoding.op.maxOff ∧ 4098 ≤ encoding.op.maxLen) ∧
    (encoding.enc.s.isOpen = false ∧ CanEmit encoding encoding.enc.s) ∧
    (EncParams encoded.op ∧ CanEmit encoded encoded.enc.s ∧ EmitPos encoded.enc.s + 1 = 2) := by
  refine ⟨by decide, by decide, by decide⟩
theorem witness_EmitWithoutRoomRaisesOutputTooSmall :
    let s : State := { encoding with op := { encoding.op with cap := 11 }, enc := { EncRegs.reset with wc := 8 } }
    s.op.cap.toNat < s.enc.wc.toNat + 4 ∧ s.enc.f.isOpen = false ∧ s.enc.b.isOpen = false ∧ s.enc.s.isOpen = false ∧
    EncParams s.op ∧ 18 ≤ s.op.maxOff ∧ 3 ≤ s.op.maxLen := by decide

theorem encoding_encRun : EncRun encoding :=
  ⟨by decide, by decide, by decide, by decide, by decide, by decide, by decide, by decide, by decide, by decide, by decide, by decide,
    by decide, by decide⟩
theorem encoded_encRun : EncRun encoded :=
  ⟨by decide, by decide, by decide, by decide, by decide, by decide, by decide, by decide, by decide, by decide, by decide, by decide,
    by decide, by decide⟩
theorem decoding_decRun : DecRun decoding :=
  ⟨by decide, by decide, by decide, by decide, by decide, by decide, by decide, by decide, by decide⟩
/-- Three words open at once. -/
theorem witness_FinishStoresEveryOpenWord :
    encoded.mem.wf ∧ EncRun encoded ∧ encoded.plat.holes = [] ∧ ∀ k, encoded.enc.openOf k = true :=
  ⟨by decide, encoded_encRun, rfl, fun k => by cases k <;> rfl⟩

theorem witness_ParametersOfALegalDictionary : dictLegal 4 = true ∧ dictLegal 16384 = true := by decide
/-- The legal bounds; 0 and 20000 are no powers of two; 1 and 2; the powers of two from 2^15 on. -/
theorem witness_ValidateDictSortsEveryValue :
    dictLegal 4 = true ∧ dictLegal 16384 = true ∧ (¬∃ k, (0 : Word).toNat = 2 ^ k) ∧ (¬∃ k, (20000 : Word).toNat = 2 ^ k) ∧
    (1 : Word).toNat = 1 ∧ (2 : Word).toNat = 2 ∧ (∃ k, 15 ≤ k ∧ (32768 : Word).toNat = 2 ^ k) ∧
    ∃ k, 15 ≤ k ∧ (0x80000000 : Word).toNat = 2 ^ k :=
  ⟨by decide, by decide, (powerOfTwo_test 0).1 (by decide), (powerOfTwo_test 20000).1 (by decide), by decide, by decide,
    ⟨15, by decide⟩, ⟨31, by decide⟩⟩
theorem witness_MatchLenCountsEqualBytes :
    (Instr.matchLen 0 3 6).wellFormed = true ∧ Answers encoding (encoding.op.src.toNat + 0) (3 - 0 + 6) := by decide
/-- With no candidate, and with one. -/
theorem witness_MatchSearchFindsTheLongestClosest :
    2 < encoding.op.len.toNat ∧ 3 < encoding.op.len.toNat ∧ encoding.op.bufferBad = false ∧ encoding.plat.holes = [] ∧
    3 ≤ encoding.op.maxOff := by decide
/-- A string element, at position 3. -/
theorem witness_EncodeStepEmitsFlagThenPayload_string :
    let u := after (exec (.matchSearch encoding.enc.cur.toNat) encoding)
    let v := after (exec (.emitFlag true) { u with result := encoding.result })
    (encoding.fsm = .enc ∧ u.fsm = .enc ∧ u.result = .offLen 3 6 ∧ v.fsm = .enc ∧ 2 < 6) ∧
    exec (.matchSearch encoding.enc.cur.toNat) encoding = .next u ∧
    exec (.emitFlag (decide (2 < 6))) { u with result := encoding.result } = .next v ∧
    exec (.emitString 3 6) v = .next (after (exec (.emitString 3 6) v)) ∧ (after (exec (.emitString 3 6) v)).fsm = .enc :=
  ⟨by decide, next_after (by decide), next_after (by decide), next_after (by decide), by decide⟩
/-- A literal element, at position 2. -/
theorem witness_EncodeStepEmitsFlagThenPayload_literal :
    let s : State := { encoding with enc := { encoding.enc with cur := 2, b := { encoding.enc.b with acc := 0x4241, pos := 2 } } }
    let u := after (exec (.matchSearch s.enc.cur.toNat) s)
    let v := after (exec (.emitFlag false) { u with result := s.result })
    let w := after (exec (.emitLiteral (v.mem.read (s.op.src.toNat + s.enc.cur.toNat))) v)
    (s.fsm = .enc ∧ u.fsm = .enc ∧ u.result = .offLen 0 0 ∧ v.fsm = .enc ∧ w.fsm = .enc) ∧
    exec (.matchSearch s.enc.cur.toNat) s = .next u ∧ exec (.emitFlag (decide (2 < 0))) { u with result := s.result } = .next v ∧
    exec (.emitLiteral (v.mem.read (s.op.src.toNat + s.enc.cur.toNat))) v = .next w ∧
    Answers s (s.op.src.toNat + s.enc.cur.toNat) 1 :=
  ⟨by decide, next_after (by decide), next_after (by decide), next_after (by decide), by decide⟩
/-- A capacity that two more slots exactly fill. -/
theorem witness_EncodeStepCompletesAndAdvances :
    let s : State := { encoding with op := { encoding.op with cap := 24 } }
    s.fsm = .enc ∧ s.mem.wf ∧ EncRun s ∧ s.plat.holes = [] ∧ s.enc.cur.toNat < s.op.len.toNat ∧ s.enc.wc.toNat + 8 ≤ s.op.cap.toNat :=
  ⟨rfl, by decide, ⟨by decide, by decide, by decide, by decide, by decide, by decide, by decide, by decide, by decide, by decide,
    by decide, by decide, by decide, by decide⟩, rfl, by decide, by decide⟩
theorem compressing_canCompress : CanCompress compressing := by decide
/-- 8 + 8 * 9 is 80, and nine bytes in a region of exactly 80. -/
theorem witness_CompressBodyCompletesWithRoom :
    let s : State := { compressing with op := { compressing.op with cap := 80 } }
    CanCompress s ∧ 8 + 8 * s.op.len.toNat ≤ s.op.cap.toNat := by decide
/-- The bound of R260 for nine bytes is 8 + 4 * (1 + 3) + 4 = 28; P1 completes in a region of exactly 20. -/
theorem witness_CompressedSizeBound :
    (let s : State := { compressing with op := { compressing.op with cap := 28 } }
     CanCompress s ∧ s.regs.done = false ∧
      8 + 4 * ((s.op.len.toNat + 31) / 32 + (s.op.len.toNat + 3) / 4) + (if 6 ≤ s.op.len.toNat then 4 else 0) ≤ s.op.cap.toNat) ∧
    (let s : State := { compressing with op := { compressing.op with cap := 20 } }
     (CanCompress s ∧ s.regs.done = false ∧ (after (exec .compressBody s)).regs.done = true) ∧
      exec .compressBody s = .next (after (exec .compressBody s))) :=
  ⟨by decide, by decide, next_after (by decide)⟩

/-- A word that ends at the end of the input, and one byte less. -/
theorem witness_RefillsReadTheNextStreamWord :
    (decodingString.dec.rc.toNat + 4 ≤ decodingString.op.len.toNat ∧
      Answers decodingString (decodingString.op.src.toNat + decodingString.dec.rc.toNat) 4) ∧
    (let s : State := { decodingString with op := { decodingString.op with len := 19 } }
     s.op.len.toNat < s.dec.rc.toNat + 4) := by decide
/-- Only the last byte of the word at 0x2010 does not answer. -/
theorem witness_RefillsReadTheNextStreamWord_busError :
    let s : State := { decodingString with plat := { Platform.plain with holes := [⟨0x2013, 0x2014⟩] } }
    s.dec.rc.toNat + 4 ≤ s.op.len.toNat ∧ s.op.src.toNat + s.dec.rc.toNat + 4 ≤ 2 ^ 32 ∧
    ∃ i < 4, memOk s.plat (s.op.src.toNat + s.dec.rc.toNat + i) = false :=
  ⟨by decide, by decide, 3, by decide, by decide⟩
theorem witness_StringChecksInOrder :
    (3 ≤ decodingString.dec.o.toNat ∧ 6 ≤ decodingString.dec.rem.toNat) ∧ decodingString.dec.o.toNat < 4 ∧
    decodingString.dec.rem.toNat < 7 := by decide
theorem witness_WindowCopyRepeatsTheWindow :
    decodingString.mem.wf ∧ 3 ≤ decodingString.dec.o.toNat ∧ 6 ≤ decodingString.dec.rem.toNat ∧
    decodingString.dec.o.toNat + decodingString.dec.rem.toNat < 2 ^ 32 ∧
    Answers decodingString (decodingString.op.dst.toNat + decodingString.dec.o.toNat - 3) (3 + 6) := by decide
/-- With the byte word at hand, and with a refill. -/
theorem witness_LiteralElementAppendsTheByte :
    (let s := decoding
     s.mem.wf ∧ (s.dec.bLeft = 0 → CanReadWord s) ∧ Answers s (s.op.dst.toNat + s.dec.o.toNat) 1 ∧
      s.dec.o.toNat + s.dec.rem.toNat < 2 ^ 32 ∧ 0 < s.dec.rem.toNat) ∧
    (let s : State := { decoding with dec := { decoding.dec with bLeft := 0 } }
     s.mem.wf ∧ (s.dec.bLeft = 0 → CanReadWord s) ∧ Answers s (s.op.dst.toNat + s.dec.o.toNat) 1 ∧
      s.dec.o.toNat + s.dec.rem.toNat < 2 ^ 32 ∧ 0 < s.dec.rem.toNat) := by decide
/-- No word left for the refill; an output byte that does not answer, with and without a refill before it. -/
theorem witness_LiteralElementAppendsTheByte_errors :
    (let s : State := { decoding with op := { decoding.op with len := 19 }, dec := { decoding.dec with bLeft := 0 } }
     s.dec.bLeft = 0 ∧ s.op.len.toNat < s.dec.rc.toNat + 4) ∧
    (let s : State := { decoding with plat := { Platform.plain with holes := [⟨0x3002, 0x3003⟩] } }
     let u : State := { s with dec := { s.dec with bLeft := 0 } }
     (s.dec.bLeft = 0 → CanReadWord s) ∧ memOk s.plat (s.op.dst.toNat + s.dec.o.toNat) = false ∧
      (u.dec.bLeft = 0 → CanReadWord u) ∧ memOk u.plat (u.op.dst.toNat + u.dec.o.toNat) = false) := by decide
/-- No word left; a token one past the window; a token one longer than what remains. -/
theorem witness_StringElementCopiesFromTheWindow_errors :
    let off (s : State) := (StringWordNow s).toNat % 2 ^ 16 % s.op.d.toNat + 3
    let len (s : State) := (StringWordNow s).toNat % 2 ^ 16 / s.op.d.toNat + 3
    (let s : State := { decodingString with op := { decodingString.op with len := 19 } }
     s.dec.sLeft = 0 ∧ s.op.len.toNat < s.dec.rc.toNat + 4) ∧
    (let s : State := { decodingString with dec := { decodingString.dec with o := 2 } }
     DecParams s.op ∧ (s.dec.sLeft = 0 → CanReadWord s) ∧ s.dec.o.toNat + 1 = off s) ∧
    (let s : State := { decodingString with dec := { decodingString.dec with rem := 5 } }
     DecParams s.op ∧ (s.dec.sLeft = 0 → CanReadWord s) ∧ off s ≤ s.dec.o.toNat ∧ s.dec.rem.toNat + 1 = len s) := by
  refine ⟨by decide, by decide, by decide⟩
/-- Program P2's string element: the window and the remaining length are exactly filled. -/
theorem witness_StringElementCopiesFromTheWindow :
    let s := decodingString
    let tok := (StringWordNow s).toNat % 2 ^ 16
    let off := tok % s.op.d.toNat + 3
    let len := tok / s.op.d.toNat + 3
    (s.mem.wf ∧ DecParams s.op ∧ (s.dec.sLeft = 0 → CanReadWord s) ∧ s.dec.o.toNat + s.dec.rem.toNat < 2 ^ 32) ∧
    off = s.dec.o.toNat ∧ len = s.dec.rem.toNat ∧ Answers s (s.op.dst.toNat + s.dec.o.toNat - off) (off + len) := by
  refine ⟨by decide, by decide, by decide, by decide⟩
theorem witness_FlagAdvanceReadsNothing :
    let s : State := { decoding with dec := { decoding.dec with fIdx := 31 } }; s.dec.fIdx.val < 32 := by decide
/-- The string at flag 3, and a flag word just exhausted. -/
theorem witness_DecodeStepFollowsTheFlagBit :
    (let s := decodingString
     let t := after (exec (decodeElement (s.dec.fWord.getLsbD s.dec.fIdx.val)) s)
     s.fsm = .dec ∧ 0 < s.dec.rem.toNat ∧ s.dec.fIdx.val < 32 ∧ t.fsm = .dec) ∧
    (let s : State := { decodingString with dec := { decodingString.dec with rc := 8, fIdx := 32 } }
     let t := after (exec .flagRefill s)
     s.fsm = .dec ∧ 0 < s.dec.rem.toNat ∧ s.dec.fIdx.val = 32 ∧ t.fsm = .dec) := by decide
theorem witness_DecodeStepFollowsTheFlagBit_next :
    exec (decodeElement (decodingString.dec.fWord.getLsbD decodingString.dec.fIdx.val)) decodingString =
      .next (after (exec .str decodingString)) := next_after (by decide)
/-- An element, and a refill of the flag word, that end in an error. -/
theorem witness_DecodeStepFollowsTheFlagBit_errors :
    (let s : State := { decodingString with dec := { decodingString.dec with o := 2 } }
     let t := after (exec (decodeElement (s.dec.fWord.getLsbD s.dec.fIdx.val)) s)
     (s.fsm = .dec ∧ 0 < s.dec.rem.toNat ∧ s.dec.fIdx.val < 32 ∧ t.fsm ≠ .dec) ∧ exec .str s = .next (after (exec .str s))) ∧
    (let s : State := { decodingString with dec := { decodingString.dec with rc := 20, fIdx := 32 } }
     let t := after (exec .flagRefill s)
     (s.fsm = .dec ∧ 0 < s.dec.rem.toNat ∧ s.dec.fIdx.val = 32 ∧ t.fsm ≠ .dec) ∧
      exec .flagRefill s = .next (after (exec .flagRefill s))) :=
  ⟨⟨by decide, next_after (by decide)⟩, by decide, next_after (by decide)⟩
theorem witness_DecodeStepCompletesOnALiteral :
    let s := decoding
    s.mem.wf ∧ s.dec.fIdx.val < 32 ∧ s.dec.fWord.getLsbD s.dec.fIdx.val = false ∧ 0 < s.dec.bLeft.val ∧ 0 < s.dec.rem.toNat ∧
    s.dec.o.toNat + s.dec.rem.toNat < 2 ^ 32 ∧ Answers s (s.op.dst.toNat + s.dec.o.toNat) 1 := by decide
/-- "ABC" as three literals, the input region ending with their byte word, the capacity 3. -/
theorem witness_DecompressBodyDecodesLiterals :
    let s : State := { decompressing with
      mem := memOf (bytesFrom 0x2000 [3, 0, 0, 0, 16, 0, 0, 0, 0xF8, 0, 0, 0, 0x41, 0x42, 0x43, 0])
      op := { decompressing.op with len := 16, cap := 3 } }
    (s.mem.wf ∧ s.op.bufferBad = false ∧ s.plat.holes = [] ∧ s.plat.devices = []) ∧ dictLegal (wordAt s (s.op.src.toNat + 4)) = true ∧
    (wordAt s s.op.src.toNat).toNat = 3 ∧ 3 ≤ s.op.cap.toNat ∧ 12 + 4 * ((3 + 3) / 4) ≤ s.op.len.toNat ∧
    ∀ i < 3, (wordAt s (s.op.src.toNat + 8)).getLsbD i = false := by
  refine ⟨by decide, by decide, by decide, by decide, by decide, by decide⟩

/-- Regions that wrap by one byte, or overlap in one byte; adjacent, empty and topmost regions are good. -/
theorem witness_regions :
    let s (src len dst cap : Word) : State := { compressing with op := { compressing.op with src := src, len := len, dst := dst, cap := cap } }
    (RegionsBad (s 0xFFFFFFF8 9 0x2000 8) ∧ RegionsBad (s 0x1000 8 0xFFFFFFF8 9) ∧ RegionsBad (s 0x1000 9 0x1008 8) ∧
      RegionsBad (s 0x1007 9 0x1000 8)) ∧
    ¬RegionsBad (s 0x1000 8 0x1008 8) ∧ ¬RegionsBad (s 0x1008 8 0x1000 8) ∧ ¬RegionsBad (s 0x1004 0 0x1000 8) ∧
    ¬RegionsBad (s 0x1000 8 0x1004 0) ∧ ¬RegionsBad (s 0xFFFFFFF8 8 0x1000 8) := by decide
/-- Each clause of the start checks of DECOMPRESS; the header unreadable. -/
theorem witness_DecompressStartChecksInOrder :
    let s := decompressing
    (s.fsm = .dec ∧ s.abortReq = false ∧ s.phase = .start ∧ s.plat.holes = [] ∧ s.plat.devices = []) ∧
    RegionsBad { s with op := { s.op with dst := 0x2013 } } ∧ (¬RegionsBad { s with op := { s.op with len := 7 } } ∧ (7 : Word).toNat < 8) ∧
    (¬RegionsBad s ∧ 8 ≤ s.op.len.toNat ∧ dictError (wordAt s (s.op.src.toNat + 4)) = none ∧
      (wordAt s s.op.src.toNat).toNat ≤ s.op.cap.toNat ∧ (8 : Word).toNat < (wordAt s s.op.src.toNat).toNat) ∧
    dictError (wordAt { s with mem := s.mem.write 0x2004 6 } (s.op.src.toNat + 4)) = some .invalidDictionary ∧
    (noInput.fsm = .dec ∧ noInput.abortReq = false ∧ noInput.phase = .start ∧
      exec .step noInput = .next (recordError .busError (noInput.setFresh 1))) :=
  ⟨by decide, by decide, by decide, by decide, by decide, rfl, rfl, rfl, test_decompress_busError_writes_nothing⟩
/-- Each clause of the start checks of COMPRESS; they pass with a capacity of 8; the output region's first byte does not answer. -/
theorem witness_CompressStartChecksInOrder :
    let s := compressing
    let u : State := { s with op := { s.op with cap := 8 } }
    (s.fsm = .enc ∧ s.abortReq = false ∧ s.phase = .start ∧ s.plat.holes = [] ∧ s.plat.devices = []) ∧
    RegionsBad { s with op := { s.op with dst := 0x1008 } } ∧ ¬RegionsBad s ∧ dictError 0 = some .invalidDictionary ∧
    (¬RegionsBad { s with op := { s.op with cap := 7 } } ∧ dictError s.op.d = none ∧ (7 : Word).toNat < 8) ∧
    (¬RegionsBad u ∧ dictLegal u.op.d = true ∧ 8 ≤ u.op.cap.toNat ∧ u.mem.wf) ∧
    (noOutput.fsm = .enc ∧ noOutput.abortReq = false ∧ noOutput.phase = .start ∧ memOk noOutput.plat noOutput.op.dst.toNat = false ∧
      exec .step noOutput = .next (after (exec .step noOutput))) :=
  ⟨by decide, by decide, by decide, by decide, by decide, by decide, rfl, rfl, rfl, by decide, next_after (by decide)⟩

/-- One encoding of each kind of thing that is encoded. -/
theorem witness_DecodeUndoesEncode :
    ((Instr.configWrite .dstCap 64).wellFormed = true ∧ (encode 0x40000000 (.configWrite .dstCap 64)).isSome = true) ∧
    ((Instr.header 9 16).wellFormed = true ∧ (encode 0x40000000 (.header 9 16)).isSome = true) ∧
    (Instr.str.wellFormed = true ∧ encode 0x40000000 .str = some (.element true)) := by decide

theorem compressing_inv : Inv compressing := ⟨by decide, by decide, by decide, by decide, by decide, nofun⟩
theorem encoding_inv : Inv encoding := ⟨by decide, by decide, by decide, by decide, fun _ _ => encoding_encRun, nofun⟩
theorem encoded_inv : Inv encoded := ⟨by decide, by decide, by decide, by decide, fun _ _ => encoded_encRun, nofun⟩
theorem decoding_inv : Inv decoding := ⟨by decide, by decide, by decide, by decide, nofun, fun _ _ => decoding_decRun⟩
theorem witness_StepKeepsInvariant :
    (Inv encoding ∧ step encoding = .next (after (step encoding))) ∧ (Inv decoding ∧ step decoding = .next (after (step decoding))) :=
  ⟨⟨encoding_inv, next_after (by decide)⟩, decoding_inv, next_after (by decide)⟩
/-- A step that completes, and one that the model refuses. -/
theorem witness_InvariantExcludesFaults :
    (Inv encoded ∧ step encoded = .next (after (step encoded))) ∧
    (step (withEvent (.agentWrite 0x1008 0) encoding) = .refused .regionsUntouchedWhileBusy) :=
  ⟨⟨encoded_inv, next_after (by decide)⟩, rfl⟩
theorem witness_BlockWritesOnlyItsOutputRegion :
    Inv encoded ∧ exec .step encoded = .next (after (exec .step encoded)) ∧ encoded.op.inOutput 0x1FFF = false ∧
    encoded.op.inOutput 0x2040 = false :=
  ⟨encoded_inv, next_after (by decide), by decide, by decide⟩
theorem witness_EveryOperationTerminates :
    Inv compressing ∧ compressing.fsm ≠ .idle ∧ compressing.inbox = [] ∧ compressing.plat.devices = [] :=
  ⟨compressing_inv, by decide, by decide, by decide⟩
theorem witness_StepsPerformTheBodies :
    (compressing.phase = .start ∧ compressing.abortReq = false ∧ compressing.inbox = [] ∧ compressing.fsm = .enc) ∧
    (decompressing.phase = .start ∧ decompressing.abortReq = false ∧ decompressing.inbox = [] ∧ decompressing.fsm = .dec) ∧
    exec .compressBody compressing = .next (after (exec .compressBody compressing)) ∧
    exec .decompressBody decompressing = .next (after (exec .decompressBody decompressing)) :=
  ⟨by decide, by decide, next_after (by decide), next_after (by decide)⟩
/-- Programs P1 and P2. -/
theorem witness_DecompressUndoesCompress :
    let t := after (exec .compressBody compressing)
    (CanCompress compressing ∧ compressing.regs.done = false ∧ t.regs.done = true ∧ exec .compressBody compressing = .next t) ∧
    (decompressing.mem.wf ∧ decompressing.op.bufferBad = false ∧ decompressing.plat.holes = [] ∧ decompressing.plat.devices = []) ∧
    decompressing.op.len = t.regs.resultLen ∧ compressing.op.len.toNat ≤ decompressing.op.cap.toNat ∧
    ∀ i < t.regs.resultLen.toNat,
      decompressing.mem.read (decompressing.op.src.toNat + i) = t.mem.read (compressing.op.dst.toNat + i) := by
  refine ⟨⟨by decide, by decide, by decide, next_after (by decide)⟩, by decide, by decide, by decide, by decide⟩
theorem witness_EarlyBusErrorIsTheOnlyOtherOutcome :
    (let s := withHole encoding
     s.abortReq = false ∧ s.phase = .loop ∧ inputHasHole s.plat s.op = true ∧ s.fsm = .enc ∧ s.enc.cur.toNat < s.op.len.toNat) ∧
    (let s := withHole decoding
     s.abortReq = false ∧ s.phase = .loop ∧ inputHasHole s.plat s.op = true ∧ s.fsm = .dec ∧ 0 < s.dec.rem.toNat) ∧
    (let s := withHole decoded; inputHasHole s.plat s.op = true ∧ s.fsm = .dec ∧ s.dec.rem.toNat = 0) := by
  refine ⟨by decide, by decide, by decide⟩
/-- A write to the last byte of the input, one to the first byte of the output, and a start step with a device in the output region. -/
theorem witness_HostDutiesAreRefusedByName :
    (encoding.fsm ≠ .idle ∧ encoding.op.inInput 0x1008 = true ∧ encoding.op.inOutput 0x2000 = true) ∧
    (let s : State := { compressing with plat := { Platform.plain with devices := [⟨0x203F, 0x3000⟩] } }
     s.fsm ≠ .idle ∧ s.abortReq = false ∧ s.phase = .start ∧ s.op.bufferBad = false ∧ regionsOrdinary s.plat s.op = false) := by
  refine ⟨by decide, by decide⟩
theorem witness_DecompressIgnoresDictLen : decoding.fsm = .dec ∧ exec .step decoding = .next (after (exec .step decoding)) :=
  ⟨rfl, next_after (by decide)⟩

end Sys2Proof.Tests
end

section
/-! What a step of the running operation changes at most, said once for every operation of the datapath: the frame. -/

namespace Sys2Proof.Machine

open Sys2Proof Sys2Proof.Safety

/-! ## The frame of a step -/

/-- `s` with the values of `t` wherever the rules of a running operation write: the header registers, the derived parameters, the
datapath, memory, and the count of free values. -/
def State.withStepOf (s t : State) : State :=
  { s with
    regs := { s.regs with hdrUlen := t.regs.hdrUlen, hdrDict := t.regs.hdrDict }
    op := { t.op with src := s.op.src, len := s.op.len, dst := s.op.dst, cap := s.op.cap }
    enc := t.enc, dec := t.dec, mem := t.mem, fresh := t.fresh }

/-- `t` is `s` but for what the rules of a running operation write, and memory outside the output region is as it was. -/
structure StepFrame (s t : State) : Prop where
  eq : t = s.withStepOf t
  outside : ∀ b, s.op.inOutput b = false → t.mem.read b = s.mem.read b
  memoryOk : MemoryOk s → MemoryOk t

/-- A step after the start step also leaves the parameters and the host registers. -/
structure DatapathOnly (s t : State) : Prop extends StepFrame s t where
  op : t.op = s.op
  regs : t.regs = s.regs

/-- What an operation that starts in `s` and raises `e` has left: a step's frame, and an error that is one (R221). -/
def Raised (s : State) (e : ErrorCode) (t : State) : Prop := e ≠ .noError ∧ StepFrame s t

namespace StepFrame

variable {s t u : State}

theorem of_same_mem (eq : t = s.withStepOf t) (hm : t.mem = s.mem) (hf : s.fresh ≤ t.fresh) : StepFrame s t :=
  ⟨eq, fun _ _ => by rw [hm], fun h => ⟨hm ▸ h.1, fun u hu => (h.2 u (hm ▸ hu)).trans_le hf⟩⟩

theorem refl (s : State) : StepFrame s s := of_same_mem rfl rfl le_rfl

theorem setFresh (s : State) {g : Nat} (hg : s.fresh ≤ g) : StepFrame s (s.setFresh g) := of_same_mem rfl rfl hg

theorem fsm (h : StepFrame s t) : t.fsm = s.fsm := congrArg (·.fsm) h.eq
theorem phase (h : StepFrame s t) : t.phase = s.phase := congrArg (·.phase) h.eq
theorem len (h : StepFrame s t) : t.op.len = s.op.len := congrArg (·.op.len) h.eq
theorem inOutput (h : StepFrame s t) : t.op.inOutput = s.op.inOutput := congrArg (·.op.inOutput) h.eq

theorem trans (h : StepFrame s t) (k : StepFrame t u) : StepFrame s u where
  eq := k.eq.trans (congrArg (·.withStepOf u) h.eq)
  outside b hb := (k.outside b (by rw [h.inOutput, hb])).trans (h.outside b hb)
  memoryOk hs := k.memoryOk (h.memoryOk hs)

/-- An error after a part of the rule is an error of the rule. -/
theorem raised (h : StepFrame s t) {e : ErrorCode} (k : Raised t e u) : Raised s e u := ⟨k.1, h.trans k.2⟩

/-- The next part of a rule, and what follows it. -/
theorem bind {α β : Type} {x : Res α} {f : α → State → Res β} {P : α → State → Prop} {Q : β → State → Prop}
    (h : StepFrame s t) (hx : x.All P (Raised t)) (hf : ∀ a u, P a u → (f a u).All Q (Raised s)) : (x.bind f).All Q (Raised s) :=
  (hx.mono (fun _ _ => id) fun _ _ => h.raised).bind hf

end StepFrame

namespace DatapathOnly

variable {s t u : State}

theorem setEnc (s : State) (e : EncRegs) : DatapathOnly s (s.setEnc e) := ⟨.of_same_mem rfl rfl le_rfl, rfl, rfl⟩

theorem setDec (s : State) (d : DecRegs) : DatapathOnly s (s.setDec d) := ⟨.of_same_mem rfl rfl le_rfl, rfl, rfl⟩

theorem setFresh (s : State) {g : Nat} (hg : s.fresh ≤ g) : DatapathOnly s (s.setFresh g) := ⟨.setFresh s hg, rfl, rfl⟩

theorem refl (s : State) : DatapathOnly s s := ⟨.refl s, rfl, rfl⟩

theorem trans (h : DatapathOnly s t) (k : DatapathOnly t u) : DatapathOnly s u :=
  ⟨h.toStepFrame.trans k.toStepFrame, k.op.trans h.op, k.regs.trans h.regs⟩

end DatapathOnly

/-- Writes inside the output region are in the frame. -/
theorem OnlyMemory.datapathOnly {s t : State} {a n : Nat} (h : OnlyMemory s t a n) (ha : s.op.dst.toNat ≤ a)
    (hn : a + n ≤ s.op.dstEnd) : DatapathOnly s t := by
  have hout : ∀ b, s.op.inOutput b = false → t.mem.read b = s.mem.read b := fun b hb => by
    have : ¬(s.op.dst.toNat ≤ b ∧ b < s.op.dstEnd) := by simpa [OpParams.inOutput] using hb
    exact h.same b (by omega)
  have hwf := h.wf
  have hgen := h.gen
  obtain ⟨m, rfl⟩ : ∃ m, t = s.setMem m := ⟨_, h.eq⟩
  exact ⟨⟨rfl, hout, fun hs => ⟨hwf hs.1, hgen _ hs.2⟩⟩, rfl, rfl⟩

theorem OnlyMemory.writeWord (s : State) {a : Nat} (ha : a + 4 ≤ Config.addressSpace) (v : Word) :
    OnlyMemory s (s.setMem (s.mem.writeWord a v)) a 4 :=
  ⟨rfl, fun b hb => Memory.read_writeWord_outside _ _ b v hb, fun hw => Memory.wf_writeWord hw ha v,
    fun _ hg => Memory.gen_writeWord hg⟩

/-- A word written inside the output region: stored, or BusError. -/
theorem memWrite4_frame {s : State} {a : Nat} (v : Word) (hd : s.op.dstEnd ≤ Config.addressSpace) (ha : s.op.dst.toNat ≤ a)
    (hn : a + 4 ≤ s.op.dstEnd) :
    (memWrite4 a v s).All (fun _ t => DatapathOnly s t ∧ ∃ m, t = s.setMem m) (Raised s) :=
  (memWrite4_all (hn.trans hd) v).mono
    (fun _ _ ht => by subst ht; exact ⟨(OnlyMemory.writeWord s (hn.trans hd) v).datapathOnly ha hn, _, rfl⟩)
    (fun _ _ ⟨he, ht⟩ => ⟨by simp [he], (ht.datapathOnly ha hn).toStepFrame⟩)

/-- The regions that pass the buffer check lie in the address space (R66). -/
theorem regions_fit {op : OpParams} (h : op.bufferBad = false) :
    op.srcEnd ≤ Config.addressSpace ∧ op.dstEnd ≤ Config.addressSpace := by
  simp only [OpParams.bufferBad, Bool.or_eq_false_iff, decide_eq_false_iff_not] at h
  omega

theorem prefetch_frame (s : State) :
    (prefetch s).All (fun _ t => ∃ g, s.fresh ≤ g ∧ t = s.setFresh g) (Raised s) :=
  (prefetch_all s).mono (fun _ _ => id) fun _ _ ⟨he, _, hg, ht⟩ => ht ▸ ⟨by simp [he], .setFresh s hg⟩

/-! ## Reads inside the address space (R60, R61) -/

/-- Everything a read inside the address space can answer: a value with `Q`, or that memory does not answer. -/
def Access.All {α : Type} (x : Access α) (Q : α → Prop) : Prop :=
  match x with
  | .ok a => Q a
  | .busError => True
  | .outside => False

theorem Access.All.bind {α β : Type} {x : Access α} {f : α → Access β} {P : α → Prop} {Q : β → Prop} (hx : x.All P)
    (hf : ∀ a, P a → (f a).All Q) : (x.bind f).All Q := by
  cases x with
  | ok a => exact hf a hx
  | busError => exact hx
  | outside => exact hx

theorem Access.All.toRes {α : Type} {x : Access α} {Q : α → Prop} (hx : x.All Q) (s : State) :
    (x.toRes s).All (fun a t => Q a ∧ t = s) (Raised s) := by
  cases x with
  | ok a => exact ⟨hx, rfl⟩
  | busError => exact ⟨by decide, .refl s⟩
  | outside => exact hx

theorem memRead1_all {s : State} {a : Nat} (ha : a < Config.addressSpace) : (memRead1 s a).All (· = s.mem.read a) := by
  rcases memRead1_cases (s := s) ha with ⟨-, h⟩ | ⟨-, h⟩ <;> rw [h]
  · exact rfl
  · trivial

theorem memRead4_all {s : State} {a : Nat} (ha : a + 4 ≤ Config.addressSpace) : (memRead4 s a).All (· = wordAt s a) := by
  rcases memRead4_cases (s := s) ha with h | h <;> rw [h]
  · exact rfl
  · trivial

end Sys2Proof.Machine
end

section
/-! The packer inside its output region (R120 to R126): every slot it opens and flushes lies between the header and the write
cursor. -/

namespace Sys2Proof.Machine

open Sys2Proof Sys2Proof.Safety

/-- `st.kPos`. -/
def EncRegs.posOf (e : EncRegs) : SubStream → Nat
  | .flags => e.f.pos.val
  | .strings => e.s.pos.val
  | .bytes => e.b.pos.val

/-- The packer's part of `EncRun`, said of the sub-streams by name. -/
structure PackerOk (op : OpParams) (e : EncRegs) : Prop where
  wc_ge : 8 ≤ e.wc.toNat
  wc_le : e.wc.toNat ≤ op.cap.toNat
  wc_mod : e.wc.toNat % 4 = 0
  pos : ∀ k, e.openOf k = false → e.posOf k = 0
  slot : ∀ k, e.openOf k = true → 8 ≤ (e.slotOf k).toNat ∧ (e.slotOf k).toNat % 4 = 0 ∧ (e.slotOf k).toNat + 4 ≤ e.wc.toNat
  apart : ∀ j k, j ≠ k → e.openOf j = true → e.openOf k = true → e.slotOf j ≠ e.slotOf k

theorem packerOk_of_encRun {s : State} (h : EncRun s) : PackerOk s.op s.enc := by
  obtain ⟨-, -, -, hge, hle, hmod, hf, hs, hb, hfs, hfb, hsb, -, -⟩ := h
  refine ⟨hge, hle, hmod, fun k => ?_, fun k => ?_, fun j k hjk hj hk => ?_⟩
  · cases k; exacts [hf.1, hs.1, hb.1]
  · cases k; exacts [hf.2, hs.2, hb.2]
  · cases j <;> cases k
    exacts [absurd rfl hjk, hfs hj hk, hfb hj hk, (hfs hk hj).symm, absurd rfl hjk, hsb hj hk, (hfb hk hj).symm,
      (hsb hk hj).symm, absurd rfl hjk]

/-- A running COMPRESS goes on running while only the datapath changes and the packer and the read cursor stay in range. -/
theorem encRun_of_packerOk {s t : State} (h : EncRun s) (hd : DatapathOnly s t) (hp : PackerOk s.op t.enc)
    (hc : t.enc.cur.toNat ≤ s.op.len.toNat) : EncRun t := by
  obtain ⟨hbuf, hpar, -, -, -, -, -, -, -, -, -, -, hlen, hdict⟩ := h
  unfold EncRun
  rw [hd.op, hd.regs]
  exact ⟨hbuf, hpar, hc, hp.wc_ge, hp.wc_le, hp.wc_mod, ⟨hp.pos .flags, hp.slot .flags⟩, ⟨hp.pos .strings, hp.slot .strings⟩,
    ⟨hp.pos .bytes, hp.slot .bytes⟩, hp.apart .flags .strings nofun, hp.apart .flags .bytes nofun,
    hp.apart .strings .bytes nofun, hlen, hdict⟩

/-- The packer is its write cursor and its three words. -/
theorem PackerOk.congr {op : OpParams} {e e' : EncRegs} (h : PackerOk op e) (hwc : e'.wc = e.wc) (hf : e'.f = e.f)
    (hs : e'.s = e.s) (hb : e'.b = e.b) : PackerOk op e' := by
  have hopen : e'.openOf = e.openOf := funext fun k => by cases k <;> simp [EncRegs.openOf, hf, hs, hb]
  have hslot : e'.slotOf = e.slotOf := funext fun k => by cases k <;> simp [EncRegs.slotOf, hf, hs, hb]
  have hpos : e'.posOf = e.posOf := funext fun k => by cases k <;> simp [EncRegs.posOf, hf, hs, hb]
  exact ⟨hwc ▸ h.wc_ge, hwc ▸ h.wc_le, hwc ▸ h.wc_mod, hopen ▸ hpos ▸ h.pos, hopen ▸ hslot ▸ hwc ▸ h.slot,
    hopen ▸ hslot ▸ h.apart⟩

/-- What an operation of the packer leaves: the packer in range, the read cursor where it was. -/
structure Packed (s t : State) : Prop extends DatapathOnly s t where
  packer : PackerOk s.op t.enc
  cur : t.enc.cur = s.enc.cur

theorem Packed.trans {s t u : State} (h : Packed s t) (k : Packed t u) : Packed s u :=
  ⟨h.toDatapathOnly.trans k.toDatapathOnly, h.op ▸ k.packer, k.cur.trans h.cur⟩

/-- A rule of the packer after others. -/
theorem Packed.after {α : Type} {x : Res α} {s t : State} (h : Packed s t) (hx : x.All (fun _ u => Packed t u) (Raised t)) :
    x.All (fun _ u => Packed s u) (Raised s) := hx.mono (fun _ _ => h.trans) fun _ _ => h.raised

/-- The next operation of the packer in a rule, and what follows it. -/
theorem Packed.bind {α β : Type} {x : Res α} {f : α → State → Res β} {Q : β → State → Prop} {s t : State}
    (h : Packed s t) (hx : x.All (fun _ u => Packed t u) (Raised t)) (hf : ∀ a u, Packed s u → (f a u).All Q (Raised s)) :
    (x.bind f).All Q (Raised s) := h.toStepFrame.bind hx fun a u hu => hf a u (h.trans hu)

theorem Packed.refl {s : State} (h : PackerOk s.op s.enc) : Packed s s := ⟨.refl s, h, rfl⟩

/-! ## FLUSH (R122) and FINISH (R126) -/

theorem EncRegs.openOf_closeOf (e : EncRegs) (j k : SubStream) :
    (e.closeOf k).openOf j = if j = k then false else e.openOf j := by cases j <;> cases k <;> rfl

theorem EncRegs.posOf_closeOf (e : EncRegs) (j k : SubStream) :
    (e.closeOf k).posOf j = if j = k then 0 else e.posOf j := by cases j <;> cases k <;> rfl

@[simp] theorem EncRegs.slotOf_closeOf (e : EncRegs) (j k : SubStream) : (e.closeOf k).slotOf j = e.slotOf j := by
  cases j <;> cases k <;> rfl

@[simp] theorem EncRegs.wc_closeOf (e : EncRegs) (k : SubStream) : (e.closeOf k).wc = e.wc := by cases k <;> rfl
@[simp] theorem EncRegs.cur_closeOf (e : EncRegs) (k : SubStream) : (e.closeOf k).cur = e.cur := by cases k <;> rfl

theorem PackerOk.closeOf {op : OpParams} {e : EncRegs} (h : PackerOk op e) (k : SubStream) : PackerOk op (e.closeOf k) where
  wc_ge := by simpa using h.wc_ge
  wc_le := by simpa using h.wc_le
  wc_mod := by simpa using h.wc_mod
  pos j := by
    rw [EncRegs.openOf_closeOf, EncRegs.posOf_closeOf]
    split
    · exact fun _ => rfl
    · exact h.pos j
  slot j hj := by
    rw [EncRegs.openOf_closeOf] at hj
    simpa using h.slot j (by simp_all)
  apart i j hij hi hj := by
    rw [EncRegs.openOf_closeOf] at hi hj
    simpa using h.apart i j hij (by simp_all) (by simp_all)

/-- FLUSH of an open word. -/
theorem flushOp_packed {s : State} {k : SubStream} (hd : s.op.dstEnd ≤ Config.addressSpace) (hp : PackerOk s.op s.enc)
    (ho : s.enc.openOf k = true) : (flushOp k s).All (fun _ t => Packed s t) (Raised s) := by
  have hn : s.op.dst.toNat + (s.enc.slotOf k).toNat + 4 ≤ s.op.dstEnd := by
    have := hp.slot k ho
    have := hp.wc_le
    unfold OpParams.dstEnd
    omega
  refine (memWrite4_frame _ hd (Nat.le_add_right _ _) hn).bind fun _ t ⟨ht, m, hm⟩ => ?_
  subst hm
  exact ⟨ht.trans (.setEnc _ _), hp.closeOf k, EncRegs.cur_closeOf _ k⟩

theorem flushIfOpen_packed {s : State} (k : SubStream) (hd : s.op.dstEnd ≤ Config.addressSpace) (hp : PackerOk s.op s.enc) :
    (flushIfOpen k s).All (fun _ t => Packed s t) (Raised s) := by
  unfold flushIfOpen
  split
  · rename_i ho; exact flushOp_packed hd hp ho
  · exact .refl hp

theorem finishOp_packed {s : State} (hd : s.op.dstEnd ≤ Config.addressSpace) (hp : PackerOk s.op s.enc) :
    (finishOp s).All (fun _ t => Packed s t) (Raised s) := by
  refine (flushIfOpen_packed .flags hd hp).bind fun _ t ht => ?_
  refine ht.bind (flushIfOpen_packed .bytes (ht.op ▸ hd) (ht.op ▸ ht.packer)) fun _ u hu => ?_
  exact hu.after (flushIfOpen_packed .strings (hu.op ▸ hd) (hu.op ▸ hu.packer))

/-! ## RESERVE (R121) -/

@[simp] theorem EncRegs.openOf_wc (e : EncRegs) (w : Word) (k : SubStream) :
    ({ e with wc := w } : EncRegs).openOf k = e.openOf k := by cases k <;> rfl

@[simp] theorem EncRegs.slotOf_wc (e : EncRegs) (w : Word) (k : SubStream) :
    ({ e with wc := w } : EncRegs).slotOf k = e.slotOf k := by cases k <;> rfl

@[simp] theorem EncRegs.posOf_wc (e : EncRegs) (w : Word) (k : SubStream) :
    ({ e with wc := w } : EncRegs).posOf k = e.posOf k := by cases k <;> rfl

/-- A cursor that stays within a 32-bit bound does not wrap (R121, R172). -/
theorem toNat_reserve {w c : Word} (h : w.toNat + 4 ≤ c.toNat) : (w + 4).toNat = w.toNat + 4 := by bv_omega

theorem PackerOk.reserve {op : OpParams} {e : EncRegs} (h : PackerOk op e) (hroom : e.wc.toNat + 4 ≤ op.cap.toNat) :
    PackerOk op { e with wc := e.wc + 4 } := by
  have hge := h.wc_ge
  have hmod := h.wc_mod
  have hwc := toNat_reserve hroom
  refine ⟨by simp only; omega, by simp only; omega, by simp only; omega, fun k => ?_, fun k => ?_, fun j k => ?_⟩
  · simpa using h.pos k
  · simp only [EncRegs.openOf_wc, EncRegs.slotOf_wc]
    intro hk
    have := h.slot k hk
    omega
  · simpa using h.apart j k

/-! ## Emitting an element (R123 to R125) -/

/-- `get` and `set` are the accumulator of sub-stream `k`. -/
structure IsWordOf {cap : Nat} (k : SubStream) (get : EncRegs → Accum cap) (set : EncRegs → Accum cap → EncRegs) : Prop where
  get_set : ∀ e a, get (set e a) = a
  get_open : ∀ e, (get e).isOpen = e.openOf k
  get_slot : ∀ e, (get e).slot = e.slotOf k
  wc_set : ∀ e a, (set e a).wc = e.wc
  cur_set : ∀ e a, (set e a).cur = e.cur
  openOf_set : ∀ e a j, (set e a).openOf j = if j = k then a.isOpen else e.openOf j
  slotOf_set : ∀ e a j, (set e a).slotOf j = if j = k then a.slot else e.slotOf j
  posOf_set : ∀ e a j, (set e a).posOf j = if j = k then a.pos.val else e.posOf j

theorem isWordOf_flags : IsWordOf .flags (fun e => e.f) (fun e a => { e with f := a }) :=
  ⟨fun _ _ => rfl, fun _ => rfl, fun _ => rfl, fun _ _ => rfl, fun _ _ => rfl, fun _ _ j => by cases j <;> rfl,
    fun _ _ j => by cases j <;> rfl, fun _ _ j => by cases j <;> rfl⟩

theorem isWordOf_strings : IsWordOf .strings (fun e => e.s) (fun e a => { e with s := a }) :=
  ⟨fun _ _ => rfl, fun _ => rfl, fun _ => rfl, fun _ _ => rfl, fun _ _ => rfl, fun _ _ j => by cases j <;> rfl,
    fun _ _ j => by cases j <;> rfl, fun _ _ j => by cases j <;> rfl⟩

theorem isWordOf_bytes : IsWordOf .bytes (fun e => e.b) (fun e a => { e with b := a }) :=
  ⟨fun _ _ => rfl, fun _ => rfl, fun _ => rfl, fun _ _ => rfl, fun _ _ => rfl, fun _ _ j => by cases j <;> rfl,
    fun _ _ j => by cases j <;> rfl, fun _ _ j => by cases j <;> rfl⟩

section

variable {cap : Nat} {k : SubStream} {get : EncRegs → Accum cap} {set : EncRegs → Accum cap → EncRegs}

/-- An open word whose slot is in range and no other open word's. -/
theorem IsWordOf.packerOk_set (hw : IsWordOf k get set) {op : OpParams} {e : EncRegs} (h : PackerOk op e) {a : Accum cap}
    (ha : a.isOpen = true) (hs : 8 ≤ a.slot.toNat ∧ a.slot.toNat % 4 = 0 ∧ a.slot.toNat + 4 ≤ e.wc.toNat)
    (hother : ∀ j, j ≠ k → e.openOf j = true → a.slot ≠ e.slotOf j) : PackerOk op (set e a) where
  wc_ge := hw.wc_set e a ▸ h.wc_ge
  wc_le := hw.wc_set e a ▸ h.wc_le
  wc_mod := hw.wc_set e a ▸ h.wc_mod
  pos j := by
    rw [hw.openOf_set, hw.posOf_set]
    split
    · simp [ha]
    · exact h.pos j
  slot j := by
    rw [hw.openOf_set, hw.slotOf_set, hw.wc_set]
    split
    · exact fun _ => hs
    · exact h.slot j
  apart i j hij := by
    rw [hw.openOf_set, hw.openOf_set, hw.slotOf_set, hw.slotOf_set]
    split
    · rename_i hi
      rw [if_neg (hi ▸ hij.symm), if_neg (hi ▸ hij.symm)]
      exact fun _ hj => hother j (hi ▸ hij.symm) hj
    · rename_i hi
      split
      · exact fun hi' _ => (hother i hi hi').symm
      · exact h.apart i j hij

/-- An open word takes an element: its slot is kept. -/
theorem IsWordOf.packerOk_put (hw : IsWordOf k get set) {op : OpParams} {e : EncRegs} (h : PackerOk op e)
    (he : (get e).isOpen = true) {a : Accum cap} (ha : a.isOpen = true) (hs : a.slot = (get e).slot) : PackerOk op (set e a) := by
  have hk : e.openOf k = true := hw.get_open e ▸ he
  rw [hw.get_slot] at hs
  exact hw.packerOk_set h ha (hs ▸ h.slot k hk) fun j hj ho => hs ▸ h.apart k j hj.symm hk ho

/-- A word opened in the slot just reserved. -/
theorem IsWordOf.packerOk_opened [NeZero cap] (hw : IsWordOf k get set) {op : OpParams} {e : EncRegs} (h : PackerOk op e)
    (hroom : e.wc.toNat + 4 ≤ op.cap.toNat) : PackerOk op (set { e with wc := e.wc + 4 } (Accum.opened e.wc)) := by
  refine hw.packerOk_set (h.reserve hroom) rfl ⟨h.wc_ge, h.wc_mod, (toNat_reserve hroom).ge⟩ fun j _ ho heq => ?_
  rw [EncRegs.openOf_wc] at ho
  rw [EncRegs.slotOf_wc] at heq
  have := h.slot j ho
  rw [← heq] at this
  exact absurd this.2.2 (by simp [Accum.opened])

/-- Emitting an element keeps the packer in range. -/
theorem IsWordOf.emitOn_packed [NeZero cap] (hw : IsWordOf k get set) (width : Nat) (v : Word) {s : State}
    (hd : s.op.dstEnd ≤ Config.addressSpace) (hp : PackerOk s.op s.enc) :
    (emitOn k get set width v s).All (fun _ t => Packed s t) (Raised s) := by
  have hopened : (if (get s.enc).isOpen then Res.ok () s
      else (reserveOp s).bind fun slot t => .ok () (t.setEnc (set t.enc (Accum.opened slot)))).All
        (fun _ t => Packed s t ∧ (get t.enc).isOpen = true) (Raised s) := by
    split
    · rename_i ho; exact ⟨.refl hp, ho⟩
    · refine ((reserveOp_all s).mono (fun _ _ => id) fun _ _ ⟨_, he, ht⟩ => by subst he ht; exact ⟨by decide, .refl _⟩).bind
        fun slot t ⟨hroom, hslot, ht⟩ => ?_
      subst hslot ht
      refine ⟨⟨.setEnc s _, hw.packerOk_opened hp hroom, hw.cur_set _ _⟩, ?_⟩
      simp only [State.setEnc_enc, hw.get_set]
      rfl
  refine hopened.bind fun _ t ⟨ht, ho⟩ => ?_
  have hput : ∀ a : Accum cap, a.isOpen = true → a.slot = (get t.enc).slot → Packed s (t.setEnc (set t.enc a)) := fun a ha hs =>
    ht.trans ⟨.setEnc t _, hw.packerOk_put (ht.op ▸ ht.packer) ho ha hs, hw.cur_set _ _⟩
  dsimp only
  split
  · exact hput _ ho rfl
  · have hu := hput ((get t.enc).put width v) ho rfl
    refine hu.after (flushOp_packed (k := k) (hu.op ▸ hd) (hu.op ▸ hu.packer) ?_)
    rw [State.setEnc_enc, hw.openOf_set, if_pos rfl]
    exact ho

end

section

variable {s : State} (hd : s.op.dstEnd ≤ Config.addressSpace) (hp : PackerOk s.op s.enc)

include hd hp

theorem emitFlagOp_packed (b : Bool) : (emitFlagOp b s).All (fun _ t => Packed s t) (Raised s) :=
  isWordOf_flags.emitOn_packed _ _ hd hp

theorem emitLiteralOp_packed (v : Byte) : (emitLiteralOp v s).All (fun _ t => Packed s t) (Raised s) :=
  isWordOf_bytes.emitOn_packed _ _ hd hp

/-- EMIT_STRING of a match in the range of R146. -/
theorem emitStringOp_packed {offset length : Nat} (ho : 3 ≤ offset ∧ offset ≤ s.op.maxOff)
    (hl : 3 ≤ length ∧ length ≤ s.op.maxLen) :
    (emitStringOp offset length s).All (fun _ t => Packed s t) (Raised s) := by
  unfold emitStringOp tokenPackOp
  rw [assertRange_pos ⟨ho.1, ho.2, hl⟩, Res.bind_ok]
  exact isWordOf_strings.emitOn_packed _ _ hd hp

end

end Sys2Proof.Machine
end

section
/-! The encoder inside its regions (R140 to R149): what the match search reads and finds, the element step, the end step and the start
step of COMPRESS. -/

namespace Sys2Proof.Machine

open Sys2Proof Sys2Proof.Safety

/-! ## The match search (R143, R144) -/

/-- What a search with these limits has found, as (length, offset): nothing, or a match in range. -/
def MatchIn (maxOff lim : Nat) (m : Nat × Nat) : Prop := m.1 ≤ lim ∧ (0 < m.1 → 3 ≤ m.2 ∧ m.2 ≤ maxOff)

theorem matchRun_all {s : State} {a b lim : Nat} (ha : a + lim ≤ Config.addressSpace) (hb : b + lim ≤ Config.addressSpace) :
    (matchRun s a b lim).All (· ≤ lim) := by
  induction lim generalizing a b with
  | zero => exact Nat.le_refl 0
  | succ lim ih =>
    refine (memRead1_all (by omega)).bind fun x _ => (memRead1_all (by omega)).bind fun y _ => ?_
    split
    · exact (ih (by omega) (by omega)).bind fun l hl => Nat.succ_le_succ hl
    · exact Nat.zero_le _

/-- The scan, from a candidate on: every candidate lies at least 3 and at most `maxOff` before `cur`. -/
theorem searchFrom_all {s : State} {cur lim maxOff count start : Nat} {best : Nat × Nat}
    (hlim : s.op.src.toNat + cur + lim ≤ Config.addressSpace) (hlast : count ≠ 0 → start + count + 2 ≤ cur)
    (hfirst : cur ≤ start + maxOff) (hbest : MatchIn maxOff lim best) :
    (searchFrom s cur lim count start best).All (MatchIn maxOff lim) := by
  induction count generalizing start best with
  | zero => exact hbest
  | succ count ih =>
    have hstart := hlast (Nat.succ_ne_zero count)
    refine (matchRun_all (by omega) hlim).bind fun l hl => ih (fun _ => by omega) (by omega) ?_
    split
    · exact ⟨hl, fun _ => by dsimp only; omega⟩
    · exact hbest

theorem findMatch_all {s : State} {cur : Nat} (hs : s.op.srcEnd ≤ Config.addressSpace) (hc : cur ≤ s.op.len.toNat) :
    (findMatch s cur).All (MatchIn s.op.maxOff (matchLimit s.op cur)) := by
  refine searchFrom_all ?_ ?_ ?_ ⟨Nat.zero_le _, nofun⟩
  · unfold OpParams.srcEnd at hs
    unfold matchLimit
    omega
  · unfold candidateCount firstCandidate; omega
  · unfold firstCandidate; omega

theorem matchSearchOp_all {s : State} {cur : Nat} (hs : s.op.srcEnd ≤ Config.addressSpace) (hc : cur < s.op.len.toNat)
    (hp : PackerOk s.op s.enc) :
    (matchSearchOp cur s).All (fun m t => MatchIn s.op.maxOff (matchLimit s.op cur) m ∧ Packed s t) (Raised s) := by
  refine Res.all_assertRange hc (((findMatch_all hs hc.le).toRes s).bind fun m t ⟨hm, ht⟩ => ?_)
  subst ht
  exact ⟨hm, .setEnc t _, hp.congr rfl rfl rfl rfl, rfl⟩

/-! ## ENCODE_STEP (R147) -/

/-- What an element step of COMPRESS leaves: it runs on, and the read cursor has gone up. -/
structure Encoded (s t : State) : Prop extends DatapathOnly s t where
  run : EncRun t
  cur : s.enc.cur.toNat < t.enc.cur.toNat

theorem encoded_advanceCur {s t : State} (h : EncRun s) (ht : Packed s t) {k : Nat} (hk : 0 < k)
    (hle : s.enc.cur.toNat + k ≤ s.op.len.toNat) : Encoded s (advanceCur k t) := by
  have hcur : (advanceCur k t).enc.cur.toNat = s.enc.cur.toNat + k := by
    have := s.op.len.isLt
    simp only [advanceCur, State.setEnc_enc, ht.cur, BitVec.toNat_add, BitVec.toNat_ofNat]
    omega
  have hd : DatapathOnly s (advanceCur k t) := ht.toDatapathOnly.trans (.setEnc t _)
  exact ⟨hd, encRun_of_packerOk h hd (ht.packer.congr rfl rfl rfl rfl) (by omega), by omega⟩

theorem encodeStepOp_all {s : State} (h : EncRun s) (hc : s.enc.cur.toNat < s.op.len.toNat) :
    (encodeStepOp s).All (fun _ t => Encoded s t) (Raised s) := by
  obtain ⟨hs, hd⟩ := regions_fit h.1
  refine (matchSearchOp_all hs hc (packerOk_of_encRun h)).bind fun m t ⟨⟨hlim, hoff⟩, ht⟩ => ?_
  have hlen : m.1 ≤ s.op.maxLen ∧ m.1 ≤ s.op.len.toNat - s.enc.cur.toNat := by simpa [matchLimit] using hlim
  have hflag := fun b => emitFlagOp_packed (ht.op ▸ hd) (ht.op ▸ ht.packer) b
  split
  · rename_i hlong
    refine ht.bind (hflag true) fun _ u hu => ?_
    have hoffset : 3 ≤ m.2 ∧ m.2 ≤ s.op.maxOff := hoff (by omega)
    have hlength : 3 ≤ m.1 ∧ m.1 ≤ s.op.maxLen := ⟨hlong, hlen.1⟩
    refine hu.bind (emitStringOp_packed (hu.op ▸ hd) (hu.op ▸ hu.packer) (hu.op ▸ hoffset) (hu.op ▸ hlength)) fun _ v hv => ?_
    exact encoded_advanceCur h hv (by omega) (by omega)
  · refine ht.bind (hflag false) fun _ u hu => ?_
    have haddr : u.op.src.toNat + u.enc.cur.toNat < Config.addressSpace := by
      rw [hu.op, hu.cur]
      unfold OpParams.srcEnd at hs
      omega
    refine hu.toStepFrame.bind ((memRead1_all haddr).toRes u) fun v w ⟨_, hw⟩ => ?_
    subst hw
    refine hu.bind (emitLiteralOp_packed (hu.op ▸ hd) (hu.op ▸ hu.packer) v) fun _ x hx => ?_
    exact encoded_advanceCur h hx Nat.one_pos hc

/-! ## The steps after the start step (R148, R211) -/

/-- What the last step of an operation leaves: its own frame, and COMPLETE (R210). -/
def Completed (s t : State) : Prop := ∃ u r, StepFrame s u ∧ t = completeOp r u

theorem encEndStep_all {s : State} (h : EncRun s) : (encEndStep s).All (fun _ t => Completed s t) (Raised s) :=
  (finishOp_packed (regions_fit h.1).2 (packerOk_of_encRun h)).bind fun _ t ht => ⟨t, _, ht.toStepFrame, rfl⟩

/-- A step of COMPRESS after its start step is an element, the end, or an error. -/
theorem encLoopStep_all {s : State} (h : EncRun s) :
    (encLoopStep s).All (fun _ t => Encoded s t ∨ Completed s t) (Raised s) := by
  refine (prefetch_frame s).bind fun _ t ⟨g, hg, ht⟩ => ?_
  subst ht
  have hf := DatapathOnly.setFresh s hg
  split
  · rename_i hc
    exact (encodeStepOp_all (s := s.setFresh g) h hc).mono
      (fun _ u hu => .inl ⟨hf.trans hu.toDatapathOnly, hu.run, hu.cur⟩) fun _ _ => hf.raised
  · exact (encEndStep_all (s := s.setFresh g) h).mono
      (fun _ u ⟨v, r, hv, hu⟩ => .inr ⟨v, r, hf.toStepFrame.trans hv, hu⟩) fun _ _ => hf.raised

/-! ## The start step (R148) -/

theorem checkRegions_all (s : State) :
    (checkRegions s).All (fun _ t => s.op.bufferBad = false ∧ t = s) (Raised s) := by
  unfold checkRegions
  split
  · exact ⟨by decide, .refl s⟩
  · rename_i hb
    split
    · exact ⟨by simpa using hb, rfl⟩
    · exact rfl

theorem dictError_ne_noError (d : Word) : dictError d ≠ some .noError := by
  unfold dictError
  split_ifs <;> simp

theorem validateDictOp_all (d : Word) (s : State) :
    (validateDictOp d s).All (fun _ t => dictError d = none ∧ t = s) (Raised s) := by
  unfold validateDictOp
  split
  · rename_i e he
    exact ⟨fun h => dictError_ne_noError d (h ▸ he), .refl s⟩
  · rename_i he; exact ⟨he, rfl⟩

theorem two_pow_log2_of_dictLegal {d : Word} (h : dictLegal d = true) : 2 ^ Nat.log2 d.toNat = d.toNat := by
  obtain ⟨k, -, -, hk⟩ := (dictLegal_iff d).1 h
  rw [hk, Nat.log2_two_pow]

theorem encStartChecks_all (s : State) :
    (encStartChecks s).All
      (fun _ t => StepFrame s t ∧ t.op.bufferBad = false ∧ EncParams t.op ∧ 8 ≤ t.op.cap.toNat) (Raised s) := by
  refine (checkRegions_all s).bind fun _ t ⟨hbuf, ht⟩ => ?_
  subst ht
  refine (prefetch_frame t).bind fun _ u ⟨g, hg, hu⟩ => ?_
  subst hu
  have hf := StepFrame.setFresh t hg
  refine hf.bind (validateDictOp_all _ _) fun _ v ⟨hdict, hv⟩ => ?_
  subst hv
  split
  · exact ⟨by decide, hf⟩
  · rename_i hcap
    have hlegal := (dictError_eq_none _).1 hdict
    refine Res.all_assertRange hdict ⟨.of_same_mem rfl rfl hg, hbuf, ⟨hlegal, two_pow_log2_of_dictLegal hlegal, rfl, rfl⟩, ?_⟩
    exact Nat.le_of_not_lt hcap

theorem recordHeader_frame (n d : Word) (s : State) : StepFrame s (recordHeader n d s) := .of_same_mem rfl rfl le_rfl

/-- WRITE_HEADER in the start step, in an output region that has room for it. -/
theorem encStartHeader_all {s : State} (hd : s.op.dstEnd ≤ Config.addressSpace) (hcap : 8 ≤ s.op.cap.toNat) :
    (encStartHeader s).All
      (fun _ t => StepFrame s t ∧ t.op = s.op ∧ t.regs.hdrUlen = s.op.len ∧ t.regs.hdrDict = s.op.d) (Raised s) := by
  unfold encStartHeader
  split
  · refine (prefetch_frame s).bind fun _ t ⟨g, hg, ht⟩ => ?_
    subst ht
    have hf := DatapathOnly.setFresh s hg
    have hend : s.op.dst.toNat + 8 ≤ s.op.dstEnd := Nat.add_le_add_left hcap _
    have hfirst : s.op.dst.toNat + 4 ≤ s.op.dstEnd := by omega
    refine hf.toStepFrame.bind (memWrite4_frame (s := s.setFresh g) _ hd le_rfl hfirst) fun _ u ⟨hu, m, hm⟩ => ?_
    subst hm
    have hu := hf.trans hu
    refine hu.toStepFrame.bind (memWrite4_frame (s := (s.setFresh g).setMem m) _ hd (Nat.le_add_right _ 4) hend)
      fun _ v ⟨hv, m', hm'⟩ => ?_
    subst hm'
    exact ⟨(hu.trans hv).toStepFrame.trans (recordHeader_frame _ _ _), rfl, rfl, rfl⟩
  · exact ⟨by decide, .refl s⟩

/-- COMPRESS's start step, if it raises nothing, leaves a running COMPRESS at its first element. -/
theorem encStartStep_all (s : State) : (encStartStep s).All (fun _ t => StepFrame s t ∧ EncRun t) (Raised s) := by
  refine (encStartChecks_all s).beforeWrites.bind fun _ t ⟨ht, hbuf, hpar, hcap⟩ => ?_
  refine ht.bind (encStartHeader_all (regions_fit hbuf).2 hcap) fun _ u ⟨hu, hop, hlen, hdict⟩ => ?_
  have hu := ht.trans hu
  have hi : StepFrame s ((packerInitOp u).setEnc { (packerInitOp u).enc with cur := 0 }) := hu.trans (.of_same_mem rfl rfl le_rfl)
  refine (prefetch_frame _).mono (fun _ v ⟨g, hg, hv⟩ => ?_) fun _ _ => hi.raised
  subst hv
  refine ⟨hi.trans (.setFresh _ hg), ?_⟩
  rw [← hop] at hbuf hpar hcap hlen hdict
  exact ⟨hbuf, hpar, Nat.zero_le _, le_rfl, hcap, (by decide : 8 % 4 = 0), ⟨fun _ => rfl, nofun⟩, ⟨fun _ => rfl, nofun⟩,
    ⟨fun _ => rfl, nofun⟩, nofun, nofun, nofun, hlen, hdict⟩

end Sys2Proof.Machine
end

section
/-! The decoder inside its regions (R170 to R186): what the refills read and the elements write, the element step, the end step and the
start step of DECOMPRESS. -/

namespace Sys2Proof.Machine

open Sys2Proof Sys2Proof.Safety

/-- What a part of a decoder's element step leaves that has put out `k` bytes: it runs on, at the same flag. -/
structure Decoded (k : Nat) (s t : State) : Prop extends DatapathOnly s t where
  run : DecRun t
  rem : t.dec.rem.toNat + k = s.dec.rem.toNat
  fIdx : t.dec.fIdx = s.dec.fIdx

theorem Decoded.refl {s : State} (h : DecRun s) : Decoded 0 s s := ⟨.refl s, h, rfl, rfl⟩

theorem Decoded.trans {i j : Nat} {s t u : State} (h : Decoded i s t) (k : Decoded j t u) : Decoded (i + j) s u :=
  ⟨h.toDatapathOnly.trans k.toDatapathOnly, k.run, by have := h.rem; have := k.rem; omega, k.fIdx.trans h.fIdx⟩

/-- A change of the current words is no change of the cursors. -/
theorem Decoded.setDec {k : Nat} {s t : State} (h : Decoded k s t) {d : DecRegs} (hrc : d.rc = t.dec.rc) (ho : d.o = t.dec.o)
    (hrem : d.rem = t.dec.rem) (hf : d.fIdx = t.dec.fIdx) : Decoded k s (t.setDec d) := by
  refine ⟨h.toDatapathOnly.trans (.setDec t d), ?_, ?_, hf.trans h.fIdx⟩
  · simpa only [DecRun, State.setDec_dec, State.setDec_op, State.setDec_regs, hrc, ho, hrem] using h.run
  · rw [State.setDec_dec, hrem, h.rem]

/-! ## The refills (R172, R173, R175, R180) -/

/-- READ_WORD of a running DECOMPRESS moves the read cursor inside the input region. -/
theorem readWordOp_decoded {s : State} (h : DecRun s) : (readWordOp s).All (fun _ t => Decoded 0 s t) (Raised s) := by
  refine (readWordOp_all (regions_fit h.1).1).mono (fun _ t ⟨hroom, _, ht⟩ => ?_) fun e t ⟨he, ht⟩ => ?_
  · obtain ⟨hbuf, hpar, hge, hle, hmod, hrest⟩ := h
    have hrc := toNat_reserve hroom
    subst ht
    refine ⟨.setDec s _, ⟨hbuf, hpar, ?_, ?_, ?_, hrest⟩, rfl, rfl⟩ <;> simp only [State.setDec_dec, State.setDec_op] <;> omega
  · subst ht
    exact ⟨by rcases he with ⟨rfl, -⟩ | rfl <;> decide, .refl t⟩

theorem flagRefillOp_all {s : State} (h : DecRun s) :
    (flagRefillOp s).All (fun _ t => DatapathOnly s t ∧ DecRun t ∧ t.dec.rem = s.dec.rem ∧ t.dec.fIdx = 0) (Raised s) :=
  (readWordOp_decoded h).bind fun _ _ ht =>
    ⟨ht.toDatapathOnly.trans (.setDec _ _), ht.run, BitVec.eq_of_toNat_eq ht.rem, rfl⟩

theorem stringRefillOp_decoded {s : State} (h : DecRun s) : (stringRefillOp s).All (fun _ t => Decoded 0 s t) (Raised s) :=
  (readWordOp_decoded h).bind fun _ _ ht => ht.setDec rfl rfl rfl rfl

theorem byteRefillOp_decoded {s : State} (h : DecRun s) : (byteRefillOp s).All (fun _ t => Decoded 0 s t) (Raised s) :=
  (readWordOp_decoded h).bind fun _ _ ht => ht.setDec rfl rfl rfl rfl

/-! ## The elements (R177 to R181) -/

/-- While bytes remain, the output cursor lies inside the output region (R186). -/
theorem output_in_region {s : State} (h : DecRun s) (hr : 0 < s.dec.rem.toNat) :
    s.op.dst.toNat + s.dec.o.toNat + 1 ≤ s.op.dstEnd ∧ s.dec.o.toNat + 1 < 2 ^ 32 := by
  obtain ⟨-, -, -, -, -, hn, hcap, -, -⟩ := h
  have := s.op.n.isLt
  unfold OpParams.dstEnd
  omega

theorem putOutput_decoded (v : Byte) {s : State} (h : DecRun s) (hr : 0 < s.dec.rem.toNat) :
    (putOutput v s).All (fun _ t => Decoded 1 s t) (Raised s) := by
  obtain ⟨hin, ho⟩ := output_in_region h hr
  have hd := (regions_fit h.1).2
  refine (putOutput_all v (by omega) ho hr).mono (fun _ t ht => ?_) fun e t ⟨he, ht⟩ => ?_
  · have hw : OnlyMemory s (s.setMem (s.mem.write (s.op.dst.toNat + s.dec.o.toNat) v)) (s.op.dst.toNat + s.dec.o.toNat) 1 :=
      (OnlyMemory.refl s _ _).write le_rfl (Nat.lt_succ_self _) (by omega) v
    have hrem : (s.dec.rem - 1).toNat + 1 = s.dec.rem.toNat := by bv_omega
    have ho' : (s.dec.o + 1).toNat = s.dec.o.toNat + 1 := by bv_omega
    obtain ⟨hbuf, hpar, hge, hle, hmod, hn, hrest⟩ := h
    subst ht
    refine ⟨(hw.datapathOnly (Nat.le_add_right _ _) hin).trans (.setDec _ _), ⟨hbuf, hpar, hge, hle, hmod, ?_, hrest⟩, hrem,
      rfl⟩
    simp only [State.setDec_dec, State.setDec_op, State.setMem_op]
    omega
  · subst he ht
    exact ⟨by decide, .refl t⟩

theorem copyBytes_decoded {offset k : Nat} {s : State} (h : DecRun s) (hoff : offset ≤ s.dec.o.toNat) (hk : k ≤ s.dec.rem.toNat) :
    (copyBytes offset k s).All (fun _ t => Decoded k s t) (Raised s) := by
  induction k generalizing s with
  | zero => exact .refl h
  | succ k ih =>
    obtain ⟨hin, -⟩ := output_in_region h (by omega)
    have hd := (regions_fit h.1).2
    refine ((memRead1_all (by omega)).toRes s).bind fun v t ⟨_, ht⟩ => ?_
    subst ht
    refine (putOutput_decoded v h (by omega)).bind fun _ u hu => ?_
    have hrem := hu.rem
    have hsum : u.dec.o.toNat + u.dec.rem.toNat = t.dec.o.toNat + t.dec.rem.toNat := by
      obtain ⟨-, -, -, -, -, hn, -⟩ := h
      obtain ⟨-, -, -, -, -, hn', -⟩ := hu.run
      rw [hn, hn', hu.op]
    refine (ih hu.run (by omega) (by omega)).mono (fun _ v hv => ?_) fun _ _ => hu.raised
    exact Nat.add_comm 1 k ▸ hu.trans hv

/-- A string element puts out at least the 3 bytes that its token says (R86, R179). -/
theorem stringElementOp_decoded {s : State} (h : DecRun s) :
    (stringElementOp s).All (fun _ t => ∃ k, 0 < k ∧ Decoded k s t) (Raised s) := by
  have hword : (if s.dec.sLeft.val = 0 then stringRefillOp s else .ok () s).All (fun _ t => Decoded 0 s t) (Raised s) := by
    split
    · exact stringRefillOp_decoded h
    · exact .refl h
  refine hword.bind fun _ t ht => ?_
  have hchecks (off len : Nat) :
      (stringChecksOp off len t).All (fun _ u => off ≤ t.dec.o.toNat ∧ len ≤ t.dec.rem.toNat ∧ u = t) (Raised t) :=
    (stringChecksOp_all off len t).mono (fun _ _ => id) fun _ _ ⟨he, hu⟩ => by
      subst hu; exact ⟨by rcases he with rfl | rfl <;> decide, .refl _⟩
  refine ht.toStepFrame.bind (hchecks _ _) fun _ u ⟨hoff, hlen, hu⟩ => ?_
  subst hu
  refine ht.toStepFrame.bind (Res.all_assertRange ⟨hoff, hlen⟩ (copyBytes_decoded ht.run hoff hlen)) fun _ v hv => ?_
  exact ⟨_, Nat.lt_add_left 0 (Nat.succ_pos _), ht.trans (hv.setDec rfl rfl rfl rfl)⟩

theorem literalElementOp_decoded {s : State} (h : DecRun s) (hr : 0 < s.dec.rem.toNat) :
    (literalElementOp s).All (fun _ t => ∃ k, 0 < k ∧ Decoded k s t) (Raised s) := by
  have hword : (if s.dec.bLeft.val = 0 then byteRefillOp s else .ok () s).All (fun _ t => Decoded 0 s t) (Raised s) := by
    split
    · exact byteRefillOp_decoded h
    · exact .refl h
  refine hword.bind fun _ t ht => ?_
  refine ht.toStepFrame.bind (putOutput_decoded _ ht.run (by have := ht.rem; omega)) fun _ u hu => ?_
  exact ⟨0 + 1, Nat.zero_lt_one, ht.trans (hu.setDec rfl rfl rfl rfl)⟩

/-! ## DECODE_STEP (R174) and the steps after the start step (R170, R211) -/

/-- What an element step of DECOMPRESS leaves: it runs on, and fewer bytes remain. -/
structure DecodedElement (s t : State) : Prop extends DatapathOnly s t where
  run : DecRun t
  rem : t.dec.rem.toNat < s.dec.rem.toNat

theorem decodeStepOp_all {s : State} (h : DecRun s) (hr : 0 < s.dec.rem.toNat) :
    (decodeStepOp s).All (fun _ t => DecodedElement s t) (Raised s) := by
  have hflag : (if s.dec.fIdx.val = 32 then flagRefillOp s else .ok () s).All
      (fun _ t => DatapathOnly s t ∧ DecRun t ∧ t.dec.rem = s.dec.rem ∧ t.dec.fIdx.val < 32) (Raised s) := by
    split
    · exact (flagRefillOp_all h).mono (fun _ t ⟨hd, hrun, hrem, hidx⟩ => ⟨hd, hrun, hrem, by rw [hidx]; decide⟩) fun _ _ => id
    · exact ⟨.refl s, h, rfl, by have := s.dec.fIdx.isLt; omega⟩
  refine Res.all_assertRange hr (hflag.bind fun _ t ⟨ht, hrun, hrem, hidx⟩ => ?_)
  have helem : (if t.dec.fWord.getLsbD t.dec.fIdx.val then stringElementOp t else literalElementOp t).All
      (fun _ u => ∃ k, 0 < k ∧ Decoded k t u) (Raised t) := by
    split
    · exact stringElementOp_decoded hrun
    · exact literalElementOp_decoded hrun (hrem ▸ hr)
  refine ht.toStepFrame.bind helem fun _ u ⟨k, hk, hu⟩ => ?_
  unfold flagAdvanceOp
  rw [dif_pos (by rw [hu.fIdx]; omega)]
  refine ⟨ht.trans (hu.toDatapathOnly.trans (.setDec _ _)), hu.run, ?_⟩
  have := hu.rem
  rw [← hrem]
  simp only [State.setDec_dec]
  omega

/-- A step of DECOMPRESS after its start step is an element, the end, or an error. -/
theorem decLoopStep_all {s : State} (h : DecRun s) :
    (decLoopStep s).All (fun _ t => DecodedElement s t ∨ Completed s t) (Raised s) := by
  refine (prefetch_frame s).bind fun _ t ⟨g, hg, ht⟩ => ?_
  subst ht
  have hf := DatapathOnly.setFresh s hg
  split
  · rename_i hr
    exact (decodeStepOp_all (s := s.setFresh g) h hr).mono (fun _ u hu => .inl ⟨hf.trans hu.toDatapathOnly, hu.run, hu.rem⟩)
      fun _ _ => hf.raised
  · exact .inr ⟨_, _, hf.toStepFrame, rfl⟩

/-! ## The start step (R170, R171) -/

theorem readHeaderOp_all {s : State} (hs : s.op.src.toNat + 8 ≤ Config.addressSpace) :
    (readHeaderOp s).All (fun nd t => t = recordHeader nd.1 nd.2 s) (Raised s) := by
  refine ((memRead4_all (by omega)).toRes s).bind fun n t ⟨_, ht⟩ => ?_
  subst ht
  refine ((memRead4_all (by omega)).toRes t).bind fun d u ⟨_, hu⟩ => ?_
  subst hu
  exact rfl

/-- DEC_INIT of a legal dictionary length, with the header recorded and room for the output. -/
theorem decInitOp_all {s : State} {n d : Word} (hdict : dictError d = none) (hbuf : s.op.bufferBad = false)
    (hlen : 8 ≤ s.op.len.toNat) (hcap : n.toNat ≤ s.op.cap.toNat) (hn : s.regs.hdrUlen = n) (hd : s.regs.hdrDict = d) :
    (decInitOp n d s).All (fun _ t => StepFrame s t ∧ DecRun t) (Raised s) := by
  have hlegal := (dictError_eq_none d).1 hdict
  have hls := two_pow_log2_of_dictLegal hlegal
  have hoff : (offsetMaskOf d).toNat = d.toNat - 1 := by
    have := Nat.two_pow_pos (Nat.log2 d.toNat)
    unfold offsetMaskOf
    bv_omega
  have hmask : (lengthMaskOf d).toNat = 2 ^ (16 - Nat.log2 d.toNat) - 1 := by
    have := Nat.pow_le_pow_right (n := 2) (by decide) (Nat.sub_le 16 (Nat.log2 d.toNat))
    exact Nat.mod_eq_of_lt (by omega)
  exact Res.all_assertRange hdict ⟨.of_same_mem rfl rfl le_rfl, hbuf, ⟨hlegal, hls, hoff, hmask⟩, le_rfl, hlen,
    (by decide : 8 % 4 = 0), Nat.zero_add _, hcap, hn, hd⟩

/-- DECOMPRESS's start step, if it raises nothing, leaves a running DECOMPRESS at its first element. -/
theorem decStartStep_all (s : State) : (decStartStep s).All (fun _ t => StepFrame s t ∧ DecRun t) (Raised s) := by
  refine Res.All.beforeWrites ((checkRegions_all s).bind fun _ t ⟨hbuf, ht⟩ => ?_)
  subst ht
  refine (prefetch_frame t).bind fun _ u ⟨g, hg, hu⟩ => ?_
  subst hu
  have hf := StepFrame.setFresh t hg
  split
  · exact ⟨by decide, hf⟩
  · rename_i hlen
    have hlen : 8 ≤ t.op.len.toNat := Nat.le_of_not_lt hlen
    have hs : t.op.src.toNat + 8 ≤ Config.addressSpace := (Nat.add_le_add_left hlen _).trans (regions_fit hbuf).1
    refine hf.bind (readHeaderOp_all (s := t.setFresh g) hs) fun nd v hv => ?_
    subst hv
    have hf := hf.trans (recordHeader_frame nd.1 nd.2 _)
    refine hf.bind (prefetch_frame _) fun _ w ⟨g', hg', hw⟩ => ?_
    subst hw
    have hf := hf.trans (.setFresh _ hg')
    refine hf.bind (validateDictOp_all _ _) fun _ x ⟨hdict, hx⟩ => ?_
    subst hx
    split
    · exact ⟨by decide, hf⟩
    · rename_i hcap
      exact (decInitOp_all (s := (recordHeader nd.1 nd.2 (t.setFresh g)).setFresh g') hdict hbuf hlen (Nat.le_of_not_lt hcap)
        rfl rfl).mono (fun _ y ⟨hy, hrun⟩ => ⟨hf.trans hy, hrun⟩) fun _ _ => hf.raised

end Sys2Proof.Machine
end

section
/-! What one step of the machine can end in, from a state that meets the invariant (R8, R211). -/

namespace Sys2Proof.Machine

open Sys2Proof Sys2Proof.Safety

/-- What a step of a running operation that raises nothing leaves: the operation complete, or running with fewer steps to go. -/
def Stepped (s t : State) : Prop :=
  Completed s t ∨
  ∃ u, StepFrame s u ∧ t = u.setPhase .loop ∧ (s.fsm = .enc → EncRun t) ∧ (s.fsm = .dec → DecRun t) ∧
    stepsLeft t < stepsLeft s

/-- Everything the start step can end in (R148, R170, R211). -/
theorem startStepOp_all {s : State} (hbusy : s.fsm ≠ .idle) (hphase : s.phase = .start) :
    ((startStepOp s).bind fun _ t => .ok () (t.setPhase .loop)).All (fun _ t => Stepped s t) (Raised s) := by
  unfold startStepOp
  split
  · rename_i hfsm
    refine (encStartStep_all s).bind fun _ t ⟨ht, hrun⟩ => .inr ⟨t, ht, rfl, fun _ => hrun, fun h => by simp [hfsm] at h, ?_⟩
    simp only [stepsLeft, State.setPhase_fsm, State.setPhase_phase, State.setPhase_op, ht.fsm, hfsm, hphase, ht.len]
    omega
  · rename_i hfsm
    refine (decStartStep_all s).bind fun _ t ⟨ht, hrun⟩ => .inr ⟨t, ht, rfl, fun h => by simp [hfsm] at h, fun _ => hrun, ?_⟩
    have := t.dec.rem.isLt
    simp only [stepsLeft, State.setPhase_fsm, State.setPhase_phase, State.setPhase_dec, ht.fsm, hfsm, hphase]
    omega
  · exact absurd ‹_› hbusy

/-- Everything a later step can end in (R147, R174, R211). -/
theorem loopStepOp_all {s : State} (h : Inv s) (hbusy : s.fsm ≠ .idle) (hphase : s.phase = .loop) :
    (loopStepOp s).All (fun _ t => Stepped s t) (Raised s) := by
  obtain ⟨-, -, -, -, henc, hdec⟩ := h
  have hloop {t : State} (ht : StepFrame s t) : t = t.setPhase .loop := by rw [← hphase, ← ht.phase]; rfl
  unfold loopStepOp
  split
  · rename_i hfsm
    refine (encLoopStep_all (henc hfsm hphase)).mono (fun _ t ht => ht.symm.imp id fun ht => ?_) fun _ _ => id
    refine ⟨t, ht.toStepFrame, hloop ht.toStepFrame, fun _ => ht.run, fun h => by simp [hfsm] at h, ?_⟩
    obtain ⟨-, -, hle, -⟩ := ht.run
    have hcur := ht.cur
    simp only [stepsLeft, ht.fsm, ht.phase, hfsm, hphase, ht.len] at hle ⊢
    omega
  · rename_i hfsm
    refine (decLoopStep_all (hdec hfsm hphase)).mono (fun _ t ht => ht.symm.imp id fun ht => ?_) fun _ _ => id
    refine ⟨t, ht.toStepFrame, hloop ht.toStepFrame, fun h => by simp [hfsm] at h, fun _ => ht.run, ?_⟩
    have hrem := ht.rem
    simp only [stepsLeft, ht.fsm, ht.phase, hfsm, hphase]
    omega
  · exact absurd ‹_› hbusy

/-- Everything a step of a running operation can end in: no fault, and no refusal but that of regions that are not ordinary memory
(R64). -/
theorem stepOp_all {s : State} (h : Inv s) (hbusy : s.fsm ≠ .idle) : (stepOp s).All (fun _ t => Stepped s t) (Raised s) := by
  unfold stepOp
  split
  · exact ⟨by decide, .refl s⟩
  · split
    · exact startStepOp_all hbusy ‹_›
    · exact loopStepOp_all h hbusy ‹_›

/-! ## One step of the machine -/

/-- The block's own step ends in a next state, or is refused for its regions (R64). -/
theorem exec_step_cases {s : State} (h : Inv s) :
    (∃ t, exec .step s = .next t) ∨ exec .step s = .refused .regionsAreOrdinaryMemory := by
  change (∃ t, execStep s = .next t) ∨ execStep s = .refused .regionsAreOrdinaryMemory
  unfold execStep
  split
  · exact .inl ⟨s, rfl⟩
  · rename_i hbusy
    have hall := (stepOp_all h hbusy).mono (Q := fun _ _ => True) (fun _ _ _ => trivial) fun _ _ => id
    exact (settle_all hall (fun _ _ _ => trivial) fun _ _ => trivial).imp (fun ⟨t, ht, _⟩ => ⟨t, ht⟩) id

/-- A register access, whatever it decodes to, ends in a next state (R200 to R209). -/
theorem busEvent_next (a : BusAccess) (s : State) : ∃ t, busEvent a s = .next t := by
  unfold busEvent decodeBus
  cases regAt s.plat.csrBase a.addr with
  | none => exact ⟨s, rfl⟩
  | some r =>
    cases a.isWrite with
    | false => exact ⟨_, rfl⟩
    | true =>
      cases r with
      | ctrl =>
        simp only [if_true, decodeWrite, decodeCtrl]
        split_ifs <;> exact ⟨_, rfl⟩
      | _ => exact ⟨_, rfl⟩

/-- Another agent's write ends in a next state, or is refused for the duty of R70. -/
theorem agentWriteEvent_cases (a : Word) (v : Byte) (s : State) :
    (∃ t, agentWriteEvent a v s = .next t) ∨ agentWriteEvent a v s = .refused .regionsUntouchedWhileBusy := by
  unfold agentWriteEvent
  split
  · exact .inr rfl
  · split <;> exact .inl ⟨_, rfl⟩

theorem agentReadEvent_next (a : Word) (s : State) : ∃ t, agentReadEvent a s = .next t := by
  unfold agentReadEvent
  split_ifs <;> exact ⟨_, rfl⟩

/-- A step ends in a next state, or in one of the two refusals that name a duty of the host (R64, R70). -/
theorem step_cases {s : State} (h : Inv s) :
    (∃ t, step s = .next t) ∨ step s = .refused .regionsUntouchedWhileBusy ∨ step s = .refused .regionsAreOrdinaryMemory := by
  unfold step runNext
  split
  · exact (exec_step_cases h).imp id .inr
  · rename_i e rest _
    have h : Inv (s.setInbox rest) := h
    cases e with
    | bus a => exact .inl (busEvent_next a _)
    | blockStep => exact (exec_step_cases h).imp id .inr
    | rst b => exact .inl ⟨_, rfl⟩
    | agentWrite a v => exact (agentWriteEvent_cases a v _).imp id .inl
    | agentRead a => exact .inl (agentReadEvent_next a _)

/-- Settles O53: of the three ways in which a step can end, none is a fault. -/
theorem invariantExcludesFaults : Obligations.InvariantExcludesFaults := by
  intro s h
  rcases step_cases h with ⟨t, ht⟩ | ht | ht <;> rw [ht]
  · exact ⟨nofun, nofun⟩
  · exact ⟨nofun, fun r hr => by cases hr; exact .inl rfl⟩
  · exact ⟨nofun, fun r hr => by cases hr; exact .inr rfl⟩

end Sys2Proof.Machine
end

section
/-! What a register access and a read of the interrupt output come to (R34, R36). -/

namespace Sys2Proof.Machine

open Sys2Proof Sys2Proof.Safety

/-! ## The reserved indices (R34) -/

/-- Indices 12 to 15. -/
def IsReserved (r : Reg) : Prop := r = .rsv12 ∨ r = .rsv13 ∨ r = .rsv14 ∨ r = .rsv15

theorem regValue_reserved {r : Reg} (h : IsReserved r) (s : State) : regValue s r = 0 := by
  rcases h with rfl | rfl | rfl | rfl <;> rfl

theorem hostRead_reserved {r : Reg} (h : IsReserved r) (s : State) : hostRead s r = 0 := by
  simp [hostRead, regValue_reserved h]

theorem writeConfig_reserved {r : Reg} (h : IsReserved r) (w : Word) (g : HostRegs) : writeConfig r w g = g := by
  rcases h with rfl | rfl | rfl | rfl <;> rfl

theorem exec_regRead (r : Reg) (s : State) : exec (.regRead r) s = .next (s.setRdata (hostRead s r)) := rfl

theorem exec_configWrite (r : Reg) (w : Word) (s : State) :
    exec (.configWrite r w) s = .next (portWrite s (whenIdle fun s => s.setRegs (writeConfig r w s.regs))) := rfl

/-- Where `f` changes nothing, neither does a host write that performs it (R250) when idle (R200). -/
theorem portWrite_whenIdle_of_fixed {f : State → State} {s : State} (h : f s = s) : portWrite s (whenIdle f) = s := by
  unfold portWrite whenIdle
  rw [h, ite_self, ite_self]

/-- Settles O7: a reserved index has the value 0 whatever `rst` is, and a configuration write to it stores the registers as they
are. -/
theorem reservedIndicesReadZeroAndIgnoreWrites : Obligations.ReservedIndicesReadZeroAndIgnoreWrites := by
  intro r v s hr
  refine ⟨?_, ?_⟩
  · rw [exec_regRead, hostRead_reserved hr]; rfl
  · rw [exec_configWrite, portWrite_whenIdle_of_fixed]
    rw [writeConfig_reserved hr]; rfl

/-! ## The interrupt output (R36) -/

theorem irq_iff (s : State) : s.irq = true ↔ s.regs.ie = true ∧ (s.regs.done = true ∨ s.regs.err = true) := by
  rw [State.irq, Bool.and_eq_true, Bool.or_eq_true]

/-- Settles O9: the formula of R36 names the three bits and nothing else. -/
theorem interruptIsEnableAndDoneOrError : Obligations.InterruptIsEnableAndDoneOrError := by
  refine ⟨irq_iff, fun s t hie hdone herr => ?_⟩
  rw [Bool.eq_iff_iff, irq_iff, irq_iff, hie, hdone, herr]

end Sys2Proof.Machine
end

section
/-! The invariant of the machine (R24, R30, R37 to R49, R51): each way in which a step changes the control part keeps it. -/

namespace Sys2Proof.Machine

open Sys2Proof Sys2Proof.Safety

theorem flagsOk_of_inv {s : State} (h : Inv s) : FlagsOk s := h.2.1

/-- Where `rst` is low, R250 asks nothing of the registers. -/
theorem resetOk_of_low {s : State} (h : s.rst = false) : ResetOk s := fun hr => Bool.noConfusion (h.symm.trans hr)

/-! ## An IDLE block -/

/-- Of an IDLE block the invariant says nothing of the operation. -/
theorem inv_of_idle {s : State} (hidle : s.fsm = .idle) (hm : MemoryOk s) (hf : FlagsOk s) (hr : ResetOk s) : Inv s :=
  ⟨hm, hf, hr, fun hbusy => absurd hidle hbusy, fun h => by simp [hidle] at h, fun h => by simp [hidle] at h⟩

/-- Settles O51: after reset memory lists nothing, the block is IDLE and the host registers hold their reset values. -/
theorem resetStateMeetsInvariant : Obligations.ResetStateMeetsInvariant :=
  inv_of_idle rfl ⟨Memory.wf_empty, nofun⟩ (by decide) (by decide)

/-- A level on `rst` (R250, R251): of the block's own state nothing but the reset values is left. -/
theorem inv_resetBlock {s : State} (h : Inv s) (asserted : Bool) : Inv (resetBlock asserted s) := by
  by_cases hreset : asserted = true ∨ s.rst = true
  · have hm := resetBlock_memoryOk asserted h.1
    rw [resetBlock_eq hreset] at hm ⊢
    exact inv_of_idle rfl hm (flagsOk_of_inv (s := State.reset) resetStateMeetsInvariant) fun _ => ⟨rfl, rfl⟩
  · have hlow : asserted = false ∧ s.rst = false := by simpa using hreset
    rw [hlow.1, resetBlock_low hlow.2]
    exact h

/-- Error entry writes the registers R235 names; that DONE is clear is what keeps it apart from ERR (R51 b). -/
theorem inv_recordError {s : State} {e : ErrorCode} (he : e ≠ .noError) (hm : MemoryOk s) (hdone : s.regs.done = false)
    (hrst : s.rst = false) : Inv (recordError e s) := by
  exact inv_of_idle rfl hm ⟨by simp [hdone], fun _ => rfl, fun hbusy => absurd rfl hbusy, fun _ => ⟨he, rfl⟩, by simp [hdone]⟩
    (resetOk_of_low hrst)

theorem inv_enterError {s : State} {e : ErrorCode} (he : e ≠ .noError) (hm : MemoryOk s) (hdone : s.regs.done = false)
    (hrst : s.rst = false) : Inv (enterError e s) := by
  unfold enterError
  split
  · exact inv_recordError he (spoilOutput_memoryOk hm) hdone hrst
  · exact inv_recordError he hm hdone hrst

/-- Completion sets DONE alone (R210). -/
theorem inv_completeOp {s : State} (r : Word) (hm : MemoryOk s) (herr : s.regs.err = false) (hcode : s.regs.errcode = .noError)
    (hrst : s.rst = false) : Inv (completeOp r s) := by
  exact inv_of_idle rfl hm ⟨by simp [herr], fun _ => rfl, fun hbusy => absurd rfl hbusy, by simp [herr], fun _ => hcode⟩
    (resetOk_of_low hrst)

/-! ## The block's own step -/

/-- What the invariant says of the control part while an operation runs (R51 c, R250). -/
structure Running (s : State) : Prop where
  memoryOk : MemoryOk s
  done : s.regs.done = false
  err : s.regs.err = false
  errcode : s.regs.errcode = .noError
  rst : s.rst = false

theorem running_of_inv {s : State} (h : Inv s) (hbusy : s.fsm ≠ .idle) : Running s := by
  obtain ⟨hm, ⟨-, -, hflags, -⟩, hreset, -⟩ := h
  obtain ⟨hdone, herr, hcode, -⟩ := hflags hbusy
  exact ⟨hm, hdone, herr, hcode, Bool.eq_false_of_not_eq_true fun hr => hbusy (hreset hr).1⟩

section

variable {s t : State}

theorem StepFrame.flagsOk (h : StepFrame s t) (hs : FlagsOk s) : FlagsOk t := by rw [h.eq]; exact hs

theorem StepFrame.running (h : StepFrame s t) (hs : Running s) : Running t :=
  ⟨h.memoryOk hs.memoryOk, by rw [h.eq]; exact hs.done, by rw [h.eq]; exact hs.err, by rw [h.eq]; exact hs.errcode,
    by rw [h.eq]; exact hs.rst⟩

theorem inv_recordError_of_raised {e : ErrorCode} (h : Raised s e t) (hs : Running s) : Inv (recordError e t) :=
  have ht := h.2.running hs
  inv_recordError h.1 ht.memoryOk ht.done ht.rst

theorem inv_enterError_of_raised {e : ErrorCode} (h : Raised s e t) (hs : Running s) : Inv (enterError e t) :=
  have ht := h.2.running hs
  inv_enterError h.1 ht.memoryOk ht.done ht.rst

/-- A step that raises nothing leaves the operation complete, or running after its start step. -/
theorem Stepped.inv (h : Stepped s t) (hs : Inv s) (hbusy : s.fsm ≠ .idle) : Inv t := by
  have hrunning := running_of_inv hs hbusy
  rcases h with ⟨u, r, hu, rfl⟩ | ⟨u, hu, rfl, henc, hdec, -⟩
  · have hu := hu.running hrunning
    exact inv_completeOp r hu.memoryOk hu.err hu.errcode hu.rst
  · have hrst : u.rst = false := (hu.running hrunning).rst
    refine ⟨hu.memoryOk hs.1, hu.flagsOk (flagsOk_of_inv hs), resetOk_of_low hrst, nofun, fun hf _ => ?_, fun hf _ => ?_⟩
    · exact henc (hu.fsm ▸ hf)
    · exact hdec (hu.fsm ▸ hf)

end

/-- If the machine goes on, it is in a state that meets the invariant. -/
def NextInv (o : Host.Outcome State Fault Refusal) : Prop := ∀ t, o = .next t → Inv t

theorem nextInv_next {t : State} : NextInv (.next t) ↔ Inv t := ⟨fun h => h t rfl, fun h _ ht => by cases ht; exact h⟩

theorem nextInv_refused (r : Refusal) : NextInv (.refused r) := fun _ ht => by cases ht

theorem exec_step_nextInv {s : State} (h : Inv s) : NextInv (exec .step s) := by
  change NextInv (execStep s)
  unfold execStep
  split
  · exact nextInv_next.2 h
  · rename_i hbusy
    have hs := running_of_inv h hbusy
    have hall : (stepOp s).All (fun _ t => Inv t) (Raised s) :=
      (stepOp_all h hbusy).mono (fun _ _ ht => ht.inv h hbusy) fun _ _ => id
    have hsettle := settle_all (Q := Inv) hall (fun _ _ ht => inv_enterError_of_raised ht hs) fun _ ht =>
      inv_recordError_of_raised ht hs
    rcases hsettle with ⟨t, hx, ht⟩ | hx <;> rw [hx]
    · exact nextInv_next.2 ht
    · exact nextInv_refused _

/-! ## The register port (R200 to R209) -/

/-- The registers may change where the flags still agree and the header's registers are kept. -/
theorem inv_setRegs {s : State} (h : Inv s) (hrst : s.rst = false) {g : HostRegs} (hf : FlagsOk (s.setRegs g))
    (hulen : g.hdrUlen = s.regs.hdrUlen) (hdict : g.hdrDict = s.regs.hdrDict) : Inv (s.setRegs g) := by
  obtain ⟨hm, -, -, hstart, henc, hdec⟩ := h
  refine ⟨hm, hf, resetOk_of_low hrst, ?_, ?_, ?_⟩
  · rw [State.setRegs_regs, hulen, hdict]; exact hstart
  · rw [EncRun, State.setRegs_regs, hulen, hdict]; exact henc
  · rw [DecRun, State.setRegs_regs, hulen, hdict]; exact hdec

/-- While `rst` is asserted no host write arrives (R250). -/
theorem inv_portWrite {s : State} (h : Inv s) {f : State → State} (hf : s.rst = false → Inv (f s)) : Inv (portWrite s f) := by
  unfold portWrite
  split
  · exact h
  · rename_i hrst; exact hf (by simpa using hrst)

theorem inv_whenIdle {s : State} (h : Inv s) {f : State → State} (hf : s.fsm = .idle → Inv (f s)) : Inv (whenIdle f s) := by
  unfold whenIdle
  split
  · exact h
  · rename_i hidle; exact hf (by simpa [State.busy] using hidle)

/-- ACCEPT clears the flags and the result registers (R201). -/
theorem inv_acceptOp {s : State} (h : Inv s) (hrst : s.rst = false) (k : OpKind) : Inv (acceptOp k s) := by
  have hflags : FlagsOk (acceptOp k s) := ⟨nofun, fun _ => rfl, fun _ => ⟨rfl, rfl, rfl, rfl⟩, nofun, nofun⟩
  exact ⟨h.1, hflags, resetOk_of_low hrst, fun _ _ => ⟨rfl, rfl⟩, nofun, nofun⟩

/-- A reserved code is an error entry with DONE cleared (R206). -/
theorem inv_reservedCommand {s : State} (h : Inv s) (hrst : s.rst = false) : Inv (reservedCommand s) :=
  inv_enterError (by decide) h.1 rfl hrst

/-- ABORT is remembered only while an operation runs (R205). -/
theorem inv_abortCommand {s : State} (h : Inv s) : Inv (abortCommand s) := by
  unfold abortCommand
  split
  · rename_i hbusy
    have hbusy : s.fsm ≠ .idle := by simpa [State.busy] using hbusy
    obtain ⟨hm, ⟨hboth, -, hflags⟩, hrest⟩ := h
    exact ⟨hm, ⟨hboth, fun hidle => absurd hidle hbusy, hflags⟩, hrest⟩
  · exact h

/-- What a CTRL write can command (R200). -/
inductive CtrlCommand : (State → State) → Prop
  | nop : CtrlCommand fun s => s
  | accept (k : OpKind) : CtrlCommand (whenIdle (acceptOp k))
  | abort : CtrlCommand abortCommand
  | reserved : CtrlCommand (whenIdle reservedCommand)

/-- A CTRL write of any word writes IE and performs one of the commands (R92, R200). -/
theorem exec_decodeCtrl (w : Word) :
    ∃ command, CtrlCommand command ∧ ∀ s, exec (decodeCtrl w) s = .next (ctrlWrite (w.getLsbD 8) command s) := by
  unfold decodeCtrl
  dsimp only
  split_ifs
  exacts [⟨_, .nop, fun _ => rfl⟩, ⟨_, .accept .enc, fun _ => rfl⟩, ⟨_, .accept .dec, fun _ => rfl⟩, ⟨_, .abort, fun _ => rfl⟩,
    ⟨_, .reserved, fun _ => rfl⟩, ⟨_, .reserved, fun _ => rfl⟩]

theorem CtrlCommand.inv {command : State → State} (hc : CtrlCommand command) {s : State} (h : Inv s) (hrst : s.rst = false) :
    Inv (command s) := by
  cases hc with
  | nop => exact h
  | accept k => exact inv_whenIdle h fun _ => inv_acceptOp h hrst k
  | abort => exact inv_abortCommand h
  | reserved => exact inv_whenIdle h fun _ => inv_reservedCommand h hrst

theorem CtrlCommand.inv_ctrlWrite {command : State → State} (hc : CtrlCommand command) (ie : Bool) {s : State} (h : Inv s) :
    Inv (ctrlWrite ie command s) :=
  inv_portWrite h fun hrst => hc.inv (inv_setRegs h hrst (flagsOk_of_inv (s := s) h) rfl rfl) hrst

/-- Clearing a flag leaves no flag that was not set, and clears no error code (R207). -/
theorem inv_clearFlags {s : State} (h : Inv s) (hrst : s.rst = false) (clrDone clrErr : Bool) :
    Inv (s.setRegs (clearFlags clrDone clrErr s.regs)) := by
  obtain ⟨hboth, habort, hbusy, herr, hdone⟩ := flagsOk_of_inv h
  have hdone_le : (clearFlags clrDone clrErr s.regs).done = true → s.regs.done = true := Bool.and_elim_left
  have herr_le : (clearFlags clrDone clrErr s.regs).err = true → s.regs.err = true := Bool.and_elim_left
  refine inv_setRegs h hrst
    ⟨fun hset => hboth (hset.imp hdone_le herr_le), habort, fun hb => ?_, herr ∘ herr_le, hdone ∘ hdone_le⟩ rfl rfl
  obtain ⟨hd, he, hrest⟩ := hbusy hb
  exact ⟨by simp [clearFlags, hd], by simp [clearFlags, he], hrest⟩

/-- A configuration write reaches none of the registers the invariant speaks of (R208). -/
theorem writeConfig_keeps (r : Reg) (w : Word) (g : HostRegs) :
    writeConfig r w g = { writeConfig r w g with
      ie := g.ie, done := g.done, err := g.err, errcode := g.errcode, resultLen := g.resultLen, hdrUlen := g.hdrUlen,
      hdrDict := g.hdrDict } := by
  cases r <;> rfl

theorem inv_writeConfig {s : State} (h : Inv s) (hrst : s.rst = false) (r : Reg) (w : Word) :
    Inv (s.setRegs (writeConfig r w s.regs)) := by
  rw [writeConfig_keeps]
  exact inv_setRegs h hrst (flagsOk_of_inv (s := s) h) rfl rfl

theorem exec_configWrite_nextInv {s : State} (h : Inv s) (r : Reg) (w : Word) : NextInv (exec (.configWrite r w) s) :=
  nextInv_next.2 (inv_portWrite h fun hrst => inv_whenIdle h fun _ => inv_writeConfig h hrst r w)

/-- A register write (R92, R93, R207, R208). -/
theorem exec_decodeWrite_nextInv {s : State} (h : Inv s) (r : Reg) (w : Word) : NextInv (exec (decodeWrite r w) s) := by
  cases r with
  | ctrl =>
    obtain ⟨command, hc, hexec⟩ := exec_decodeCtrl w
    change NextInv (exec (decodeCtrl w) s)
    rw [hexec]
    exact nextInv_next.2 (hc.inv_ctrlWrite _ h)
  | status => exact nextInv_next.2 (inv_portWrite h fun hrst => inv_clearFlags h hrst _ _)
  | _ => exact exec_configWrite_nextInv h _ w

theorem busEvent_nextInv {s : State} (h : Inv s) (a : BusAccess) : NextInv (busEvent a s) := by
  unfold busEvent decodeBus
  cases regAt s.plat.csrBase a.addr with
  | none => exact nextInv_next.2 h
  | some r =>
    cases a.isWrite with
    | false => exact nextInv_next.2 h
    | true => exact exec_decodeWrite_nextInv h r a.data

/-! ## The other agents (R70, R71) -/

/-- A byte stored anywhere in the address space: the invariant asks of memory only its form (R60). -/
theorem inv_setMem_write {s : State} (h : Inv s) {a : Nat} (ha : a < Config.addressSpace) (v : Byte) :
    Inv (s.setMem (s.mem.write a v)) := by
  obtain ⟨⟨hwf, hgen⟩, hrest⟩ := h
  exact ⟨⟨Memory.wf_write hwf ha v, Memory.gen_write hgen⟩, hrest⟩

theorem agentWriteEvent_nextInv {s : State} (h : Inv s) (a : Word) (v : Byte) : NextInv (agentWriteEvent a v s) := by
  unfold agentWriteEvent
  split
  · exact nextInv_refused _
  · split
    · exact nextInv_next.2 (inv_setMem_write h a.isLt v)
    · exact nextInv_next.2 h

/-- A read of a free value draws one; memory is not touched. -/
theorem inv_setFresh {s : State} (h : Inv s) {g : Nat} (hg : s.fresh ≤ g) : Inv (s.setFresh g) := by
  obtain ⟨⟨hwf, hgen⟩, hrest⟩ := h
  exact ⟨⟨hwf, fun u hu => (hgen u hu).trans_le hg⟩, hrest⟩

theorem agentReadEvent_nextInv {s : State} (h : Inv s) (a : Word) : NextInv (agentReadEvent a s) := by
  unfold agentReadEvent
  split
  · split
    · exact nextInv_next.2 (inv_setFresh (s := s.setAgentData _) h (Nat.le_succ _))
    · exact nextInv_next.2 h
  · exact nextInv_next.2 h

/-! ## Every step -/

theorem runEvent_nextInv {s : State} (h : Inv s) (e : Event) : NextInv (runEvent e s) := by
  cases e with
  | bus a => exact busEvent_nextInv h a
  | blockStep => exact exec_step_nextInv h
  | rst asserted => exact nextInv_next.2 (inv_resetBlock h asserted)
  | agentWrite a v => exact agentWriteEvent_nextInv h a v
  | agentRead a => exact agentReadEvent_nextInv h a

/-- Settles O52: the block's own step keeps the invariant, and so does every event from outside; the invariant says nothing of the
inbox. -/
theorem stepKeepsInvariant : Obligations.StepKeepsInvariant := by
  intro s t h
  suffices hnext : NextInv (step s) from hnext t
  unfold step runNext
  split
  · exact exec_step_nextInv h
  · rename_i e rest _
    exact runEvent_nextInv (s := s.setInbox rest) h e

end Sys2Proof.Machine
end

section
/-! What the sequencer's own step comes to: which rule it runs (R211), what it leaves of memory (R65, R76), where a byte of the input
does not answer (R61), and where the regions are not ordinary memory (R64). -/

namespace Sys2Proof.Machine

open Sys2Proof Sys2Proof.Safety

section

variable {s t : State}

/-! ## Which rule the block's own step runs (R211, R245) -/

theorem exec_step_of_idle (h : s.fsm = .idle) : exec .step s = .next s := if_pos h

theorem exec_step_of_busy (h : s.fsm ≠ .idle) : exec .step s = settle (stepOp s) := if_neg h

theorem stepOp_start (habort : s.abortReq = false) (hphase : s.phase = .start) :
    stepOp s = (startStepOp s).bind fun _ t => .ok () (t.setPhase .loop) := by
  simp [stepOp, habort, hphase]

theorem stepOp_loop (habort : s.abortReq = false) (hphase : s.phase = .loop) : stepOp s = loopStepOp s := by
  simp [stepOp, habort, hphase]

/-! ## Memory outside the output region (R65, R76) -/

/-- Neither COMPLETE nor the phase's change touches memory (R210). -/
theorem Stepped.outside (h : Stepped s t) {b : Nat} (hb : s.op.inOutput b = false) : t.mem.read b = s.mem.read b := by
  rcases h with ⟨u, r, hu, rfl⟩ | ⟨u, hu, rfl, -⟩
  · exact hu.outside b hb
  · exact hu.outside b hb

/-- Error entry makes at most the output region unspecified, and it is the region of the operation that raised (R235). -/
theorem enterError_outside_of_raised {e : ErrorCode} (h : Raised s e t) {b : Nat} (hb : s.op.inOutput b = false) :
    (enterError e t).mem.read b = s.mem.read b := by
  have hframe := h.2
  exact (enterError_read e t (hframe.inOutput ▸ hb)).trans (hframe.outside b hb)

/-! ## A byte of the input that does not answer (R61, R233, R234) -/

/-- The free value decides whether BusError comes early (assumption 5); either way one free value is drawn. -/
theorem prefetch_of_hole (h : inputHasHole s.plat s.op = true) :
    prefetch s = .raise .busError (s.setFresh (s.fresh + 1)) ∨ prefetch s = .ok () (s.setFresh (s.fresh + 1)) := by
  unfold prefetch
  rw [if_pos h]
  split
  · exact .inl rfl
  · exact .inr rfl

theorem loopStepOp_of_prefetch_raise (hbusy : s.fsm ≠ .idle) {e : ErrorCode} (hp : prefetch s = .raise e t) :
    loopStepOp s = .raise e t := by
  unfold loopStepOp
  split
  · rw [encLoopStep, hp, Res.bind_raise]
  · rw [decLoopStep, hp, Res.bind_raise]
  · exact absurd ‹_› hbusy

theorem loopStepOp_enc_element (hfsm : s.fsm = .enc) (hp : prefetch s = .ok () t) (hc : t.enc.cur.toNat < t.op.len.toNat) :
    loopStepOp s = encodeStepOp t := by
  simp only [loopStepOp, hfsm, encLoopStep, hp, Res.bind_ok, if_pos hc]

theorem loopStepOp_dec_element (hfsm : s.fsm = .dec) (hp : prefetch s = .ok () t) (hr : 0 < t.dec.rem.toNat) :
    loopStepOp s = decodeStepOp t := by
  simp only [loopStepOp, hfsm, decLoopStep, hp, Res.bind_ok, if_pos hr]

theorem loopStepOp_dec_end (hfsm : s.fsm = .dec) (hp : prefetch s = .ok () t) (hr : t.dec.rem.toNat = 0) :
    loopStepOp s = decEndStep t := by
  simp only [loopStepOp, hfsm, decLoopStep, hp, Res.bind_ok, hr, lt_irrefl, if_false]

/-! ## The runs that are refused (R64, R70) -/

theorem inRunningRegion_of_mem (hbusy : s.fsm ≠ .idle) {a : Nat} (ha : s.op.inInput a = true ∨ s.op.inOutput a = true) :
    inRunningRegion s a = true := by
  simp [inRunningRegion, State.busy, hbusy, ha]

theorem checkRegions_of_device (hbuf : s.op.bufferBad = false) (hdev : regionsOrdinary s.plat s.op = false) :
    checkRegions s = .refuse .regionsAreOrdinaryMemory := by
  simp [checkRegions, hbuf, hdev]

/-- The check of the regions is the first thing either start step does (R148, R170). -/
theorem startStepOp_of_checkRegions_refuse (hbusy : s.fsm ≠ .idle) {r : Refusal} (hr : checkRegions s = .refuse r) :
    startStepOp s = .refuse r := by
  unfold startStepOp
  split
  · simp only [encStartStep, encStartChecks, hr, Res.bind_refuse, Res.beforeWrites_refuse]
  · simp only [decStartStep, hr, Res.bind_refuse, Res.beforeWrites_refuse]
  · exact absurd ‹_› hbusy

end

/-! ## The statements of 20_memory.md -/

/-- Settles O54: a step that raises nothing, error entry, and an error before the first write each leave the bytes outside the output
region. -/
theorem blockWritesOnlyItsOutputRegion : Obligations.BlockWritesOnlyItsOutputRegion := by
  intro s t h hstep b hb
  by_cases hidle : s.fsm = .idle
  · rw [exec_step_of_idle hidle] at hstep
    cases hstep
    rfl
  · rw [exec_step_of_busy hidle] at hstep
    have hall : (stepOp s).All (fun _ t => t.mem.read b = s.mem.read b) (Raised s) :=
      (stepOp_all h hidle).mono (fun _ _ ht => ht.outside hb) fun _ _ => id
    have hsettle := settle_all (Q := fun t => t.mem.read b = s.mem.read b) hall
      (fun _ _ ht => enterError_outside_of_raised ht hb) fun _ ht => ht.2.outside b hb
    rcases hsettle with ⟨u, hu, hread⟩ | hrefused
    · cases hu.symm.trans hstep
      exact hread
    · cases hrefused.symm.trans hstep

/-- Settles O58: the early BusError if the free value says so, and otherwise the rule that the step runs. -/
theorem earlyBusErrorIsTheOnlyOtherOutcome : Obligations.EarlyBusErrorIsTheOnlyOtherOutcome := by
  intro s habort hphase hhole u
  have hstep (hbusy : s.fsm ≠ .idle) : exec .step s = settle (loopStepOp s) := by
    rw [exec_step_of_busy hbusy, stepOp_loop habort hphase]
  rcases prefetch_of_hole hhole with hp | hp
  · by_cases hidle : s.fsm = .idle
    · exact .inr (by simp [hidle])
    · refine .inl ⟨hidle, ?_⟩
      rw [hstep hidle, loopStepOp_of_prefetch_raise hidle hp]
      rfl
  · refine .inr ⟨fun hfsm hc => ?_, fun hfsm hr => ?_, fun hfsm hr => ?_⟩
    · rw [hstep (by simp [hfsm]), loopStepOp_enc_element hfsm hp hc]
      rfl
    · rw [hstep (by simp [hfsm]), loopStepOp_dec_element hfsm hp hr]
      rfl
    · rw [hstep (by simp [hfsm]), loopStepOp_dec_end hfsm hp hr]
      rfl

/-- Settles O59: the agent's write is refused before memory is asked, and the start step before anything else but BadBuffer. -/
theorem hostDutiesAreRefusedByName : Obligations.HostDutiesAreRefusedByName := by
  refine fun s => ⟨fun a v rest hinbox hbusy ha => ?_, fun hbusy habort hphase hbuf hdev => ?_⟩
  · have hregion : inRunningRegion (s.setInbox rest) a.toNat = true := inRunningRegion_of_mem (s := s.setInbox rest) hbusy ha
    simp only [step, runNext, hinbox, runEvent, agentWriteEvent, hregion, if_true]
  · have hstart := startStepOp_of_checkRegions_refuse hbusy (checkRegions_of_device hbuf hdev)
    rw [exec_step_of_busy hbusy, stepOp_start habort hphase, hstart]
    rfl

end Sys2Proof.Machine
end

section
/-! The encodings of 30_encoding.md read back: bytes and words (R62), the register port (R92, R93), the stream's items (R80 to R88), and
that decoding undoes encoding. -/

namespace Sys2Proof

/-! ## Bytes and words (R62, R84) -/

theorem wordOfBytes_byteOf (w : Word) : wordOfBytes (byteOf w 0) (byteOf w 1) (byteOf w 2) (byteOf w 3) = w := by
  have htop : byteOf w 3 ++ byteOf w 2 = w.extractLsb' 16 16 := BitVec.extractLsb'_append_extractLsb'_eq_extractLsb' rfl
  have hupper : w.extractLsb' 16 16 ++ byteOf w 1 = w.extractLsb' 8 24 := BitVec.extractLsb'_append_extractLsb'_eq_extractLsb' rfl
  have hall : w.extractLsb' 8 24 ++ byteOf w 0 = w.extractLsb' 0 32 := BitVec.extractLsb'_append_extractLsb'_eq_extractLsb' rfl
  rw [wordOfBytes, htop, hupper, hall, BitVec.extractLsb'_eq_self]

section

variable (b0 b1 b2 b3 : Byte)

theorem byteOf_wordOfBytes_zero : byteOf (wordOfBytes b0 b1 b2 b3) 0 = b0 := BitVec.extractLsb'_append_eq_right

theorem byteOf_wordOfBytes_one : byteOf (wordOfBytes b0 b1 b2 b3) 1 = b1 := by
  rw [byteOf, wordOfBytes, BitVec.extractLsb'_append_eq_of_le (by decide)]
  exact BitVec.extractLsb'_append_eq_right

theorem byteOf_wordOfBytes_two : byteOf (wordOfBytes b0 b1 b2 b3) 2 = b2 := by
  rw [byteOf, wordOfBytes, BitVec.extractLsb'_append_eq_of_le (by decide), BitVec.extractLsb'_append_eq_of_le (by decide)]
  exact BitVec.extractLsb'_append_eq_right

theorem byteOf_wordOfBytes_three : byteOf (wordOfBytes b0 b1 b2 b3) 3 = b3 := by
  rw [byteOf, wordOfBytes, BitVec.extractLsb'_append_eq_of_le (by decide), BitVec.extractLsb'_append_eq_of_le (by decide)]
  exact BitVec.extractLsb'_append_eq_left

end

theorem stringWordOf_low (t0 t1 : Token) : (stringWordOf t0 t1).extractLsb' 0 16 = t0 := BitVec.extractLsb'_append_eq_right

theorem stringWordOf_high (t0 t1 : Token) : (stringWordOf t0 t1).extractLsb' 16 16 = t1 := BitVec.extractLsb'_append_eq_left

theorem token_of_bytes (t : Token) : t.extractLsb' 8 8 ++ t.extractLsb' 0 8 = t :=
  (BitVec.extractLsb'_append_extractLsb'_eq_extractLsb' rfl).trans BitVec.extractLsb'_eq_self

/-! ## The items of the compressed stream (R80 to R86) -/

section

variable (rest : List Byte)

theorem decodeStream_header (n d : Word) :
    decodeStream .header (bytesOfWord n ++ bytesOfWord d ++ rest) = .ok (.header n d, rest) := by
  change Except.ok (Instr.header (wordOfBytes _ _ _ _) (wordOfBytes _ _ _ _), rest) = _
  rw [wordOfBytes_byteOf, wordOfBytes_byteOf]

theorem decodeStream_flagWord (w : Word) : decodeStream .flagWord (bytesOfWord w ++ rest) = .ok (.flagWord w, rest) := by
  change Except.ok (Instr.flagWord (wordOfBytes _ _ _ _), rest) = _
  rw [wordOfBytes_byteOf]

theorem decodeStream_stringWord (t0 t1 : Token) :
    decodeStream .stringWord (bytesOfWord (stringWordOf t0 t1) ++ rest) = .ok (.stringWord t0 t1, rest) := by
  change Except.ok (Instr.stringWord ((wordOfBytes _ _ _ _).extractLsb' 0 16) ((wordOfBytes _ _ _ _).extractLsb' 16 16), rest) = _
  rw [wordOfBytes_byteOf, stringWordOf_low, stringWordOf_high]

theorem decodeStream_byteWord (b0 b1 b2 b3 : Byte) :
    decodeStream .byteWord (b0 :: b1 :: b2 :: b3 :: rest) = .ok (.byteWord b0 b1 b2 b3, rest) := by
  change Except.ok (Instr.byteWord (byteOf _ 0) (byteOf _ 1) (byteOf _ 2) (byteOf _ 3), rest) = _
  rw [byteOf_wordOfBytes_zero, byteOf_wordOfBytes_one, byteOf_wordOfBytes_two, byteOf_wordOfBytes_three]

theorem decodeStream_token (t : Token) :
    decodeStream .token (t.extractLsb' 0 8 :: t.extractLsb' 8 8 :: rest) = .ok (.token t, rest) := by
  rw [decodeStream, token_of_bytes]

end

/-! ## The register port (R21, R92, R93) -/

/-- Every register is found at its bus address, whatever `CSR_BASE` is: the sum wraps, and so does the difference. -/
theorem regAt_addr (base : Word) (r : Reg) : regAt base (r.addr base) = some r := by
  have hoffset : r.addr base - base = 4 * r.index.zeroExtend 32 := by rw [Reg.addr, BitVec.add_comm, BitVec.add_sub_cancel]
  unfold regAt
  rw [hoffset]
  cases r <;> rfl

theorem decode_busWrite (base : Word) (r : Reg) (w : Word) : decode base (.bus (busWrite base r w)) = .ok (decodeWrite r w, []) := by
  rw [decode, decodeBus, busWrite, regAt_addr]
  rfl

theorem decode_busRead (base : Word) (r : Reg) (w : Word) :
    decode base (.bus { isWrite := false, addr := r.addr base, data := w }) = .ok (.regRead r, []) := by
  rw [decode, decodeBus, regAt_addr]
  rfl

theorem decodeWrite_nop : ∀ ie, decodeWrite .ctrl (ctrlWord 0x0 ie) = .nop ie := by decide
theorem decodeWrite_compress : ∀ ie, decodeWrite .ctrl (ctrlWord 0x1 ie) = .compress ie := by decide
theorem decodeWrite_decompress : ∀ ie, decodeWrite .ctrl (ctrlWord 0x2 ie) = .decompress ie := by decide
theorem decodeWrite_abort : ∀ ie, decodeWrite .ctrl (ctrlWord 0x3 ie) = .abort ie := by decide

theorem decodeWrite_reservedCmd01xx :
    ∀ low ie, decodeWrite .ctrl (ctrlWord (0b01#2 ++ low) ie) = .reservedCmd01xx low ie := by decide

theorem decodeWrite_reservedCmd1xxx :
    ∀ low ie, decodeWrite .ctrl (ctrlWord (0b1#1 ++ low) ie) = .reservedCmd1xxx low ie := by decide

theorem decodeWrite_statusW1c :
    ∀ d e, decodeWrite .status ((if d then 0x2 else 0) ||| (if e then 0x4 else 0)) = .statusW1c d e := by decide

/-- A well-formed configuration write is to neither of the two registers whose writes are rows of their own (R93). -/
theorem decodeWrite_configWrite {r : Reg} {w : Word} (h : (Instr.configWrite r w).wellFormed = true) :
    decodeWrite r w = .configWrite r w := by
  cases r with
  | ctrl => cases h
  | status => cases h
  | _ => rfl

/-! ## The statements of 30_encoding.md -/

/-- Settles O49: each row that is encoded is read back by the lemma about its port or its stream position; the internal operations
have no encoding (R96 d). -/
theorem decodeUndoesEncode : Obligations.DecodeUndoesEncode := by
  intro base i c hwf hc
  cases i with
  | nop ie => cases hc; rw [decode_busWrite, decodeWrite_nop]
  | compress ie => cases hc; rw [decode_busWrite, decodeWrite_compress]
  | decompress ie => cases hc; rw [decode_busWrite, decodeWrite_decompress]
  | abort ie => cases hc; rw [decode_busWrite, decodeWrite_abort]
  | reservedCmd01xx low ie => cases hc; rw [decode_busWrite, decodeWrite_reservedCmd01xx]
  | reservedCmd1xxx low ie => cases hc; rw [decode_busWrite, decodeWrite_reservedCmd1xxx]
  | statusW1c d e => cases hc; rw [decode_busWrite, decodeWrite_statusW1c]
  | configWrite r v => cases hc; rw [decode_busWrite, decodeWrite_configWrite hwf]
  | regRead r => cases hc; exact decode_busRead base r 0
  | header n d => cases hc; exact decodeStream_header [] n d
  | flagWord w => cases hc; exact decodeStream_flagWord [] w
  | stringWord t0 t1 => cases hc; exact decodeStream_stringWord [] t0 t1
  | byteWord b0 b1 b2 b3 => cases hc; exact decodeStream_byteWord [] b0 b1 b2 b3
  | token t => cases hc; exact decodeStream_token [] t
  | lit => cases hc; rfl
  | str => cases hc; rfl
  | _ => cases hc

/-- Settles O50: the decoder evaluated on each word that the statement writes out. -/
theorem writtenOutWordsDecode : Obligations.WrittenOutWordsDecode :=
  ⟨rfl, rfl, rfl, rfl, rfl, rfl, rfl, rfl, rfl, rfl, rfl, rfl, rfl⟩

end Sys2Proof
end

section
/-! The stream's items as the decoder takes them, and the two fields of a token: by slices (R86) and by masks (R176), and their
ranges over every token (R87). -/

namespace Sys2Proof.Machine

open Sys2Proof Sys2Proof.Safety

/-! ## The two halves of a token -/

/-- A legal dictionary length cuts a token's 16 bits in two (R6, R86). -/
theorem two_pow_mul_of_dictLegal {d : Word} {ls : Nat} (h : dictLegal d = true) (hls : 2 ^ ls = d.toNat) :
    2 ^ ls * 2 ^ (16 - ls) = 65536 := by
  obtain ⟨k, -, hk, hd⟩ := (dictLegal_iff d).1 h
  have hlsk : ls = k := Nat.pow_right_injective (le_refl 2) (hls.trans hd)
  rw [← Nat.pow_add, hlsk, Nat.add_sub_cancel' (by omega)]

/-- The upper half holds `16 - ls` bits. -/
theorem token_div_lt {d : Word} {ls : Nat} (h : dictLegal d = true) (hls : 2 ^ ls = d.toNat) (t : Token) :
    t.toNat / 2 ^ ls < 2 ^ (16 - ls) :=
  Nat.div_lt_of_lt_mul (two_pow_mul_of_dictLegal h hls ▸ t.isLt)

/-- The largest match of a legal dictionary length, by the widths of the two fields (R140). -/
theorem maxOff_maxLen_eq {op : OpParams} (h : EncParams op) : op.maxOff = 2 ^ op.ls + 2 ∧ op.maxLen = 2 ^ (16 - op.ls) + 2 := by
  obtain ⟨hlegal, hls, hoff, hlen⟩ := h
  have hquot : 65536 / 2 ^ op.ls = 2 ^ (16 - op.ls) :=
    Nat.div_eq_of_eq_mul_right (Nat.two_pow_pos op.ls) (two_pow_mul_of_dictLegal hlegal hls).symm
  exact ⟨by rw [hoff, hls], by rw [hlen, ← hls, hquot]⟩

/-! ## The fields of a token -/

/-- The masks of R171 take the slices of R86: the length mask covers all that the shift leaves. -/
theorem unpackToken_eq_tokenFields {op : OpParams} (h : DecParams op) (t : Token) :
    unpackToken op.ls op.offMask op.lenMask t = tokenFields op.ls t := by
  obtain ⟨hlegal, hls, hoff, hlen⟩ := h
  have hzext : (t.zeroExtend 32).toNat = t.toNat := BitVec.toNat_setWidth_of_le (by decide)
  simp only [unpackToken, tokenFields, BitVec.toNat_and, BitVec.toNat_ushiftRight, hzext, hoff, hlen, ← hls,
    Nat.and_two_pow_sub_one_eq_mod, Nat.shiftRight_eq_div_pow, Nat.mod_eq_of_lt (token_div_lt hlegal hls t)]

theorem exec_tokenUnpack {s : State} (h : DecParams s.op) (t : Token) :
    exec (.tokenUnpack t) s = .next (s.setResult (.offLen (tokenFields s.op.ls t).1 (tokenFields s.op.ls t).2)) := by
  rw [← unpackToken_eq_tokenFields h]
  rfl

/-- The fields of every token lie in the range of its dictionary length (R87). -/
theorem tokenFields_range {op : OpParams} (h : EncParams op) (t : Token) :
    (3 ≤ (tokenFields op.ls t).1 ∧ (tokenFields op.ls t).1 ≤ op.maxOff) ∧
    (3 ≤ (tokenFields op.ls t).2 ∧ (tokenFields op.ls t).2 ≤ op.maxLen) := by
  obtain ⟨hoff, hlen⟩ := maxOff_maxLen_eq h
  obtain ⟨hlegal, hls, -⟩ := h
  have hmod := Nat.mod_lt t.toNat (Nat.two_pow_pos op.ls)
  have hdiv := token_div_lt hlegal hls t
  rw [hoff, hlen, tokenFields]
  exact ⟨⟨Nat.le_add_left 3 _, by omega⟩, Nat.le_add_left 3 _, by omega⟩

/-- The token of all ones has the largest fields (R87): it is one less than the product of the two fields' counts. -/
theorem tokenFields_ones {op : OpParams} (h : EncParams op) : tokenFields op.ls 0xFFFF = (op.maxOff, op.maxLen) := by
  obtain ⟨hoff, hlen⟩ := maxOff_maxLen_eq h
  obtain ⟨hlegal, hls, -⟩ := h
  have hprod := two_pow_mul_of_dictLegal hlegal hls
  have hlow := Nat.two_pow_pos op.ls
  have hhigh := Nat.two_pow_pos (16 - op.ls)
  have hones : (0xFFFF : Token).toNat = 2 ^ op.ls * 2 ^ (16 - op.ls) - (0 + 1) := by rw [hprod]; rfl
  rw [hoff, hlen, tokenFields, hones, Nat.mul_sub_mod (by omega), Nat.mul_sub_div _ _ _ (by omega), Nat.zero_mod, Nat.zero_div,
    Prod.mk.injEq]
  omega

theorem tokenFields_zero (ls : Nat) : tokenFields ls 0 = (3, 3) := by simp [tokenFields]

/-! ## The statements about tokens and stream items -/

/-- Settles O16: TOKEN_UNPACK returns the slices, which are in range for every token. -/
theorem everyTokenIsLegal : Obligations.EveryTokenIsLegal := by
  intro t s henc hdec
  obtain ⟨⟨hoff3, hoff⟩, hlen3, hlen⟩ := tokenFields_range henc t
  refine ⟨⟨_, _, exec_tokenUnpack hdec t, hoff3, hoff, hlen3, hlen⟩, ?_, ?_⟩
  · rw [exec_tokenUnpack hdec, tokenFields_ones henc]; rfl
  · rw [exec_tokenUnpack hdec, tokenFields_zero]; rfl

/-- Settles O15: taking an item is one update of the state, and both ways of taking a token's fields divide by `d`. -/
theorem streamItemsBecomeTheCurrentWord : Obligations.StreamItemsBecomeTheCurrentWord := by
  refine fun n d w t0 t1 b0 b1 b2 b3 s => ⟨rfl, rfl, rfl, rfl, fun hdec => ?_⟩
  have ⟨_, hls, _⟩ := hdec
  rw [← hls]
  exact ⟨rfl, exec_tokenUnpack hdec t0⟩

end Sys2Proof.Machine
end

section
/-! What a step of the machine comes to for each event at the head of the inbox (R70, R71, R93, R211, R250). -/

namespace Sys2Proof.Machine

open Sys2Proof Sys2Proof.Safety

section

variable {s : State} {a : Word}

theorem step_of_inbox_nil (h : s.inbox = []) : step s = exec .step s := by simp only [step, runNext, h]

theorem step_of_inbox_cons {e : Event} {rest : List Event} (h : s.inbox = e :: rest) : step s = runEvent e (s.setInbox rest) := by
  simp only [step, runNext, h]

/-! ## The host bus (R93) -/

theorem busEvent_of_ok {b : BusAccess} {i : Instr} (h : decodeBus s.plat.csrBase b = .ok i) : busEvent b s = exec i s := by
  simp only [busEvent, h]

theorem busEvent_of_error {b : BusAccess} {r : Reject} (h : decodeBus s.plat.csrBase b = .error r) : busEvent b s = .next s := by
  simp only [busEvent, h]

/-! ## Another agent's read (R61, R64, R71) -/

theorem agentReadEvent_of_hole (h : memOk s.plat a.toNat = false) : agentReadEvent a s = .next s := by
  simp [agentReadEvent, h]

theorem agentReadEvent_of_memory (hok : memOk s.plat a.toNat = true) (hdev : inDevice s.plat a.toNat = false)
    (hregion : s.fsm = .idle ∨ s.op.inOutput a.toNat = false) :
    agentReadEvent a s = .next (s.setAgentData (s.mem.read a.toNat)) := by
  have hknown : (s.busy && s.op.inOutput a.toNat || inDevice s.plat a.toNat) = false := by
    rcases hregion with hidle | hout
    · simp [State.busy, hidle, hdev]
    · simp [hout, hdev]
  simp [agentReadEvent, hok, hknown]

theorem agentReadEvent_of_free (hok : memOk s.plat a.toNat = true)
    (hfree : inDevice s.plat a.toNat = true ∨ s.fsm ≠ .idle ∧ s.op.inOutput a.toNat = true) :
    agentReadEvent a s = .next ((s.setAgentData (Config.agentView s.fresh)).setFresh (s.fresh + 1)) := by
  have hunknown : (s.busy && s.op.inOutput a.toNat || inDevice s.plat a.toNat) = true := by
    rcases hfree with hdev | ⟨hbusy, hout⟩
    · simp [hdev]
    · simp [State.busy, hbusy, hout]
  simp [agentReadEvent, hok, hunknown]

/-! ## Another agent's write (R61, R64, R70) -/

theorem inRunningRegion_of_not_mem {n : Nat} (h : s.fsm = .idle ∨ s.op.inInput n = false ∧ s.op.inOutput n = false) :
    inRunningRegion s n = false := by
  rcases h with hidle | ⟨hin, hout⟩
  · simp [inRunningRegion, State.busy, hidle]
  · simp [inRunningRegion, hin, hout]

theorem agentWriteEvent_of_no_memory (v : Byte) (hregion : inRunningRegion s a.toNat = false)
    (h : memOk s.plat a.toNat = false ∨ inDevice s.plat a.toNat = true) : agentWriteEvent a v s = .next s := by
  rcases h with hhole | hdev
  · simp [agentWriteEvent, hregion, hhole]
  · simp [agentWriteEvent, hregion, hdev]

theorem agentWriteEvent_of_memory (v : Byte) (hregion : inRunningRegion s a.toNat = false) (hok : memOk s.plat a.toNat = true)
    (hdev : inDevice s.plat a.toNat = false) : agentWriteEvent a v s = .next (s.setMem (s.mem.write a.toNat v)) := by
  simp [agentWriteEvent, hregion, hok, hdev]

end

/-- Settles O10: the head of the inbox is the event that runs, on the state without it; each event by its own lemma. -/
theorem stepRunsTheDecodedInstruction : Obligations.StepRunsTheDecodedInstruction := by
  intro s
  refine ⟨step_of_inbox_nil, fun a rest i hinbox hdecode => ?bus, fun a rest r hinbox hdecode => ?noRegister,
    fun rest hinbox => step_of_inbox_cons hinbox, fun b rest hinbox => step_of_inbox_cons hinbox, fun a rest hinbox => ?agentRead,
    fun a v rest hinbox hregion => ?agentWrite⟩
  case bus => exact (step_of_inbox_cons hinbox).trans (busEvent_of_ok hdecode)
  case noRegister => exact (step_of_inbox_cons hinbox).trans (busEvent_of_error hdecode)
  case agentRead =>
    rw [step_of_inbox_cons hinbox]
    exact ⟨agentReadEvent_of_hole (s := s.setInbox rest), fun hok => ⟨agentReadEvent_of_memory (s := s.setInbox rest) hok,
      fun hfree => ⟨_, agentReadEvent_of_free (s := s.setInbox rest) hok hfree⟩⟩⟩
  case agentWrite =>
    have hregion : inRunningRegion (s.setInbox rest) a.toNat = false := inRunningRegion_of_not_mem (s := s.setInbox rest) hregion
    rw [step_of_inbox_cons hinbox]
    refine ⟨agentWriteEvent_of_no_memory (s := s.setInbox rest) v hregion, fun hok hdev hwf => ?_⟩
    exact ⟨_, agentWriteEvent_of_memory (s := s.setInbox rest) v hregion hok hdev, Memory.read_write_same hwf a.toNat v,
      fun b hb => Memory.read_write_other s.mem a.toNat b v hb⟩

end Sys2Proof.Machine
end

section
/-! The header codec (R110, R111): what WRITE_HEADER leaves in memory, what READ_HEADER takes from it, where each of them ends in
BusError (R61), and that reading undoes writing (R112). -/

namespace Sys2Proof.Machine

open Sys2Proof Sys2Proof.Safety

/-! ## Words of memory (R62) -/

theorem answers_add {s : State} {a k n : Nat} : Answers s a (k + n) ↔ Answers s a k ∧ Answers s (a + k) n := by
  constructor
  · refine fun h => ⟨fun i hi => h i (by omega), fun i hi => ?_⟩
    rw [Nat.add_assoc]
    exact h (k + i) (by omega)
  · rintro ⟨hlow, hhigh⟩ i hi
    by_cases hik : i < k
    · exact hlow i hik
    · have := hhigh (i - k) (by omega)
      rwa [Nat.add_assoc, Nat.add_sub_cancel' (by omega)] at this

theorem wordAt_of_holdsWord {s : State} {a : Nat} {v : Word} (h : HoldsWord s a v) : wordAt s a = v := by
  have h0 : s.mem.read a = byteOf v 0 := h 0 (by decide)
  rw [wordAt, h0, h 1 (by decide), h 2 (by decide), h 3 (by decide), wordOfBytes_byteOf]

theorem memRead1_busError {s : State} {a : Nat} (ha : a < Config.addressSpace) (hm : memOk s.plat a = false) :
    memRead1 s a = .busError := by simp [memRead1, ha, hm]

theorem memRead4_busError {s : State} {a : Nat} (ha : a < Config.addressSpace) (hm : memOk s.plat a = false) :
    memRead4 s a = .busError := by rw [memRead4, memRead1_busError ha hm, Access.bind_busError]

theorem memWrite1_busError {s : State} {a : Nat} (ha : a < Config.addressSpace) (hm : memOk s.plat a = false) (v : Byte) :
    memWrite1 a v s = .raise .busError s := by simp [memWrite1, ha, hm]

theorem memWrite4_busError {s : State} {a : Nat} (ha : a < Config.addressSpace) (hm : memOk s.plat a = false) (v : Word) :
    memWrite4 a v s = .raise .busError s := by rw [memWrite4, memWrite1_busError ha hm, Res.bind_raise]

theorem memWrite1_eq_ok {s t : State} {a : Nat} {v : Byte} (h : memWrite1 a v s = .ok () t) :
    a < Config.addressSpace ∧ memOk s.plat a = true ∧ t = s.setMem (s.mem.write a v) := by
  by_cases ha : a < Config.addressSpace
  · rcases memWrite1_cases ha v with ⟨hm, hw⟩ | ⟨-, hw⟩ <;> cases hw.symm.trans h
    exact ⟨ha, hm, rfl⟩
  · simp [memWrite1, ha] at h

/-- A word write that completes has stored the word, at an address at which memory answers. -/
theorem memWrite4_eq_ok {s t : State} {a : Nat} {v : Word} (h : memWrite4 a v s = .ok () t) :
    Answers s a 4 ∧ t = s.setMem (s.mem.writeWord a v) := by
  simp only [memWrite4, Res.bind_eq_ok] at h
  obtain ⟨⟨⟩, t0, h0, ⟨⟩, t1, h1, ⟨⟩, t2, h2, h3⟩ := h
  obtain ⟨ha0, hm0, rfl⟩ := memWrite1_eq_ok h0
  obtain ⟨ha1, hm1, rfl⟩ := memWrite1_eq_ok h1
  obtain ⟨ha2, hm2, rfl⟩ := memWrite1_eq_ok h2
  obtain ⟨ha3, hm3, rfl⟩ := memWrite1_eq_ok h3
  refine ⟨fun i hi => ?_, rfl⟩
  have : i = 0 ∨ i = 1 ∨ i = 2 ∨ i = 3 := by omega
  rcases this with rfl | rfl | rfl | rfl
  exacts [⟨ha0, hm0⟩, ⟨ha1, hm1⟩, ⟨ha2, hm2⟩, ⟨ha3, hm3⟩]

/-! ## WRITE_HEADER (R110) -/

/-- The state in which WRITE_HEADER ends: both words stored, then the fields recorded. -/
def headerWritten (n d : Word) (s : State) : State :=
  recordHeader n d (s.setMem ((s.mem.writeWord s.op.dst.toNat n).writeWord (s.op.dst.toNat + 4) d))

theorem headerWritten_outside (n d : Word) (s : State) : SameOutside s (headerWritten n d s) s.op.dst.toNat 8 := fun b hb => by
  change Memory.read (Memory.writeWord _ _ _) b = _
  rw [Memory.read_writeWord_outside _ _ _ _ (by omega), Memory.read_writeWord_outside _ _ _ _ (by omega)]

theorem headerWritten_holdsWords (n d : Word) {s : State} (hwf : s.mem.wf) (h : s.op.dst.toNat + 8 ≤ Config.addressSpace) :
    HoldsWord (headerWritten n d s) s.op.dst.toNat n ∧ HoldsWord (headerWritten n d s) (s.op.dst.toNat + 4) d := by
  have hfirst : s.op.dst.toNat + 4 ≤ Config.addressSpace := by omega
  constructor
  · intro j hj
    change Memory.read (Memory.writeWord _ _ _) (s.op.dst.toNat + j) = _
    rw [Memory.read_writeWord_outside _ _ _ _ (by omega), Memory.read_writeWord hwf hfirst n hj]
  · exact fun j hj => Memory.read_writeWord (Memory.wf_writeWord hwf hfirst n) h d hj

theorem writeHeaderOp_ok (n d : Word) {s : State} (h : Answers s s.op.dst.toNat 8) :
    writeHeaderOp n d s = .ok () (headerWritten n d s) := by
  obtain ⟨hfirst, hsecond⟩ := answers_add (k := 4) (n := 4).1 h
  rw [writeHeaderOp, memWrite4_ok hfirst n, Res.bind_ok, State.setMem_op,
    memWrite4_ok (s := s.setMem (s.mem.writeWord s.op.dst.toNat n)) hsecond d]
  rfl

theorem writeHeaderOp_eq_ok {n d : Word} {s t : State} (h : writeHeaderOp n d s = .ok () t) :
    Answers s s.op.dst.toNat 8 ∧ t = headerWritten n d s := by
  simp only [writeHeaderOp, Res.bind_eq_ok] at h
  obtain ⟨⟨⟩, t0, h0, ⟨⟩, t1, h1, hrecord⟩ := h
  obtain ⟨hfirst, rfl⟩ := memWrite4_eq_ok h0
  obtain ⟨hsecond, rfl⟩ := memWrite4_eq_ok h1
  exact ⟨answers_add.2 ⟨hfirst, hsecond⟩, by cases hrecord; rfl⟩

theorem writeHeaderOp_busError (n d : Word) {s : State} (hm : memOk s.plat s.op.dst.toNat = false) :
    writeHeaderOp n d s = .raise .busError s := by
  rw [writeHeaderOp, memWrite4_busError s.op.dst.isLt hm, Res.bind_raise]

theorem exec_writeHeader (n d : Word) (s : State) : exec (.writeHeader n d) s = settle (writeHeaderOp n d s) := rfl

/-! ## READ_HEADER (R111) -/

theorem readHeaderOp_ok {s : State} (h : Answers s s.op.src.toNat 8) :
    readHeaderOp s = takeHeader (wordAt s s.op.src.toNat) (wordAt s (s.op.src.toNat + 4)) s := by
  obtain ⟨hfirst, hsecond⟩ := answers_add (k := 4) (n := 4).1 h
  rw [readHeaderOp, memRead4_ok hfirst, Access.toRes_ok, Res.bind_ok, memRead4_ok hsecond, Access.toRes_ok, Res.bind_ok]

theorem readHeaderOp_busError {s : State} (hm : memOk s.plat s.op.src.toNat = false) : readHeaderOp s = .raise .busError s := by
  rw [readHeaderOp, memRead4_busError s.op.src.isLt hm, Access.toRes_busError, Res.bind_raise]

theorem exec_readHeader (s : State) :
    exec .readHeader s = settleReturn (fun p => .headerFields p.1 p.2) (readHeaderOp s) := rfl

/-- READ_HEADER where memory answers (R111). -/
theorem exec_readHeader_of_answers {s : State} (h : Answers s s.op.src.toNat 8) :
    exec .readHeader s =
      .next ((recordHeader (wordAt s s.op.src.toNat) (wordAt s (s.op.src.toNat + 4)) s).setResult
        (.headerFields (wordAt s s.op.src.toNat) (wordAt s (s.op.src.toNat + 4)))) := by
  rw [exec_readHeader, readHeaderOp_ok h, takeHeader, settleReturn_ok]

/-! ## A rule that ends in no error -/

/-- A rule run by itself whose next state has no error flag has ended without error (R235). -/
theorem eq_ok_of_settle_of_err_false {α : Type} {x : Res α} {t : State} (h : settle x = .next t) (herr : t.regs.err = false) :
    ∃ a, x = .ok a t := by
  rcases settle_eq_next.1 h with hok | ⟨e, u, -, rfl⟩ | ⟨u, -, rfl⟩
  · exact hok
  · simp [enterError_regs] at herr
  · simp at herr

/-! ## The statements of 40_header.md -/

/-- Settles O19: the two word writes where memory answers at all eight bytes; the first byte write raises where it does not. -/
theorem writeHeaderStoresTwoWords : Obligations.WriteHeaderStoresTwoWords := by
  refine fun n d s _ => ⟨fun hwf hanswers => ⟨(headerWritten n d s).mem, ?_⟩, fun hm => ?_⟩
  · have hspace : s.op.dst.toNat + 8 ≤ Config.addressSpace := (hanswers 7 (by decide)).1
    obtain ⟨hfirst, hsecond⟩ := headerWritten_holdsWords n d hwf hspace
    refine ⟨?_, hfirst, hsecond, headerWritten_outside n d s⟩
    rw [exec_writeHeader, writeHeaderOp_ok n d hanswers]
    rfl
  · rw [exec_writeHeader, writeHeaderOp_busError n d hm]
    rfl

/-- Settles O20: the two word reads where memory answers at all eight bytes; the first byte read raises where it does not. -/
theorem readHeaderReturnsTwoWords : Obligations.ReadHeaderReturnsTwoWords := by
  refine fun s => ⟨exec_readHeader_of_answers, fun hm => ?_⟩
  rw [exec_readHeader, readHeaderOp_busError hm]
  rfl

/-- Settles O21: a WRITE_HEADER that raised nothing has left the two words, the copied bytes hold the same words, and READ_HEADER
returns the words it finds. -/
theorem headerRoundTrip : Obligations.HeaderRoundTrip := by
  intro n d s t u v hwf hwrite herr hanswers hcopy hread
  obtain ⟨⟨⟩, hok⟩ := eq_ok_of_settle_of_err_false hwrite herr
  obtain ⟨hdst, rfl⟩ := writeHeaderOp_eq_ok hok
  have hspace : s.op.dst.toNat + 8 ≤ Config.addressSpace := (hdst 7 (by decide)).1
  obtain ⟨hfirst, hsecond⟩ := headerWritten_holdsWords n d hwf hspace
  have hn : wordAt u u.op.src.toNat = n :=
    wordAt_of_holdsWord fun j hj => (hcopy j (by omega)).trans (hfirst j hj)
  have hd : wordAt u (u.op.src.toNat + 4) = d :=
    wordAt_of_holdsWord fun j hj => by
      rw [Nat.add_assoc, hcopy (4 + j) (by omega), ← Nat.add_assoc]
      exact hsecond j hj
  rw [exec_readHeader_of_answers hanswers, hn, hd] at hread
  cases hread
  rfl

end Sys2Proof.Machine
end

section
/-! The packer (R120 to R126): what a word write that stops part of the way has stored, what emitting an element leaves in its word,
and that FINISH stores the open words at slots that are apart. -/

namespace Sys2Proof.Machine

open Sys2Proof Sys2Proof.Safety

/-! ## A word write, byte by byte (R62) -/

/-- Memory with the first `n` bytes of the word `v` at `a`. -/
def Memory.writeFirst (m : Memory) (a : Nat) (v : Word) : Nat → Memory
  | 0 => m
  | n + 1 => (m.writeFirst a v n).write (a + n) (byteOf v n)

theorem Memory.wf_writeFirst {m : Memory} (h : m.wf) {a : Nat} (v : Word) {n : Nat} (ha : ∀ i < n, a + i < Config.addressSpace) :
    (m.writeFirst a v n).wf := by
  induction n with
  | zero => exact h
  | succ n ih => exact wf_write (ih fun i hi => ha i (by omega)) (ha n (by omega)) _

theorem Memory.read_writeFirst_outside (m : Memory) (a : Nat) (v : Word) {n b : Nat} (hb : b < a ∨ a + n ≤ b) :
    (m.writeFirst a v n).read b = m.read b := by
  induction n with
  | zero => rfl
  | succ n ih => exact (read_write_other _ _ _ _ (by omega)).trans (ih (by omega))

theorem Memory.read_writeFirst {m : Memory} (h : m.wf) {a : Nat} (v : Word) {n : Nat} (ha : ∀ i < n, a + i < Config.addressSpace)
    {i : Nat} (hi : i < n) : (m.writeFirst a v n).read (a + i) = byteOf v i := by
  induction n with
  | zero => omega
  | succ n ih =>
    have hn : ∀ i < n, a + i < Config.addressSpace := fun i hi => ha i (by omega)
    rw [writeFirst, read_write (wf_writeFirst h v hn)]
    split
    · rw [show i = n by omega]
    · exact ih hn (by omega)

/-- The first `n` byte writes of MemWrite(a, 4, v). -/
def memWriteFirst (a : Nat) (v : Word) : Nat → State → Res Unit
  | 0, s => .ok () s
  | n + 1, s => (memWriteFirst a v n s).bind fun _ => memWrite1 (a + n) (byteOf v n)

theorem memWrite4_eq_memWriteFirst (a : Nat) (v : Word) (s : State) : memWrite4 a v s = memWriteFirst a v 4 s := by
  simp only [memWrite4, memWriteFirst, Res.bind_assoc, Res.bind_ok, Nat.add_zero]

theorem memWriteFirst_ok {a n : Nat} {s : State} (v : Word) (h : Answers s a n) :
    memWriteFirst a v n s = .ok () (s.setMem (s.mem.writeFirst a v n)) := by
  induction n with
  | zero => rfl
  | succ n ih =>
    obtain ⟨ha, hm⟩ := h n (by omega)
    rw [memWriteFirst, ih fun i hi => h i (by omega), Res.bind_ok,
      memWrite1_ok (s := s.setMem (s.mem.writeFirst a v n)) ha hm]
    rfl

/-- The first byte write that raises BusError ends the word write, with the bytes before it stored. -/
theorem memWriteFirst_busError {a j n : Nat} {s : State} (v : Word) (hj : j < n) (ha : a + j < Config.addressSpace)
    (h : Answers s a j) (hm : memOk s.plat (a + j) = false) :
    memWriteFirst a v n s = .raise .busError (s.setMem (s.mem.writeFirst a v j)) := by
  induction n with
  | zero => omega
  | succ n ih =>
    rw [memWriteFirst]
    by_cases hjn : j < n
    · rw [ih hjn, Res.bind_raise]
    · rw [← show j = n by omega, memWriteFirst_ok v h, Res.bind_ok,
        memWrite1_busError (s := s.setMem (s.mem.writeFirst a v j)) ha hm]

/-! ## FLUSH (R122) -/

/-- Where the word of sub-stream `k` is stored. -/
def slotAddr (s : State) (k : SubStream) : Nat := s.op.dst.toNat + (s.enc.slotOf k).toNat

theorem exec_flush (k : SubStream) (s : State) : exec (.flush k) s = settle (flushOp k s) := rfl

theorem flushOp_busError (k : SubStream) {s : State} {j : Nat} (hj : j < 4)
    (ha : slotAddr s k + j < Config.addressSpace) (h : Answers s (slotAddr s k) j) (hm : memOk s.plat (slotAddr s k + j) = false) :
    flushOp k s = .raise .busError (s.setMem (s.mem.writeFirst (slotAddr s k) (s.enc.accOf k) j)) := by
  unfold slotAddr at ha h hm
  rw [flushOp, memWrite4_eq_memWriteFirst, memWriteFirst_busError _ hj ha h hm, Res.bind_raise, slotAddr]

/-- The last byte of a word at which memory answers lies in the address space. -/
theorem Answers.word_fits {s : State} {a : Nat} (h : Answers s a 4) : a + 4 ≤ Config.addressSpace := (h 3 (by decide)).1

/-- Settles O24: FLUSH is one word write, and a word write that stops at byte `j` has stored the `j` bytes before. -/
theorem flushStoresTheWordAtItsSlot : Obligations.FlushStoresTheWordAtItsSlot := by
  intro k s hwf
  refine ⟨fun hanswers => ⟨s.mem.writeWord (slotAddr s k) (s.enc.accOf k), s.enc.closeOf k, ?_, fun i hi => ?_, fun b hb => ?_,
      by cases k <;> rfl⟩,
    fun j hj ha hanswers hm => ⟨s.mem.writeFirst (slotAddr s k) (s.enc.accOf k) j, ?_, fun i hi => ?_, fun b hb => ?_⟩⟩
  · rw [exec_flush, flushOp_ok k hanswers]; rfl
  · exact Memory.read_writeWord hwf (Answers.word_fits hanswers) _ hi
  · exact Memory.read_writeWord_outside _ _ _ _ hb
  · rw [exec_flush, flushOp_busError k hj ha hanswers hm]; rfl
  · exact Memory.read_writeFirst hwf _ (fun i hi => (hanswers i hi).1) hi
  · exact Memory.read_writeFirst_outside _ _ _ hb

/-! ## PACKER_INIT (R120) and RESERVE (R121) -/

/-- Settles O22: PACKER_INIT is that one update of the encoder's registers. -/
theorem packerInitClosesTheAccumulators : Obligations.PackerInitClosesTheAccumulators := fun _ => rfl

theorem exec_reserve (s : State) : exec .reserve s = settleReturn .word (reserveOp s) := rfl

theorem reserveOp_of_room {s : State} (h : s.enc.wc.toNat + 4 ≤ s.op.cap.toNat) :
    reserveOp s = .ok s.enc.wc (s.setEnc { s.enc with wc := s.enc.wc + 4 }) := if_neg (by omega)

theorem reserveOp_of_no_room {s : State} (h : s.op.cap.toNat < s.enc.wc.toNat + 4) :
    reserveOp s = .raise .outputTooSmall s := if_pos h

/-- Settles O23: RESERVE's one test, and a cursor within the capacity does not wrap. -/
theorem reserveChecksTheCapacity : Obligations.ReserveChecksTheCapacity := by
  refine fun s => ⟨fun h => ⟨_, toNat_reserve h, ?_⟩, fun h => ?_⟩
  · rw [exec_reserve, reserveOp_of_room h]; rfl
  · rw [exec_reserve, reserveOp_of_no_room h]; rfl

/-! ## Emitting an element (R123 to R125) -/

/-- `get` and `set` are the accumulator of sub-stream `k`, and nothing else of the packer. -/
structure IsAccumOf {cap : Nat} [NeZero cap] (k : SubStream) (get : EncRegs → Accum cap) (set : EncRegs → Accum cap → EncRegs) :
    Prop extends IsWordOf k get set where
  set_set : ∀ e a b, set (set e a) b = set e b
  accOf_set : ∀ e a, (set e a).accOf k = a.acc
  closeOf_set : ∀ e a, (set e a).closeOf k = set e a.closed

theorem isAccumOf_flags : IsAccumOf .flags (fun e => e.f) (fun e a => { e with f := a }) :=
  ⟨isWordOf_flags, fun _ _ _ => rfl, fun _ _ => rfl, fun _ _ => rfl⟩

theorem isAccumOf_strings : IsAccumOf .strings (fun e => e.s) (fun e a => { e with s := a }) :=
  ⟨isWordOf_strings, fun _ _ _ => rfl, fun _ _ => rfl, fun _ _ => rfl⟩

theorem isAccumOf_bytes : IsAccumOf .bytes (fun e => e.b) (fun e a => { e with b := a }) :=
  ⟨isWordOf_bytes, fun _ _ _ => rfl, fun _ _ => rfl, fun _ _ => rfl⟩

section

variable {cap : Nat}

/-- The write cursor after an element has gone to the word `a`: a word that is not open takes a slot. -/
def emitCursor (s : State) (a : Accum cap) : Word := if a.isOpen then s.enc.wc else s.enc.wc + 4

theorem emitCursor_toNat {s : State} {a : Accum cap} (h : a.isOpen = false → s.enc.wc.toNat + 4 ≤ s.op.cap.toNat) :
    (emitCursor s a).toNat = if a.isOpen then s.enc.wc.toNat else s.enc.wc.toNat + 4 := by
  unfold emitCursor
  cases ho : a.isOpen
  · exact toNat_reserve (h ho)
  · rfl

variable [NeZero cap]

theorem wordFor_isOpen (s : State) (a : Accum cap) : (wordFor s a).isOpen = true := by
  unfold wordFor
  split
  · assumption
  · rfl

theorem wordFor_slot (s : State) (a : Accum cap) : (wordFor s a).slot = EmitSlot s a := by
  unfold wordFor EmitSlot
  split <;> rfl

theorem wordFor_pos (s : State) (a : Accum cap) : (wordFor s a).pos.val = EmitPos a := by
  unfold wordFor EmitPos
  split <;> rfl

theorem wordFor_put_acc (s : State) (a : Accum cap) (width : Nat) (v : Word) :
    ((wordFor s a).put width v).acc = EmitWord a width v := by
  have hacc : (wordFor s a).acc = if a.isOpen then a.acc else 0 := by
    unfold wordFor
    split <;> rfl
  rw [Accum.put, hacc, wordFor_pos, EmitWord]

variable {k : SubStream} {get : EncRegs → Accum cap} {set : EncRegs → Accum cap → EncRegs}

/-- `s` with the write cursor where emitting an element to the word `get s.enc` leaves it, and that word become `a`. -/
def emitState (get : EncRegs → Accum cap) (set : EncRegs → Accum cap → EncRegs) (s : State) (a : Accum cap) : State :=
  s.setEnc (set { s.enc with wc := emitCursor s (get s.enc) } a)

/-- Opening the word first and then storing it stores the last of the two. -/
theorem IsAccumOf.openedFor_setEnc (hw : IsAccumOf k get set) (s : State) (a : Accum cap) :
    (openedFor get set s).setEnc (set (openedFor get set s).enc a) = emitState get set s a := by
  unfold openedFor emitState emitCursor
  split
  · rfl
  · exact congrArg s.setEnc (hw.set_set _ _ a)

theorem IsAccumOf.emitOn_of_no_room (hw : IsAccumOf k get set) (width : Nat) (v : Word) {s : State}
    (ho : (get s.enc).isOpen = false) (h : s.op.cap.toNat < s.enc.wc.toNat + 4) :
    emitOn k get set width v s = .raise .outputTooSmall s := by
  rw [emitOn_eq k get set hw.get_set, if_pos ⟨ho, h⟩]

/-- An element that leaves its word with room (R123 to R125). -/
theorem IsAccumOf.emitOn_of_room (hw : IsAccumOf k get set) (width : Nat) (v : Word) {s : State}
    (hroom : (get s.enc).isOpen = false → s.enc.wc.toNat + 4 ≤ s.op.cap.toNat) {p : Fin cap}
    (hp : p.val = EmitPos (get s.enc) + 1) :
    emitOn k get set width v s = .ok () (emitState get set s { (wordFor s (get s.enc)).put width v with pos := p }) := by
  have hnext : ((wordFor s (get s.enc)).put width v).nextPos = some p :=
    nextPos_eq_some.2 (hp.trans (congrArg (· + 1) (wordFor_pos s (get s.enc)).symm))
  rw [emitOn_eq k get set hw.get_set, if_neg fun ⟨ho, h⟩ => absurd h (Nat.not_lt.2 (hroom ho))]
  simp only [hnext, hw.openedFor_setEnc]

/-- An element that fills its word, which is stored at once (R122 to R125). -/
theorem IsAccumOf.emitOn_of_full (hw : IsAccumOf k get set) (width : Nat) (v : Word) {s : State}
    (hroom : (get s.enc).isOpen = false → s.enc.wc.toNat + 4 ≤ s.op.cap.toNat) (hfull : EmitPos (get s.enc) + 1 = cap)
    (hanswers : Answers s (s.op.dst.toNat + (EmitSlot s (get s.enc)).toNat) 4) :
    emitOn k get set width v s =
      .ok () ((emitState get set s ((wordFor s (get s.enc)).put width v).closed).setMem
        (s.mem.writeWord (s.op.dst.toNat + (EmitSlot s (get s.enc)).toNat) (EmitWord (get s.enc) width v))) := by
  have hnext : ((wordFor s (get s.enc)).put width v).nextPos = none :=
    nextPos_eq_none.2 ((congrArg (· + 1) (wordFor_pos s (get s.enc))).trans hfull)
  have hslot : (emitState get set s ((wordFor s (get s.enc)).put width v)).enc.slotOf k = EmitSlot s (get s.enc) := by
    rw [emitState, State.setEnc_enc, hw.slotOf_set, if_pos rfl, ← wordFor_slot]; rfl
  have hacc : (emitState get set s ((wordFor s (get s.enc)).put width v)).enc.accOf k = EmitWord (get s.enc) width v := by
    rw [emitState, State.setEnc_enc, hw.accOf_set, wordFor_put_acc]
  have hclose : (emitState get set s ((wordFor s (get s.enc)).put width v)).enc.closeOf k =
      (emitState get set s ((wordFor s (get s.enc)).put width v).closed).enc := hw.closeOf_set _ _
  rw [emitOn_eq k get set hw.get_set, if_neg fun ⟨ho, h⟩ => absurd h (Nat.not_lt.2 (hroom ho))]
  simp only [hnext, hw.openedFor_setEnc]
  rw [flushOp_ok k (by rw [hslot]; exact hanswers), hslot, hacc, hclose]
  rfl

theorem emitPos_lt (a : Accum cap) : EmitPos a < cap := by
  unfold EmitPos
  split
  · exact a.pos.isLt
  · exact Nat.pos_of_neZero cap

/-- Emitting an element that can be emitted (R123 to R125): the two cases above, by whether the element fills its word. -/
theorem IsAccumOf.emitOn_afterEmit (hw : IsAccumOf k get set) (width : Nat) (v : Word) {s : State} (hwf : s.mem.wf)
    (h : CanEmit s (get s.enc)) :
    ∃ (m : Memory) (a : Accum cap) (w : Word),
      let t : State := (s.setMem m).setEnc (set { s.enc with wc := w } a)
      emitOn k get set width v s = .ok () t ∧ AfterEmit s t (get s.enc) a width v := by
  obtain ⟨hroom, hfits⟩ := h
  have hcursor : ∀ a, (set { s.enc with wc := emitCursor s (get s.enc) } a).wc.toNat =
      if (get s.enc).isOpen then s.enc.wc.toNat else s.enc.wc.toNat + 4 := fun a => by
    rw [hw.wc_set]
    exact emitCursor_toNat hroom
  by_cases hfull : EmitPos (get s.enc) + 1 = cap
  · have hanswers := hfits hfull
    refine ⟨_, _, _, hw.emitOn_of_full width v hroom hfull hanswers, hcursor _, wordFor_slot s _, wordFor_put_acc s _ width v,
      fun hlt => absurd hfull hlt.ne, fun _ => ⟨rfl, rfl, fun i hi => ?_, fun b hb => ?_⟩⟩
    · exact Memory.read_writeWord hwf (Answers.word_fits hanswers) _ hi
    · exact Memory.read_writeWord_outside _ _ _ _ hb
  · have hlt : EmitPos (get s.enc) + 1 < cap := Nat.lt_of_le_of_ne (emitPos_lt _) hfull
    exact ⟨s.mem, _, _, hw.emitOn_of_room width v hroom (p := ⟨_, hlt⟩) rfl, hcursor _, wordFor_slot s _,
      wordFor_put_acc s _ width v, fun _ => ⟨wordFor_isOpen s _, rfl, fun _ => rfl⟩, fun h => absurd h hfull⟩

end

theorem exec_emitFlag (b : Bool) (s : State) : exec (.emitFlag b) s = settle (emitFlagOp b s) := rfl

theorem exec_emitLiteral (v : Byte) (s : State) : exec (.emitLiteral v) s = settle (emitLiteralOp v s) := rfl

theorem exec_emitString (offset length : Nat) (s : State) :
    exec (.emitString offset length) s = settle (emitStringOp offset length s) := rfl

/-- Settles O25: the flag word is an accumulator of 32 elements of 1 bit. -/
theorem emitFlagFillsTheFlagWord : Obligations.EmitFlagFillsTheFlagWord := by
  intro b s hwf h
  obtain ⟨m, a, w, hok, hafter⟩ := isAccumOf_flags.emitOn_afterEmit 1 (if b then 1 else 0) hwf h
  exact ⟨m, a, w, (exec_emitFlag b s).trans (congrArg settle hok), hafter⟩

/-- Settles O26: the byte word is an accumulator of 4 elements of 8 bits. -/
theorem emitLiteralFillsTheByteWord : Obligations.EmitLiteralFillsTheByteWord := by
  intro v s hwf h
  obtain ⟨m, a, w, hok, hafter⟩ := isAccumOf_bytes.emitOn_afterEmit 8 (v.zeroExtend 32) hwf h
  exact ⟨m, a, w, (exec_emitLiteral v s).trans (congrArg settle hok), hafter⟩

/-! ## The token of a match (R146) -/

/-- The two fields of a token of a match in range do not overlap, and fill at most its 16 bits. -/
theorem packToken_toNat {op : OpParams} (h : EncParams op) {off len : Nat} (hoff : 3 ≤ off) (hoff' : off ≤ op.maxOff)
    (hlen : 3 ≤ len) (hlen' : len ≤ op.maxLen) : (packToken op.ls off len).toNat = (len - 3) * 2 ^ op.ls + (off - 3) := by
  obtain ⟨hmaxOff, hmaxLen⟩ := maxOff_maxLen_eq h
  obtain ⟨hlegal, hls, -⟩ := h
  have hlow : off - 3 < 2 ^ op.ls := by omega
  have hhigh : len - 3 + 1 ≤ 2 ^ (16 - op.ls) := by omega
  have hbound : (len - 3 + 1) * 2 ^ op.ls ≤ 65536 := by
    rw [← two_pow_mul_of_dictLegal hlegal hls, Nat.mul_comm (2 ^ op.ls)]
    exact Nat.mul_le_mul_right _ hhigh
  rw [Nat.succ_mul] at hbound
  rw [packToken, ← Nat.shiftLeft_add_eq_or_of_lt hlow, Nat.shiftLeft_eq, BitVec.toNat_ofNat, Nat.mod_eq_of_lt (by omega)]

/-- EMIT_STRING of a match in the range of R146 emits its token. -/
theorem emitStringOp_eq {s : State} {off len : Nat} (hoff : 3 ≤ off) (hoff' : off ≤ s.op.maxOff) (hlen : 3 ≤ len)
    (hlen' : len ≤ s.op.maxLen) :
    emitStringOp off len s = emitOn .strings (fun e => e.s) (fun e a => { e with s := a }) 16
      ((packToken s.op.ls off len).zeroExtend 32) s := by
  rw [emitStringOp, tokenPackOp, assertRange_pos ⟨hoff, hoff', hlen, hlen'⟩, Res.bind_ok]

/-- Settles O27: the string word is an accumulator of 2 elements of 16 bits, and the token's value is R146's sum. -/
theorem emitStringFillsTheStringWord : Obligations.EmitStringFillsTheStringWord := by
  intro off len s hwf henc hoff hoff' hlen hlen' h
  have htoken : (packToken s.op.ls off len).zeroExtend 32 = BitVec.ofNat 32 ((len - 3) * 2 ^ s.op.ls + (off - 3)) := by
    rw [← packToken_toNat henc hoff hoff' hlen hlen', BitVec.ofNat_toNat]
  obtain ⟨m, a, w, hok, hafter⟩ := isAccumOf_strings.emitOn_afterEmit 16 ((packToken s.op.ls off len).zeroExtend 32) hwf h
  refine ⟨m, a, w, ?_, htoken ▸ hafter⟩
  rw [exec_emitString, emitStringOp_eq hoff hoff' hlen hlen', hok]
  rfl

/-- Settles O28: RESERVE is the first thing an element does to a word that is not open. -/
theorem emitWithoutRoomRaisesOutputTooSmall : Obligations.EmitWithoutRoomRaisesOutputTooSmall := by
  intro b v s h
  refine ⟨fun ho => ?_, fun ho => ?_, fun ho _ off len hoff hoff' hlen hlen' => ?_⟩
  · rw [exec_emitFlag, emitFlagOp, isAccumOf_flags.emitOn_of_no_room _ _ ho h]; rfl
  · rw [exec_emitLiteral, emitLiteralOp, isAccumOf_bytes.emitOn_of_no_room _ _ ho h]; rfl
  · rw [exec_emitString, emitStringOp_eq hoff hoff' hlen hlen', isAccumOf_strings.emitOn_of_no_room _ _ ho h]; rfl

/-! ## FINISH (R126) -/

/-- A running packer whose memory has no holes: every open word can be flushed. -/
structure CanFlush (s : State) : Prop where
  wf : s.mem.wf
  fits : s.op.dstEnd ≤ Config.addressSpace
  packer : PackerOk s.op s.enc
  holes : s.plat.holes = []

/-- The word `k` stored if it is open, and closed. -/
def flushed (s : State) (k : SubStream) : State :=
  (s.setMem (if s.enc.openOf k then s.mem.writeWord (slotAddr s k) (s.enc.accOf k) else s.mem)).setEnc (s.enc.closeOf k)

theorem flushed_mem (s : State) (k : SubStream) :
    (flushed s k).mem = if s.enc.openOf k then s.mem.writeWord (slotAddr s k) (s.enc.accOf k) else s.mem := rfl

theorem Accum.closed_of_empty {cap : Nat} [NeZero cap] {a : Accum cap} (ho : a.isOpen = false) (hp : a.pos.val = 0) :
    a.closed = a := by
  have hpos : a.pos = 0 := Fin.ext hp
  rw [Accum.closed, ← ho, ← hpos]

theorem EncRegs.closeOf_of_empty {e : EncRegs} {k : SubStream} (ho : e.openOf k = false) (hp : e.posOf k = 0) :
    e.closeOf k = e := by
  cases k with
  | flags => exact congrArg (fun a => { e with f := a }) (Accum.closed_of_empty ho hp)
  | strings => exact congrArg (fun a => { e with s := a }) (Accum.closed_of_empty ho hp)
  | bytes => exact congrArg (fun a => { e with b := a }) (Accum.closed_of_empty ho hp)

theorem CanFlush.slot_fits {s : State} (h : CanFlush s) {k : SubStream} (ho : s.enc.openOf k = true) :
    slotAddr s k + 4 ≤ Config.addressSpace := by
  have hslot := h.packer.slot k ho
  have hwc := h.packer.wc_le
  have hfits := h.fits
  unfold OpParams.dstEnd at hfits
  unfold slotAddr
  omega

theorem CanFlush.flush {s : State} (h : CanFlush s) (k : SubStream) : CanFlush (flushed s k) where
  wf := by
    rw [flushed_mem]
    split
    · rename_i ho; exact Memory.wf_writeWord h.wf (h.slot_fits ho) _
    · exact h.wf
  fits := h.fits
  packer := h.packer.closeOf k
  holes := h.holes

theorem CanFlush.flushIfOpen_ok {s : State} (h : CanFlush s) (k : SubStream) : flushIfOpen k s = .ok () (flushed s k) := by
  unfold flushIfOpen flushed
  cases ho : s.enc.openOf k with
  | false => rw [EncRegs.closeOf_of_empty ho (h.packer.pos k ho)]; rfl
  | true => exact flushOp_ok k (answers_of_no_holes h.holes (h.slot_fits ho))

theorem flushed_read_outside {s : State} {k : SubStream} {b : Nat}
    (hb : s.enc.openOf k = true → b < slotAddr s k ∨ slotAddr s k + 4 ≤ b) : (flushed s k).mem.read b = s.mem.read b := by
  rw [flushed_mem]
  split
  · rename_i ho; exact Memory.read_writeWord_outside _ _ _ _ (hb ho)
  · rfl

theorem CanFlush.flushed_holdsWord {s : State} (h : CanFlush s) {k : SubStream} (ho : s.enc.openOf k = true) :
    HoldsWord (flushed s k) (slotAddr s k) (s.enc.accOf k) := fun j hj => by
  rw [flushed_mem, if_pos ho]
  exact Memory.read_writeWord h.wf (h.slot_fits ho) _ hj

@[simp] theorem slotAddr_flushed (s : State) (j k : SubStream) : slotAddr (flushed s k) j = slotAddr s j :=
  congrArg (fun w : Word => s.op.dst.toNat + w.toNat) (EncRegs.slotOf_closeOf s.enc j k)

theorem openOf_flushed_of_ne (s : State) {j k : SubStream} (h : j ≠ k) : (flushed s k).enc.openOf j = s.enc.openOf j :=
  (EncRegs.openOf_closeOf s.enc j k).trans (if_neg h)

theorem openOf_of_flushed {s : State} {j k : SubStream} (h : (flushed s k).enc.openOf j = true) : s.enc.openOf j = true := by
  have hopen : (if j = k then false else s.enc.openOf j) = true := (EncRegs.openOf_closeOf s.enc j k).symm.trans h
  split at hopen
  · cases hopen
  · exact hopen

theorem EncRegs.accOf_closeOf (e : EncRegs) (j k : SubStream) : (e.closeOf k).accOf j = e.accOf j := by
  cases j <;> cases k <;> rfl

theorem accOf_flushed (s : State) (j k : SubStream) : (flushed s k).enc.accOf j = s.enc.accOf j := EncRegs.accOf_closeOf s.enc j k

/-- Two open words lie apart: their slots differ and are multiples of 4 (R121). -/
theorem PackerOk.slotAddr_apart {s : State} (h : PackerOk s.op s.enc) {j k : SubStream} (hjk : j ≠ k)
    (hj : s.enc.openOf j = true) (hk : s.enc.openOf k = true) :
    slotAddr s j + 4 ≤ slotAddr s k ∨ slotAddr s k + 4 ≤ slotAddr s j := by
  obtain ⟨-, hmodj, -⟩ := h.slot j hj
  obtain ⟨-, hmodk, -⟩ := h.slot k hk
  have hne : (s.enc.slotOf j).toNat ≠ (s.enc.slotOf k).toNat := fun heq => h.apart j k hjk hj hk (BitVec.eq_of_toNat_eq heq)
  unfold slotAddr
  omega

/-- The words `ks` flushed one after the other. -/
def flushedAll (s : State) (ks : List SubStream) : State := ks.foldl flushed s

theorem flushedAll_read_outside {ks : List SubStream} {s : State} {b : Nat}
    (hb : ∀ k ∈ ks, s.enc.openOf k = true → b < slotAddr s k ∨ slotAddr s k + 4 ≤ b) :
    (flushedAll s ks).mem.read b = s.mem.read b := by
  induction ks generalizing s with
  | nil => rfl
  | cons k ks ih =>
    refine (ih fun j hj ho => ?_).trans (flushed_read_outside (hb k List.mem_cons_self))
    rw [slotAddr_flushed]
    exact hb j (List.mem_cons_of_mem k hj) (openOf_of_flushed ho)

/-- Every open word among `ks` is held at its slot: it is stored there, and the words flushed later lie apart. -/
theorem CanFlush.flushedAll_holdsWord {ks : List SubStream} {s : State} (h : CanFlush s) (hks : ks.Nodup) {k : SubStream}
    (hk : k ∈ ks) (ho : s.enc.openOf k = true) : HoldsWord (flushedAll s ks) (slotAddr s k) (s.enc.accOf k) := by
  induction ks generalizing s with
  | nil => cases hk
  | cons i ks ih =>
    obtain ⟨hi, hnodup⟩ := List.nodup_cons.1 hks
    by_cases hki : k = i
    · subst hki
      intro j hj
      refine (flushedAll_read_outside (s := flushed s k) fun l hl hol => ?_).trans (h.flushed_holdsWord ho j hj)
      have hlk : l ≠ k := fun heq => hi (heq ▸ hl)
      have hapart := h.packer.slotAddr_apart hlk (openOf_of_flushed hol) ho
      rw [slotAddr_flushed]
      omega
    · have hrest := ih (h.flush i) hnodup ((List.mem_cons.1 hk).resolve_left hki) (by rw [openOf_flushed_of_ne s hki, ho])
      rwa [slotAddr_flushed, accOf_flushed] at hrest

theorem finishOp_ok {s : State} (h : CanFlush s) : finishOp s = .ok () (flushedAll s [.flags, .bytes, .strings]) := by
  rw [finishOp, h.flushIfOpen_ok, Res.bind_ok, (h.flush _).flushIfOpen_ok, Res.bind_ok, ((h.flush _).flush _).flushIfOpen_ok]
  rfl

theorem exec_finish (s : State) : exec .finish s = settle (finishOp s) := rfl

/-- Settles O29: FINISH flushes the three words, whose slots are apart. -/
theorem finishStoresEveryOpenWord : Obligations.FinishStoresEveryOpenWord := by
  intro s hwf hrun hholes
  have ⟨hbuf, _⟩ := hrun
  have h : CanFlush s := ⟨hwf, (regions_fit hbuf).2, packerOk_of_encRun hrun, hholes⟩
  have hall : ∀ k, k ∈ [SubStream.flags, .bytes, .strings] := fun k => by cases k <;> decide
  refine ⟨(flushedAll s [.flags, .bytes, .strings]).mem,
    { s.enc with f := s.enc.f.closed, s := s.enc.s.closed, b := s.enc.b.closed }, ?_, rfl, rfl, rfl, rfl,
    fun k => by cases k <;> exact ⟨rfl, rfl, rfl⟩, rfl, rfl, rfl, fun k ho => ?_, fun b hb => ?_⟩
  · rw [exec_finish, finishOp_ok h]; rfl
  · exact h.flushedAll_holdsWord (by decide) (hall k) ho
  · exact flushedAll_read_outside fun k _ ho => hb k ho

end Sys2Proof.Machine
end

section
/-! The encoder's parameters (R140, R141, R171), and that TOKEN_UNPACK takes back what TOKEN_PACK returns (R146, R151, R176). -/

namespace Sys2Proof.Machine

open Sys2Proof Sys2Proof.Safety

/-! ## TOKEN_PACK (R146) and TOKEN_UNPACK (R176) -/

/-- TOKEN_PACK of a match in the range of R146. -/
theorem exec_tokenPack {s : State} {off len : Nat} (hoff : 3 ≤ off) (hoff' : off ≤ s.op.maxOff) (hlen : 3 ≤ len)
    (hlen' : len ≤ s.op.maxLen) :
    exec (.tokenPack off len) s = .next (s.setResult (.token (packToken s.op.ls off len))) :=
  congrArg (settleReturn .token) (assertRange_pos ⟨hoff, hoff', hlen, hlen'⟩ _)

/-- The fields of the token of a match in range are the match (R151): the offset's part is below the length's unit. -/
theorem tokenFields_packToken {op : OpParams} (h : EncParams op) {off len : Nat} (hoff : 3 ≤ off) (hoff' : off ≤ op.maxOff)
    (hlen : 3 ≤ len) (hlen' : len ≤ op.maxLen) : tokenFields op.ls (packToken op.ls off len) = (off, len) := by
  have hlow : off - 3 < 2 ^ op.ls := by
    have := (maxOff_maxLen_eq h).1
    omega
  rw [tokenFields, packToken_toNat h hoff hoff' hlen hlen', Nat.mul_add_mod_self_right,
    Nat.mod_eq_of_lt hlow, Nat.mul_comm, Nat.mul_add_div (Nat.two_pow_pos _), Nat.div_eq_of_lt hlow, Prod.mk.injEq]
  omega

/-- Settles O18: the token is R146's sum, and dividing it by `2^ls` gives its two parts back. -/
theorem tokenPackIsUndoneByUnpack : Obligations.TokenPackIsUndoneByUnpack := by
  intro off len s henc hdec hoff hoff' hlen hlen'
  refine ⟨packToken s.op.ls off len, packToken_toNat henc hoff hoff' hlen hlen', exec_tokenPack hoff hoff' hlen hlen', ?_⟩
  rw [exec_tokenUnpack hdec, tokenFields_packToken henc hoff hoff' hlen hlen']
  rfl

/-! ## DERIVE_PARAMS (R140) and DEC_INIT (R171) -/

theorem offsetMaskOf_toNat {d : Word} (h : dictLegal d = true) : (offsetMaskOf d).toNat = d.toNat - 1 := by
  have hpos : 0 < d.toNat := two_pow_log2_of_dictLegal h ▸ Nat.two_pow_pos _
  unfold offsetMaskOf
  bv_omega

theorem lengthMaskOf_toNat (d : Word) : (lengthMaskOf d).toNat = 2 ^ (16 - Nat.log2 d.toNat) - 1 := by
  have hbits : 2 ^ (16 - Nat.log2 d.toNat) ≤ 2 ^ 16 := Nat.pow_le_pow_right (by decide) (Nat.sub_le 16 _)
  exact Nat.mod_eq_of_lt (by omega)

/-- The state after DERIVE_PARAMS of a legal dictionary length. -/
def paramsDerived (d : Word) (s : State) : State :=
  s.setOp { s.op with ls := Nat.log2 d.toNat, maxOff := maxOffsetOf d, maxLen := maxMatchOf d }

theorem deriveParamsOp_ok {d : Word} (h : dictLegal d = true) (s : State) : deriveParamsOp d s = .ok () (paramsDerived d s) :=
  assertRange_pos ((dictError_eq_none d).2 h) _

theorem exec_deriveParams (d : Word) (s : State) : exec (.deriveParams d) s = settle (deriveParamsOp d s) := rfl

theorem exec_decInit {n d : Word} (h : dictLegal d = true) (s : State) :
    exec (.decInit n d) s = .next
      ((s.setOp { s.op with n := n, d := d, ls := Nat.log2 d.toNat, offMask := offsetMaskOf d, lenMask := lengthMaskOf d }).setDec
        { s.dec with rc := 8, o := 0, rem := n, fIdx := 32, sLeft := 0, bLeft := 0 }) :=
  congrArg settle (assertRange_pos ((dictError_eq_none d).2 h) _)

/-- Settles O30: both operations assert only that `d` is legal, and a legal `d` is `2 ^ log2 d`. -/
theorem parametersOfALegalDictionary : Obligations.ParametersOfALegalDictionary := by
  refine fun n d s hlegal => ⟨Nat.log2 d.toNat, offsetMaskOf d, lengthMaskOf d, two_pow_log2_of_dictLegal hlegal,
    offsetMaskOf_toNat hlegal, lengthMaskOf_toNat d, ?_, exec_decInit hlegal s⟩
  rw [exec_deriveParams, deriveParamsOp_ok hlegal]
  rfl

/-! ## VALIDATE_DICT (R141) -/

theorem validateDictOp_ok {d : Word} (h : dictLegal d = true) (s : State) : validateDictOp d s = .ok () s := by
  rw [validateDictOp, (dictError_eq_none d).2 h]

theorem validateDictOp_raise {d : Word} {c : ErrorCode} (h : dictError d = some c) (s : State) :
    validateDictOp d s = .raise c s := by
  rw [validateDictOp, h]

theorem exec_validateDict (d : Word) (s : State) : exec (.validateDict d) s = settle (validateDictOp d s) := rfl

theorem exec_validateDict_raise {d : Word} {c : ErrorCode} (h : dictError d = some c) (s : State) :
    exec (.validateDict d) s = exec (.errorEntry c) s := by
  rw [exec_validateDict, validateDictOp_raise h]
  rfl

theorem dictError_of_not_two_pow {d : Word} (h : ¬∃ k, d.toNat = 2 ^ k) : dictError d = some .invalidDictionary :=
  if_pos ((powerOfTwo_test d).2 h)

/-- The first check lets every power of two go on to the two bounds. -/
theorem dictError_of_two_pow {d : Word} {k : Nat} (h : d.toNat = 2 ^ k) :
    dictError d = if d.toNat < 4 then some .dictionaryTooSmall else if 16384 < d.toNat then some .dictionaryTooLarge else none :=
  if_neg fun htest => (powerOfTwo_test d).1 htest ⟨k, h⟩

/-- Settles O31: the checks are a test for a power of two and then two bounds, 4 and `2^14`. -/
theorem validateDictSortsEveryValue : Obligations.ValidateDictSortsEveryValue := by
  refine fun d s => ⟨fun hlegal => ?_, fun hnot => ?_, fun hsmall => ?_, ?_⟩
  · rw [exec_validateDict, validateDictOp_ok hlegal, settle_ok]
  · exact exec_validateDict_raise (dictError_of_not_two_pow hnot) s
  · have hpow : ∃ k, d.toNat = 2 ^ k := hsmall.elim (fun h1 => ⟨0, h1⟩) fun h2 => ⟨1, h2⟩
    obtain ⟨k, hk⟩ := hpow
    exact exec_validateDict_raise (by rw [dictError_of_two_pow hk, if_pos (by omega)]) s
  · rintro ⟨k, hk15, hk⟩
    have hlarge : 2 ^ 15 ≤ d.toNat := hk ▸ Nat.pow_le_pow_right (by decide) hk15
    exact exec_validateDict_raise (by rw [dictError_of_two_pow hk, if_neg (by omega), if_pos (by omega)]) s

end Sys2Proof.Machine
end

section
/-! The match-finder where memory answers (R142 to R145): the match length of a candidate, and the closed form of the scan over the
candidates. -/

namespace Sys2Proof.Machine

open Sys2Proof Sys2Proof.Safety

/-! ## MATCH_LEN (R143) -/

/-- `l` is how many of the first `lim` bytes at `a` and at `b` are equal, from the first on (R143's loop). -/
structure EqualRun (s : State) (a b lim l : Nat) : Prop where
  le : l ≤ lim
  same : ∀ i < l, s.mem.read (a + i) = s.mem.read (b + i)
  differ : l < lim → s.mem.read (a + l) ≠ s.mem.read (b + l)

section

variable {s : State} {a b lim l : Nat}

theorem EqualRun.of_differ (h : s.mem.read a ≠ s.mem.read b) : EqualRun s a b (lim + 1) 0 :=
  ⟨Nat.zero_le _, fun _ hi => absurd hi (Nat.not_lt_zero _), fun _ => h⟩

theorem EqualRun.of_same (h : s.mem.read a = s.mem.read b) (hrun : EqualRun s (a + 1) (b + 1) lim l) :
    EqualRun s a b (lim + 1) (l + 1) where
  le := Nat.succ_le_succ hrun.le
  same
    | 0, _ => h
    | i + 1, hi => by
      have := hrun.same i (Nat.lt_of_succ_lt_succ hi)
      rwa [Nat.add_right_comm a, Nat.add_right_comm b] at this
  differ hlt := by
    have := hrun.differ (Nat.lt_of_succ_lt_succ hlt)
    rwa [Nat.add_right_comm a, Nat.add_right_comm b] at this

theorem matchRun_ok (ha : Answers s a lim) (hb : Answers s b lim) : ∃ l, matchRun s a b lim = .ok l ∧ EqualRun s a b lim l := by
  induction lim generalizing a b with
  | zero => exact ⟨0, rfl, le_rfl, fun _ hi => absurd hi (Nat.not_lt_zero _), fun h => absurd h (Nat.lt_irrefl 0)⟩
  | succ lim ih =>
    have hreada : memRead1 s a = .ok (s.mem.read a) := memRead1_ok (ha 0 (Nat.succ_pos lim)).1 (ha 0 (Nat.succ_pos lim)).2
    have hreadb : memRead1 s b = .ok (s.mem.read b) := memRead1_ok (hb 0 (Nat.succ_pos lim)).1 (hb 0 (Nat.succ_pos lim)).2
    rw [matchRun, hreada, Access.bind_ok, hreadb, Access.bind_ok]
    rw [Nat.add_comm lim] at ha hb
    by_cases heq : s.mem.read a = s.mem.read b
    · obtain ⟨l, hl, hrun⟩ := ih (answers_add.1 ha).2 (answers_add.1 hb).2
      exact ⟨l + 1, by rw [if_pos heq, hl, Access.bind_ok], hrun.of_same heq⟩
    · exact ⟨0, if_neg heq, .of_differ heq⟩

end

section

variable {s : State} {start cur lim l l' : Nat}

/-- A candidate has one match length: the shorter of two would end where the longer goes on. -/
theorem isMatchLen_unique (h : IsMatchLen s start cur lim l) (h' : IsMatchLen s start cur lim l') : l = l' := by
  obtain ⟨hle, hsame, hdiffer⟩ := h
  obtain ⟨hle', hsame', hdiffer'⟩ := h'
  rcases Nat.lt_trichotomy l l' with hlt | heq | hgt
  · exact absurd (hsame' l hlt) (hdiffer (hlt.trans_le hle'))
  · exact heq
  · exact absurd (hsame l' hgt) (hdiffer' (hgt.trans_le hle))

/-- MATCH_LEN where memory answers from the candidate to the end of the comparison. -/
theorem matchLenAt_ok (hstart : start ≤ cur) (h : Answers s (s.op.src.toNat + start) (cur - start + lim)) :
    ∃ l, matchLenAt s start cur lim = .ok l ∧ IsMatchLen s start cur lim l := by
  have hcur : Answers s (s.op.src.toNat + cur) lim := by
    have := (answers_add.1 h).2
    rwa [Nat.add_assoc, Nat.add_sub_cancel' hstart] at this
  rw [Nat.add_comm (cur - start)] at h
  obtain ⟨l, hl, hle, hsame, hdiffer⟩ := matchRun_ok (answers_add.1 h).1 hcur
  exact ⟨l, hl, hle, hsame, hdiffer⟩

end

/-- Settles O32: MATCH_LEN compares bytes at which memory answers, one by one, and changes only the result. -/
theorem matchLenCountsEqualBytes : Obligations.MatchLenCountsEqualBytes := by
  intro start cur lim s hoperands hanswers
  have hstart : start + 3 ≤ cur := by
    simp only [Instr.wellFormed, Bool.and_eq_true, decide_eq_true_eq] at hoperands
    exact hoperands.1
  obtain ⟨l, hl, hlen⟩ := matchLenAt_ok (by omega) hanswers
  exact ⟨l, hlen, congrArg (fun x => settleReturn .length (Access.toRes x s)) hl⟩

/-! ## MATCH_SEARCH (R144) -/

/-- `m`, as (length, offset), is the longest match of the candidates from `first` to before `last`, and of these the closest. -/
structure IsBestMatch (s : State) (cur lim first last : Nat) (m : Nat × Nat) : Prop where
  offset_le : m.2 ≤ cur
  first_le : first ≤ cur - m.2
  lt_last : cur - m.2 < last
  length : IsMatchLen s (cur - m.2) cur lim m.1
  best : ∀ start l, first ≤ start → start < last → IsMatchLen s start cur lim l → l ≤ m.1 ∧ (l = m.1 → start ≤ cur - m.2)

/-- What the scan of the candidates from `first` to before `last` has found: R144's start value if there was none. -/
def Scanned (s : State) (cur lim first last : Nat) (m : Nat × Nat) : Prop :=
  last = first ∧ m = (0, 0) ∨ IsBestMatch s cur lim first last m

section

variable {s : State} {cur lim first c l : Nat} {m : Nat × Nat}

/-- A candidate after the last is the closest so far; it is the best if every other match is at most as long. -/
theorem IsBestMatch.of_longest (hc : c ≤ cur) (hfirst : first ≤ c) (hl : IsMatchLen s c cur lim l)
    (hothers : ∀ start l', first ≤ start → start < c → IsMatchLen s start cur lim l' → l' ≤ l) :
    IsBestMatch s cur lim first (c + 1) (l, cur - c) := by
  have hback : cur - (cur - c) = c := Nat.sub_sub_self hc
  refine ⟨Nat.sub_le _ _, ?_, ?_, ?_, fun start l' h1 h2 h3 => ?_⟩ <;> simp only [hback]
  · exact hfirst
  · exact Nat.lt_succ_self c
  · exact hl
  · refine ⟨?_, fun _ => Nat.le_of_lt_succ h2⟩
    rcases Nat.lt_succ_iff_lt_or_eq.1 h2 with hlt | rfl
    · exact hothers start l' h1 hlt h3
    · exact (isMatchLen_unique h3 hl).le

/-- A candidate with a shorter match leaves the best one. -/
theorem IsBestMatch.of_shorter (h : IsBestMatch s cur lim first c m) (hl : IsMatchLen s c cur lim l) (hlt : l < m.1) :
    IsBestMatch s cur lim first (c + 1) m := by
  refine ⟨h.offset_le, h.first_le, Nat.lt_succ_of_lt h.lt_last, h.length, fun start l' h1 h2 h3 => ?_⟩
  rcases Nat.lt_succ_iff_lt_or_eq.1 h2 with hbefore | rfl
  · exact h.best start l' h1 hbefore h3
  · have := isMatchLen_unique h3 hl
    omega

/-- One candidate more (R144): a match of equal length that comes later is closer, and wins. -/
theorem Scanned.next (h : Scanned s cur lim first c m) (hc : c ≤ cur) (hfirst : first ≤ c) (hl : IsMatchLen s c cur lim l) :
    Scanned s cur lim first (c + 1) (if l ≥ m.1 then (l, cur - c) else m) := by
  right
  rcases h with ⟨hempty, hm⟩ | hbest
  · rw [if_pos (by rw [hm]; exact Nat.zero_le l)]
    exact .of_longest hc hfirst hl fun start _ h1 h2 => by omega
  · split
    · rename_i hge
      exact .of_longest hc hfirst hl fun start l' h1 h2 h3 => (hbest.best start l' h1 h2 h3).1.trans hge
    · rename_i hlt
      exact hbest.of_shorter hl (Nat.lt_of_not_ge hlt)

/-- The rest of the scan. -/
theorem searchFrom_ok {count : Nat} (hanswers : Answers s s.op.src.toNat (cur + lim)) (hfirst : first ≤ c)
    (hlast : count ≠ 0 → c + count ≤ cur) (h : Scanned s cur lim first c m) :
    ∃ m', searchFrom s cur lim count c m = .ok m' ∧ Scanned s cur lim first (c + count) m' := by
  induction count generalizing c m with
  | zero => exact ⟨m, rfl, h⟩
  | succ count ih =>
    have hc := hlast (Nat.succ_ne_zero count)
    have hcandidate : Answers s (s.op.src.toNat + c) (cur - c + lim) :=
      (answers_add.1 (by rwa [show c + (cur - c + lim) = cur + lim by omega])).2
    obtain ⟨l, hl, hlen⟩ := matchLenAt_ok (by omega) hcandidate
    obtain ⟨m', hm', hscanned⟩ := ih (by omega) (fun _ => by omega) (h.next (by omega) hfirst hlen)
    refine ⟨m', ?_, ?_⟩
    · rw [searchFrom, hl, Access.bind_ok, hm']
    · rwa [show c + (count + 1) = c + 1 + count by omega]

end

/-- The bytes that a search reads answer where the input region has no hole. -/
theorem answers_matchLimit {s : State} {cur : Nat} (hs : s.op.srcEnd ≤ Config.addressSpace) (hholes : s.plat.holes = [])
    (hc : cur ≤ s.op.len.toNat) : Answers s s.op.src.toNat (cur + matchLimit s.op cur) := by
  refine answers_of_no_holes hholes ?_
  unfold OpParams.srcEnd at hs
  unfold matchLimit
  omega

theorem findMatch_ok {s : State} {cur : Nat} (hs : s.op.srcEnd ≤ Config.addressSpace) (hholes : s.plat.holes = [])
    (hc : cur ≤ s.op.len.toNat) :
    ∃ m, findMatch s cur = .ok m ∧ Scanned s cur (matchLimit s.op cur) (firstCandidate s.op.maxOff cur)
      (firstCandidate s.op.maxOff cur + candidateCount s.op.maxOff cur) m :=
  searchFrom_ok (answers_matchLimit hs hholes hc) le_rfl (fun _ => by unfold candidateCount at *; omega) (.inl ⟨rfl, rfl⟩)

/-- The state after a search that has found `m`. -/
def matchFound (m : Nat × Nat) (s : State) : State :=
  s.setEnc { s.enc with bestLen := BitVec.ofNat 32 m.1, bestOff := BitVec.ofNat 32 m.2 }

theorem matchSearchOp_ok {s : State} {cur : Nat} {m : Nat × Nat} (hc : cur < s.op.len.toNat) (h : findMatch s cur = .ok m) :
    matchSearchOp cur s = .ok m (matchFound m s) := by
  rw [matchSearchOp, assertRange_pos hc, h, Access.toRes_ok, Res.bind_ok]
  rfl

theorem exec_matchSearch (cur : Nat) (s : State) :
    exec (.matchSearch cur) s = settleReturn (fun m => .offLen m.2 m.1) (matchSearchOp cur s) := rfl

/-- Before position 3 there is no candidate (R142). -/
theorem Scanned.eq_of_cur_lt {s : State} {cur lim maxOff : Nat} {m : Nat × Nat} (hc : cur < 3)
    (h : Scanned s cur lim (firstCandidate maxOff cur) (firstCandidate maxOff cur + candidateCount maxOff cur) m) : m = (0, 0) := by
  rcases h with ⟨-, hm⟩ | hbest
  · exact hm
  · have hlt := hbest.lt_last
    have hle := hbest.first_le
    unfold candidateCount firstCandidate at hlt
    unfold firstCandidate at hle
    omega

/-- From position 3 on the candidates are those from `max(0, cur - maxOff)` to `cur - 3` (R142), of which there is one. -/
theorem Scanned.isBestMatch {s : State} {cur lim maxOff : Nat} {m : Nat × Nat} (hc : 3 ≤ cur) (hmax : 3 ≤ maxOff)
    (h : Scanned s cur lim (firstCandidate maxOff cur) (firstCandidate maxOff cur + candidateCount maxOff cur) m) :
    IsBestMatch s cur lim (cur - maxOff) (cur - 2) m := by
  have hlast : firstCandidate maxOff cur + candidateCount maxOff cur = cur - 2 := by
    unfold candidateCount firstCandidate
    omega
  rw [hlast, firstCandidate] at h
  rcases h with ⟨hempty, -⟩ | hbest
  · omega
  · exact hbest

/-- Settles O33: the scan reads inside the input region, and what it finds is the best of the candidates of R142. -/
theorem matchSearchFindsTheLongestClosest : Obligations.MatchSearchFindsTheLongestClosest := by
  intro cur s hc hbuf hholes hmax
  obtain ⟨m, hm, hscanned⟩ := findMatch_ok (regions_fit hbuf).1 hholes hc.le
  refine ⟨m.1, m.2, ?_, fun hnone => ?_, fun hsome => ?_⟩
  · rw [exec_matchSearch, matchSearchOp_ok hc hm, settleReturn_ok]
    rfl
  · rw [hscanned.eq_of_cur_lt hnone]
    exact ⟨rfl, rfl⟩
  · obtain ⟨hoff, hfirst, hlast, hlen, hbest⟩ := hscanned.isBestMatch hsome hmax
    exact ⟨by omega, by omega, hoff, hlen, fun start l h1 h2 h3 => hbest start l h1 (by omega) h3⟩

end Sys2Proof.Machine
end

section
/-! ENCODE_STEP (R147): its parts in their order, and, where two more slots fit and memory has no holes, what they store. -/

namespace Sys2Proof.Machine

open Sys2Proof Sys2Proof.Safety

/-! ## A rule after which the block is still BUSY -/

/-- Error entry makes the block IDLE (R235), so a rule run by itself that leaves it BUSY has raised nothing. -/
theorem eq_ok_of_settle_of_busy {α : Type} {x : Res α} {t : State} (h : settle x = .next t) (hbusy : t.fsm ≠ .idle) :
    ∃ a, x = .ok a t := by
  rcases settle_eq_next.1 h with hok | ⟨e, u, -, rfl⟩ | ⟨u, -, rfl⟩
  · exact hok
  · exact absurd (enterError_fsm e u) hbusy
  · exact absurd (recordError_fsm .busError u) hbusy

theorem eq_ok_of_settleReturn_of_busy {α : Type} {out : α → OpResult} {x : Res α} {t : State} (h : settleReturn out x = .next t)
    (hbusy : t.fsm ≠ .idle) : ∃ a u, x = .ok a u ∧ t = u.setResult (out a) := by
  obtain ⟨_, hok⟩ := eq_ok_of_settle_of_busy h hbusy
  obtain ⟨a, u, hx, ht⟩ := Res.bind_eq_ok.1 hok
  cases ht
  exact ⟨a, u, hx, rfl⟩

/-! ## The element step from its parts (R147) -/

section

variable {s t u v : State} {m : Nat × Nat}

theorem encodeStepOp_string (hsearch : matchSearchOp s.enc.cur.toNat s = .ok m t) (hlong : 2 < m.1)
    (hflag : emitFlagOp true t = .ok () u) (hstring : emitStringOp m.2 m.1 u = .ok () v) :
    encodeStepOp s = .ok () (advanceCur m.1 v) := by
  rw [encodeStepOp, hsearch, Res.bind_ok, if_pos hlong, hflag, Res.bind_ok, hstring, Res.bind_ok]

theorem encodeStepOp_literal (hsearch : matchSearchOp s.enc.cur.toNat s = .ok m t) (hshort : m.1 ≤ 2)
    (hflag : emitFlagOp false t = .ok () u) {b : Byte} (hread : memRead1 u (u.op.src.toNat + u.enc.cur.toNat) = .ok b)
    (hliteral : emitLiteralOp b u = .ok () v) : encodeStepOp s = .ok () (advanceCur 1 v) := by
  rw [encodeStepOp, hsearch, Res.bind_ok, if_neg (Nat.not_lt.2 hshort), hflag, Res.bind_ok, hread, Access.toRes_ok, Res.bind_ok,
    hliteral, Res.bind_ok]

theorem exec_encodeStep (s : State) : exec .encodeStep s = settle (encodeStepOp s) := rfl

end

/-! ## The input byte at the read cursor -/

/-- What a literal is read by is kept: the parameters, the platform and the read cursor. -/
structure SameReadPosition (s t : State) : Prop where
  op : t.op = s.op
  plat : t.plat = s.plat
  cur : t.enc.cur = s.enc.cur

theorem SameReadPosition.setEnc {s t : State} (h : SameReadPosition s t) {e : EncRegs} (he : e.cur = t.enc.cur) :
    SameReadPosition s (t.setEnc e) := ⟨h.op, h.plat, he.trans h.cur⟩

theorem flushOp_sameReadPosition {k : SubStream} {s t : State} (h : flushOp k s = .ok () t) : SameReadPosition s t := by
  obtain ⟨⟨⟩, u, hwrite, hclose⟩ := Res.bind_eq_ok.1 h
  obtain ⟨-, rfl⟩ := memWrite4_eq_ok hwrite
  cases hclose
  exact ⟨rfl, rfl, EncRegs.cur_closeOf s.enc k⟩

/-- Emitting an element, whatever the state of the packer, does not move the read cursor. -/
theorem IsWordOf.emitOn_sameReadPosition {cap : Nat} [NeZero cap] {k : SubStream} {get : EncRegs → Accum cap}
    {set : EncRegs → Accum cap → EncRegs} (hw : IsWordOf k get set) {width : Nat} {v : Word} {s t : State}
    (h : emitOn k get set width v s = .ok () t) : SameReadPosition s t := by
  have hopened : SameReadPosition s (openedFor get set s) := by
    unfold openedFor
    split
    · exact ⟨rfl, rfl, rfl⟩
    · exact ⟨rfl, rfl, hw.cur_set _ _⟩
  rw [emitOn_eq k get set hw.get_set] at h
  split at h
  · cases h
  · dsimp only at h
    split at h
    · cases h
      exact hopened.setEnc (hw.cur_set _ _)
    · obtain ⟨hop, hplat, hcur⟩ := flushOp_sameReadPosition h
      obtain ⟨hop', hplat', hcur'⟩ := hopened.setEnc (hw.cur_set _ ((wordFor s (get s.enc)).put width v))
      exact ⟨hop.trans hop', hplat.trans hplat', hcur.trans hcur'⟩

/-- A search that completes has found what it records, and changes nothing else. -/
theorem matchSearchOp_eq_ok {cur : Nat} {m : Nat × Nat} {s t : State} (h : matchSearchOp cur s = .ok m t) :
    t = matchFound m s := by
  obtain ⟨n, u, hfind, hset⟩ := Res.bind_eq_ok.1 (assertRange_eq_ok.1 h).2
  cases hset
  cases hm : findMatch s cur <;> rw [hm] at hfind <;> cases hfind
  rfl

/-- Settles O34: each part of the premise has left the block BUSY, so it has raised nothing, and the parts are ENCODE_STEP's own; the
flag moves neither the read cursor nor the input region. -/
theorem encodeStepEmitsFlagThenPayload : Obligations.EncodeStepEmitsFlagThenPayload := by
  intro s u v w len off _ hsearch hu hresult hflag hv
  obtain ⟨m, t, hm, rfl⟩ := eq_ok_of_settleReturn_of_busy hsearch (by rw [hu]; decide)
  obtain ⟨rfl, rfl⟩ := OpResult.offLen.inj hresult
  obtain rfl := matchSearchOp_eq_ok hm
  obtain ⟨⟨⟩, hflag⟩ := eq_ok_of_settle_of_busy hflag (by rw [hv]; decide)
  change emitFlagOp (decide (2 < m.1)) (matchFound m s) = .ok () v at hflag
  refine ⟨fun hlong hstring hw => ?_, fun hshort hanswers hliteral hw => ?_⟩
  · obtain ⟨⟨⟩, hstring⟩ := eq_ok_of_settle_of_busy hstring (by rw [hw]; decide)
    rw [decide_eq_true hlong] at hflag
    rw [exec_encodeStep, encodeStepOp_string hm hlong hflag hstring]
    rfl
  · obtain ⟨⟨⟩, hliteral⟩ := eq_ok_of_settle_of_busy hliteral (by rw [hw]; decide)
    rw [decide_eq_false (Nat.not_lt.2 hshort)] at hflag
    obtain ⟨hop, hplat, hcur⟩ := isWordOf_flags.emitOn_sameReadPosition hflag
    have hread : memRead1 v (v.op.src.toNat + v.enc.cur.toNat) = .ok (v.mem.read (s.op.src.toNat + s.enc.cur.toNat)) := by
      rw [hop, hcur]
      exact memRead1_ok (hanswers 0 Nat.one_pos).1 (hplat ▸ (hanswers 0 Nat.one_pos).2)
    rw [exec_encodeStep, encodeStepOp_literal hm hshort hflag hread hliteral]
    rfl

/-! ## What the parts store, where memory has no holes -/

/-- A part of an element step that reserves at most `n` bytes: it changes the encoder's registers and memory only, and stores only
between the header and the write cursor that it leaves. -/
structure StoresWithin (n : Nat) (s t : State) : Prop where
  only : t = (s.setMem t.mem).setEnc t.enc
  wf : t.mem.wf
  wc_ge : s.enc.wc.toNat ≤ t.enc.wc.toNat
  wc_le : t.enc.wc.toNat ≤ s.enc.wc.toNat + n
  below : ∀ b, b < s.op.dst.toNat + 8 ∨ s.op.dst.toNat + t.enc.wc.toNat ≤ b → t.mem.read b = s.mem.read b

section

variable {i j : Nat} {s t u : State}

theorem StoresWithin.op (h : StoresWithin i s t) : t.op = s.op := congrArg (·.op) h.only

theorem StoresWithin.plat (h : StoresWithin i s t) : t.plat = s.plat := congrArg (·.plat) h.only

theorem StoresWithin.mono (h : StoresWithin i s t) (hij : i ≤ j) : StoresWithin j s t :=
  ⟨h.only, h.wf, h.wc_ge, h.wc_le.trans (Nat.add_le_add_left hij _), h.below⟩

theorem StoresWithin.trans (h : StoresWithin i s t) (k : StoresWithin j t u) : StoresWithin (i + j) s u where
  only := k.only.trans (congrArg (fun x : State => (x.setMem u.mem).setEnc u.enc) h.only :)
  wf := k.wf
  wc_ge := h.wc_ge.trans k.wc_ge
  wc_le := by have := h.wc_le; have := k.wc_le; omega
  below b hb := by
    have hwc := k.wc_ge
    exact (k.below b (by rw [h.op]; exact hb)).trans (h.below b (by omega))

/-- A change of registers that leaves the write cursor stores nothing. -/
theorem StoresWithin.setEnc (hwf : s.mem.wf) {e : EncRegs} (he : e.wc = s.enc.wc) : StoresWithin 0 s (s.setEnc e) :=
  ⟨rfl, hwf, he ▸ le_rfl, he ▸ le_rfl, fun _ _ => rfl⟩

theorem StoresWithin.advanceCur (h : StoresWithin i s t) (k : Nat) : StoresWithin i s (advanceCur k t) :=
  h.trans (.setEnc (e := { t.enc with cur := t.enc.cur + BitVec.ofNat 32 k }) h.wf rfl)

theorem StoresWithin.canFlush (h : StoresWithin i s t) (hs : CanFlush s) (hp : PackerOk s.op t.enc) : CanFlush t :=
  ⟨h.wf, h.op ▸ hs.fits, h.op ▸ hp, h.plat ▸ hs.holes⟩

theorem canFlush_of_encRun (h : EncRun s) (hwf : s.mem.wf) (hholes : s.plat.holes = []) : CanFlush s :=
  ⟨hwf, (regions_fit h.1).2, packerOk_of_encRun h, hholes⟩

end

section

variable {cap : Nat} [NeZero cap] {k : SubStream} {get : EncRegs → Accum cap} {set : EncRegs → Accum cap → EncRegs}

/-- The slot of an element lies between the header and the write cursor that emitting it leaves. -/
theorem IsAccumOf.emitSlot_range (hw : IsAccumOf k get set) {s : State} (h : PackerOk s.op s.enc)
    (hroom : s.enc.wc.toNat + 4 ≤ s.op.cap.toNat) :
    8 ≤ (EmitSlot s (get s.enc)).toNat ∧ (EmitSlot s (get s.enc)).toNat + 4 ≤ (emitCursor s (get s.enc)).toNat := by
  rw [emitCursor_toNat fun _ => hroom]
  unfold EmitSlot
  split
  · rename_i ho
    have hslot := h.slot k (hw.get_open s.enc ▸ ho)
    rw [hw.get_slot]
    exact ⟨hslot.1, hslot.2.2⟩
  · exact ⟨h.wc_ge, le_rfl⟩

/-- Emitting an element where one more slot fits (R123 to R125): at most that slot is reserved, and at most its word is stored. -/
theorem IsAccumOf.emitOn_stores (hw : IsAccumOf k get set) (width : Nat) (v : Word) {s : State} (h : CanFlush s)
    (hroom : s.enc.wc.toNat + 4 ≤ s.op.cap.toNat) :
    ∃ t, emitOn k get set width v s = .ok () t ∧ StoresWithin 4 s t ∧ Packed s t := by
  have hpacked := hw.emitOn_packed width v h.fits h.packer
  obtain ⟨hslot, hslot'⟩ := hw.emitSlot_range h.packer hroom
  have hcursor := emitCursor_toNat (s := s) (a := get s.enc) fun _ => hroom
  have hwc : ∀ a, (emitState get set s a).enc.wc = emitCursor s (get s.enc) := fun a => hw.wc_set _ a
  have hge : s.enc.wc.toNat ≤ (emitCursor s (get s.enc)).toNat := by rw [hcursor]; split <;> omega
  have hle : (emitCursor s (get s.enc)).toNat ≤ s.enc.wc.toNat + 4 := by rw [hcursor]; split <;> omega
  by_cases hfull : EmitPos (get s.enc) + 1 = cap
  · have hspace : s.op.dst.toNat + (EmitSlot s (get s.enc)).toNat + 4 ≤ Config.addressSpace := by
      have hfits := h.fits
      have hwcle := hle.trans hroom
      unfold OpParams.dstEnd at hfits
      omega
    have hok := hw.emitOn_of_full width v (fun _ => hroom) hfull (answers_of_no_holes h.holes hspace)
    rw [hok] at hpacked
    refine ⟨_, hok, ⟨rfl, Memory.wf_writeWord h.wf hspace _, ?_, ?_, fun b hb => ?_⟩, hpacked⟩
    · rwa [State.setMem_enc, hwc]
    · rwa [State.setMem_enc, hwc]
    · rw [State.setMem_enc, hwc] at hb
      exact Memory.read_writeWord_outside _ _ _ _ (by omega)
  · have hlt : EmitPos (get s.enc) + 1 < cap := Nat.lt_of_le_of_ne (emitPos_lt _) hfull
    have hok := hw.emitOn_of_room width v (fun _ => hroom) (p := ⟨_, hlt⟩) rfl
    rw [hok] at hpacked
    refine ⟨_, hok, ⟨rfl, h.wf, ?_, ?_, fun _ _ => rfl⟩, hpacked⟩
    · rwa [hwc]
    · rwa [hwc]

end

/-- The search of an element step completes, with a match in range or none, and leaves the packer. -/
theorem matchSearchOp_packed {s : State} {cur : Nat} (hsrc : s.op.srcEnd ≤ Config.addressSpace) (h : CanFlush s)
    (hc : cur < s.op.len.toNat) :
    ∃ m, matchSearchOp cur s = .ok m (matchFound m s) ∧ MatchIn s.op.maxOff (matchLimit s.op cur) m ∧
      Packed s (matchFound m s) := by
  obtain ⟨m, hm, -⟩ := findMatch_ok hsrc h.holes hc.le
  have hall := matchSearchOp_all hsrc hc h.packer
  rw [matchSearchOp_ok hc hm] at hall
  exact ⟨m, matchSearchOp_ok hc hm, hall⟩

/-- An element step where two more slots fit (R147, R152): the flag takes at most one, the payload at most the other. -/
theorem encodeStepOp_stores {s : State} (hrun : EncRun s) (h : CanFlush s) (hc : s.enc.cur.toNat < s.op.len.toNat)
    (hroom : s.enc.wc.toNat + 8 ≤ s.op.cap.toNat) : ∃ t, encodeStepOp s = .ok () t ∧ StoresWithin 8 s t := by
  have ⟨hbuf, _⟩ := hrun
  have hsrc := (regions_fit hbuf).1
  obtain ⟨m, hsearch, ⟨hlim, hoff⟩, hpacked⟩ := matchSearchOp_packed hsrc h hc
  have hfound : StoresWithin 0 s (matchFound m s) := .setEnc h.wf rfl
  obtain ⟨u, hflag, hu, hup⟩ := isAccumOf_flags.emitOn_stores 1 (if decide (2 < m.1) then 1 else 0)
    (hfound.canFlush h hpacked.packer) (show s.enc.wc.toNat + 4 ≤ s.op.cap.toNat by omega)
  have hup := hpacked.trans hup
  have hu := hfound.trans hu
  have hcan := hu.canFlush h hup.packer
  have hroom' : u.enc.wc.toNat + 4 ≤ u.op.cap.toNat := by
    have := hu.wc_le
    rw [hu.op]
    omega
  by_cases hlong : 2 < m.1
  · rw [decide_eq_true hlong] at hflag
    obtain ⟨v, hstring, hv, -⟩ := isAccumOf_strings.emitOn_stores 16 ((packToken u.op.ls m.2 m.1).zeroExtend 32) hcan hroom'
    obtain ⟨hoff3, hoffmax⟩ := hoff (by omega)
    rw [← emitStringOp_eq hoff3 (hu.op ▸ hoffmax) hlong (hu.op ▸ hlim.trans (Nat.min_le_left _ _))] at hstring
    exact ⟨_, encodeStepOp_string hsearch hlong hflag hstring, (hu.trans hv).advanceCur _⟩
  · rw [decide_eq_false hlong] at hflag
    have haddr : u.op.src.toNat + u.enc.cur.toNat < Config.addressSpace := by
      unfold OpParams.srcEnd at hsrc
      rw [hu.op, hup.cur]
      omega
    have hread := memRead1_ok haddr (memOk_nil hcan.holes _)
    obtain ⟨v, hliteral, hv, -⟩ := isAccumOf_bytes.emitOn_stores 8
      ((u.mem.read (u.op.src.toNat + u.enc.cur.toNat)).zeroExtend 32) hcan hroom'
    exact ⟨_, encodeStepOp_literal hsearch (Nat.le_of_not_lt hlong) hflag hread hliteral, (hu.trans hv).advanceCur 1⟩

/-- Settles O35: the step completes because its two slots fit, and a step that completes keeps the running COMPRESS and advances. -/
theorem encodeStepCompletesAndAdvances : Obligations.EncodeStepCompletesAndAdvances := by
  intro s _ hwf hrun hholes hc hroom
  obtain ⟨t, hok, hstores⟩ := encodeStepOp_stores hrun (canFlush_of_encRun hrun hwf hholes) hc hroom
  have hencoded := encodeStepOp_all hrun hc
  rw [hok] at hencoded
  obtain ⟨m, e, rfl⟩ : ∃ m e, t = (s.setMem m).setEnc e := ⟨_, _, hstores.only⟩
  have ⟨_, _, hcur, _⟩ := hencoded.run
  exact ⟨m, e, congrArg settle hok, hencoded.run, hencoded.cur, hcur, hstores.wc_le, hstores.below⟩

end Sys2Proof.Machine
end

section
/-! COMPRESS_BODY where memory has no holes (R148): its start step, and its loop and end step where two slots fit for every element. -/

namespace Sys2Proof.Machine

open Sys2Proof Sys2Proof.Safety

/-! ## The start step (R148) -/

/-- The state after COMPRESS's start step: parameters derived, header written and recorded, packer empty, at the first element. -/
def encStarted (s : State) : State :=
  let u := packerInitOp (headerWritten s.op.len s.op.d (paramsDerived s.op.d s))
  u.setEnc { u.enc with cur := 0 }

section

variable {s : State}

theorem checkRegions_ok (hbuf : s.op.bufferBad = false) (hdevices : s.plat.devices = []) : checkRegions s = .ok () s := by
  simp [checkRegions, hbuf, regionsOrdinary, hdevices]

theorem prefetch_of_no_holes (h : s.plat.holes = []) : prefetch s = .ok () s :=
  prefetch_of_no_hole (inputHasHole_nil h s.op)

theorem encStartChecks_ok (h : CanCompress s) (hcap : 8 ≤ s.op.cap.toNat) :
    encStartChecks s = .ok () (paramsDerived s.op.d s) := by
  have hroom : ¬s.op.cap.toNat < Config.headerBytes := Nat.not_lt.2 hcap
  obtain ⟨-, hbuf, hlegal, hholes, hdevices⟩ := h
  rw [encStartChecks, checkRegions_ok hbuf hdevices, Res.bind_ok, prefetch_of_no_holes hholes, Res.bind_ok,
    validateDictOp_ok hlegal, Res.bind_ok, if_neg hroom, deriveParamsOp_ok hlegal]

theorem header_fits (hbuf : s.op.bufferBad = false) (hcap : 8 ≤ s.op.cap.toNat) : s.op.dst.toNat + 8 ≤ Config.addressSpace :=
  (Nat.add_le_add_left hcap _).trans (regions_fit hbuf).2

theorem encStartHeader_ok (hbuf : s.op.bufferBad = false) (hholes : s.plat.holes = []) (hcap : 8 ≤ s.op.cap.toNat) :
    encStartHeader s = .ok () (headerWritten s.op.len s.op.d s) := by
  rw [encStartHeader, if_pos (memOk_nil hholes _), prefetch_of_no_holes hholes, Res.bind_ok,
    writeHeaderOp_ok _ _ (answers_of_no_holes hholes (header_fits hbuf hcap))]

theorem encStartStep_ok (h : CanCompress s) (hcap : 8 ≤ s.op.cap.toNat) : encStartStep s = .ok () (encStarted s) := by
  have ⟨_, hbuf, _, hholes, _⟩ := h
  have hheader : encStartHeader (paramsDerived s.op.d s) = .ok () (headerWritten s.op.len s.op.d (paramsDerived s.op.d s)) :=
    encStartHeader_ok hbuf hholes hcap
  rw [encStartStep, encStartChecks_ok h hcap, Res.beforeWrites_ok, Res.bind_ok, hheader, Res.bind_ok]
  exact prefetch_of_no_holes hholes

theorem encStarted_encRun (h : CanCompress s) (hcap : 8 ≤ s.op.cap.toNat) : EncRun (encStarted s) := by
  have hall := encStartStep_all s
  rw [encStartStep_ok h hcap] at hall
  exact hall.2

theorem encStarted_wf (h : CanCompress s) (hcap : 8 ≤ s.op.cap.toNat) : (encStarted s).mem.wf := by
  have ⟨hwf, hbuf, _⟩ := h
  have hfits := header_fits hbuf hcap
  have hfirst : s.op.dst.toNat + 4 ≤ Config.addressSpace := by omega
  exact Memory.wf_writeWord (Memory.wf_writeWord hwf hfirst _) hfits _

end

/-! ## The loop and the end step (R148, R211) -/

section

variable {s : State}

theorem encLoopStep_element (hholes : s.plat.holes = []) (hc : s.enc.cur.toNat < s.op.len.toNat) :
    encLoopStep s = encodeStepOp s := by
  rw [encLoopStep, prefetch_of_no_holes hholes, Res.bind_ok, if_pos hc]

theorem encLoop_element (hholes : s.plat.holes = []) (hc : s.enc.cur.toNat < s.op.len.toNat) (fuel : Nat) :
    encLoop (fuel + 1) s = (encodeStepOp s).bind fun _ t => encLoop fuel t := by
  rw [encLoop, if_pos hc, encLoopStep_element hholes hc]

theorem encLoop_end (hholes : s.plat.holes = []) (hc : s.op.len.toNat ≤ s.enc.cur.toNat) (fuel : Nat) :
    encLoop fuel s = encEndStep s := by
  have hend := Nat.not_lt.2 hc
  cases fuel with
  | zero => rw [encLoop, prefetch_of_no_holes hholes, Res.bind_ok]
  | succ fuel => rw [encLoop, if_neg hend, encLoopStep, prefetch_of_no_holes hholes, Res.bind_ok, if_neg hend]

/-- An open word's slot lies between the header and the write cursor, which flushing leaves. -/
theorem CanFlush.flushed_stores (h : CanFlush s) (k : SubStream) : StoresWithin 0 s (flushed s k) := by
  have hwc : (flushed s k).enc.wc = s.enc.wc := EncRegs.wc_closeOf s.enc k
  refine ⟨rfl, (h.flush k).wf, hwc ▸ le_rfl, hwc ▸ le_rfl, fun b hb => flushed_read_outside fun ho => ?_⟩
  obtain ⟨hslot, -, hslot'⟩ := h.packer.slot k ho
  rw [hwc] at hb
  unfold slotAddr
  omega

/-- The end step stores the open words at their slots and completes with the write cursor as the result. -/
theorem encEndStep_ok (h : CanFlush s) :
    ∃ t, encEndStep s = .ok () (completeOp t.enc.wc t) ∧ StoresWithin 0 s t ∧ PackerOk s.op t.enc := by
  have hflags := h.flush .flags
  have hbytes := hflags.flush .bytes
  have hstores := ((h.flushed_stores .flags).trans (hflags.flushed_stores .bytes)).trans (hbytes.flushed_stores .strings)
  exact ⟨_, by rw [encEndStep, finishOp_ok h, Res.bind_ok]; rfl, hstores, hstores.op ▸ (hbytes.flush .strings).packer⟩

/-- The loop with room for two slots an element, by induction on the element steps left. -/
theorem encLoop_completes {fuel : Nat} (hrun : EncRun s) (h : CanFlush s)
    (hroom : s.enc.wc.toNat + 8 * (s.op.len.toNat - s.enc.cur.toNat) ≤ s.op.cap.toNat)
    (hfuel : s.op.len.toNat - s.enc.cur.toNat ≤ fuel) :
    ∃ t, encLoop fuel s = .ok () (completeOp t.enc.wc t) ∧
      StoresWithin (8 * (s.op.len.toNat - s.enc.cur.toNat)) s t ∧ PackerOk s.op t.enc := by
  induction fuel generalizing s with
  | zero =>
    obtain ⟨t, hend, hstores, hpacker⟩ := encEndStep_ok h
    exact ⟨t, by rw [encLoop_end h.holes (by omega), hend], hstores.mono (Nat.zero_le _), hpacker⟩
  | succ fuel ih =>
    rcases Nat.lt_or_ge s.enc.cur.toNat s.op.len.toNat with hc | hc
    · obtain ⟨t, hstep, ht⟩ := encodeStepOp_stores hrun h hc (by omega)
      have hencoded := encodeStepOp_all hrun hc
      rw [hstep] at hencoded
      have hcur := hencoded.cur
      have hwc := ht.wc_le
      have hop := ht.op
      have hcan := canFlush_of_encRun hencoded.run ht.wf (ht.plat ▸ h.holes)
      obtain ⟨u, hloop, hu, hpacker⟩ := ih hencoded.run hcan (by rw [hop]; omega) (by rw [hop]; omega)
      rw [hop] at hu hpacker
      exact ⟨u, by rw [encLoop_element h.holes hc, hstep, Res.bind_ok, hloop], (ht.trans hu).mono (by omega), hpacker⟩
    · obtain ⟨t, hend, hstores, hpacker⟩ := encEndStep_ok h
      exact ⟨t, by rw [encLoop_end h.holes hc, hend], hstores.mono (Nat.zero_le _), hpacker⟩

end

/-! ## COMPRESS_BODY (R148) -/

/-- COMPRESS_BODY with room for two slots an element: `u` is the state that COMPLETE is performed in. -/
theorem compressBodyOp_completes {s : State} (h : CanCompress s) (hroom : 8 + 8 * s.op.len.toNat ≤ s.op.cap.toNat) :
    ∃ u, compressBodyOp s = .ok () (completeOp u.enc.wc u) ∧
      StoresWithin (8 * s.op.len.toNat) ((encStarted s).setPhase .loop) u ∧ PackerOk (encStarted s).op u.enc := by
  have hcap : 8 ≤ s.op.cap.toNat := by omega
  have hrun : EncRun ((encStarted s).setPhase .loop) := encStarted_encRun h hcap
  have ⟨_, _, _, hholes, _⟩ := h
  have hcan : CanFlush ((encStarted s).setPhase .loop) := canFlush_of_encRun hrun (encStarted_wf h hcap) hholes
  obtain ⟨u, hloop, hu, hpacker⟩ := encLoop_completes (fuel := s.op.len.toNat) hrun hcan hroom (Nat.sub_le _ _)
  exact ⟨u, by rw [compressBodyOp, encStartStep_ok h hcap, Res.bind_ok]; exact hloop, hu, hpacker⟩

theorem exec_compressBody (s : State) : exec .compressBody s = settle (compressBodyOp s) := rfl

/-- Settles O36: the start step writes the header, the element steps and the end step store above it and below the write cursor, and
COMPLETE returns the write cursor. -/
theorem compressBodyCompletesWithRoom : Obligations.CompressBodyCompletesWithRoom := by
  intro s h hroom
  obtain ⟨u, hok, hstores, hpacker⟩ := compressBodyOp_completes h hroom
  obtain ⟨m, e, rfl⟩ : ∃ m e, u = (((encStarted s).setPhase .loop).setMem m).setEnc e := ⟨_, _, hstores.only⟩
  have ⟨hwf, hbuf, _⟩ := h
  have hfits : s.op.dst.toNat + 8 ≤ Config.addressSpace := header_fits hbuf (by omega)
  obtain ⟨hlen, hdict⟩ := headerWritten_holdsWords s.op.len s.op.d (s := paramsDerived s.op.d s) hwf hfits
  have hheader : ∀ b < s.op.dst.toNat + 8, m.read b = (encStarted s).mem.read b := fun b hb => hstores.below b (.inl hb)
  refine ⟨completeOp e.wc _, congrArg settle hok, rfl, rfl, rfl, hpacker.wc_ge, hpacker.wc_mod, hpacker.wc_le, rfl, rfl,
    fun j hj => ?_, fun j hj => ?_, fun b hb => ?_, ⟨rfl, rfl, rfl, rfl, rfl⟩, rfl⟩
  · exact (hheader _ (by omega)).trans (hlen j hj)
  · exact (hheader _ (by omega)).trans (hdict j hj)
  · have hge : 8 ≤ e.wc.toNat := hpacker.wc_ge
    have hbelow : m.read b = (encStarted s).mem.read b := hstores.below b (hb.imp_left (Nat.lt_add_right 8))
    exact hbelow.trans (headerWritten_outside s.op.len s.op.d (paramsDerived s.op.d s) b
      (hb.imp_right (Nat.le_trans (Nat.add_le_add_left hge _))))

end Sys2Proof.Machine
end

section
/-! The decoder's stream words (R172, R173, R175, R180): what READ_WORD and the refills do where the next word can be read, and the
error each of them raises where it cannot. -/

namespace Sys2Proof.Machine

open Sys2Proof Sys2Proof.Safety

/-! ## READ_WORD (R172) -/

theorem exec_readWord (s : State) : exec .readWord s = settleReturn .word (readWordOp s) := rfl

theorem readWordOp_truncated {s : State} (h : s.op.len.toNat < s.dec.rc.toNat + 4) :
    readWordOp s = .raise .truncatedInput s := if_pos h

/-- A word read where memory does not answer at one of the four bytes (R62). -/
theorem memRead4_busError_of_byte {s : State} {a i : Nat} (ha : a + 4 ≤ Config.addressSpace) (hi : i < 4)
    (hm : memOk s.plat (a + i) = false) : memRead4 s a = .busError := by
  rcases memRead4_cases ha with h | h
  · have hanswers := ((memRead4_eq_ok h).1 i hi).2
    rw [hm] at hanswers
    cases hanswers
  · exact h

theorem readWordOp_busError {s : State} {i : Nat} (hl : s.dec.rc.toNat + 4 ≤ s.op.len.toNat)
    (ha : s.op.src.toNat + s.dec.rc.toNat + 4 ≤ Config.addressSpace) (hi : i < 4)
    (hm : memOk s.plat (s.op.src.toNat + s.dec.rc.toNat + i) = false) : readWordOp s = .raise .busError s := by
  rw [readWordOp, if_neg (Nat.not_lt.2 hl), memRead4_busError_of_byte ha hi hm, Access.toRes_busError, Res.bind_raise]

/-! ## The refills (R173, R175, R180) -/

theorem exec_flagRefill (s : State) : exec .flagRefill s = settle (flagRefillOp s) := rfl
theorem exec_stringRefill (s : State) : exec .stringRefill s = settle (stringRefillOp s) := rfl
theorem exec_byteRefill (s : State) : exec .byteRefill s = settle (byteRefillOp s) := rfl

section

variable {s t : State}

theorem flagRefillOp_ok {w : Word} (h : readWordOp s = .ok w t) : flagRefillOp s = .ok () (loadFlagWord w t) := by
  rw [flagRefillOp, h, Res.bind_ok]

theorem stringRefillOp_ok {w : Word} (h : readWordOp s = .ok w t) : stringRefillOp s = .ok () (loadStringWord w t) := by
  rw [stringRefillOp, h, Res.bind_ok]

theorem byteRefillOp_ok {w : Word} (h : readWordOp s = .ok w t) : byteRefillOp s = .ok () (loadByteWord w t) := by
  rw [byteRefillOp, h, Res.bind_ok]

variable {e : ErrorCode} (h : readWordOp s = .raise e s)

include h

theorem stringRefillOp_raise : stringRefillOp s = .raise e s := by rw [stringRefillOp, h, Res.bind_raise]

theorem byteRefillOp_raise : byteRefillOp s = .raise e s := by rw [byteRefillOp, h, Res.bind_raise]

/-- Where READ_WORD raises, it and each refill are that error entry. -/
theorem exec_refills_raise :
    exec .readWord s = exec (.errorEntry e) s ∧ exec .flagRefill s = exec (.errorEntry e) s ∧
    exec .stringRefill s = exec (.errorEntry e) s ∧ exec .byteRefill s = exec (.errorEntry e) s := by
  rw [exec_readWord, exec_flagRefill, exec_stringRefill, exec_byteRefill, stringRefillOp_raise h, byteRefillOp_raise h,
    flagRefillOp, h]
  exact ⟨rfl, rfl, rfl, rfl⟩

end

/-- Settles O38: each refill is READ_WORD and one update of the current word, so it ends as READ_WORD does. -/
theorem refillsReadTheNextStreamWord : Obligations.RefillsReadTheNextStreamWord := by
  refine fun s => ⟨fun hl hanswers => ⟨s.dec.rc + 4, toNat_reserve hl, ?_⟩, fun hl => ?_, fun hl ha ⟨i, hi, hm⟩ => ?_⟩
  · have hread := readWordOp_ok hl hanswers
    rw [exec_readWord, exec_flagRefill, exec_stringRefill, exec_byteRefill, flagRefillOp_ok hread, stringRefillOp_ok hread,
      byteRefillOp_ok hread, hread]
    exact ⟨rfl, rfl, rfl, rfl⟩
  · exact exec_refills_raise (readWordOp_truncated hl)
  · exact exec_refills_raise (readWordOp_busError hl ha hi hm)

/-! ## The refill of an element whose word is exhausted (R179, R181) -/

section

variable {s : State}

/-- READ_WORD of a word that can be read. -/
theorem readWordOp_of_canReadWord (h : CanReadWord s) :
    readWordOp s = .ok (wordAt s (s.op.src.toNat + s.dec.rc.toNat)) (s.setDec { s.dec with rc := s.dec.rc + 4 }) :=
  readWordOp_ok h.1 h.2

/-- Where memory answers is the platform's matter. -/
theorem Answers.of_plat_eq {t : State} {a n : Nat} (h : Answers s a n) (hplat : t.plat = s.plat) : Answers t a n :=
  fun i hi => ⟨(h i hi).1, hplat ▸ (h i hi).2⟩

/-- The state of the decoder after the byte refill that a literal may need, register by register. -/
theorem afterByteRefill_eq (s : State) :
    AfterByteRefill s = s.setDec { s.dec with
      rc := if s.dec.bLeft = 0 then s.dec.rc + 4 else s.dec.rc
      bWord := LiteralWord s
      bLeft := if s.dec.bLeft = 0 then 4 else s.dec.bLeft } := by
  unfold AfterByteRefill LiteralWord
  split
  · rfl
  · rfl

theorem afterStringRefill_eq (s : State) :
    AfterStringRefill s = s.setDec { s.dec with
      rc := if s.dec.sLeft = 0 then s.dec.rc + 4 else s.dec.rc
      sWord := StringWordNow s
      sLeft := if s.dec.sLeft = 0 then 2 else s.dec.sLeft } := by
  unfold AfterStringRefill StringWordNow
  split
  · rfl
  · rfl

@[simp] theorem afterByteRefill_op (s : State) : (AfterByteRefill s).op = s.op := by rw [afterByteRefill_eq]; rfl
@[simp] theorem afterByteRefill_plat (s : State) : (AfterByteRefill s).plat = s.plat := by rw [afterByteRefill_eq]; rfl
@[simp] theorem afterByteRefill_o (s : State) : (AfterByteRefill s).dec.o = s.dec.o := by rw [afterByteRefill_eq]; rfl
@[simp] theorem afterByteRefill_rem (s : State) : (AfterByteRefill s).dec.rem = s.dec.rem := by rw [afterByteRefill_eq]; rfl

@[simp] theorem afterStringRefill_mem (s : State) : (AfterStringRefill s).mem = s.mem := by rw [afterStringRefill_eq]; rfl
@[simp] theorem afterStringRefill_op (s : State) : (AfterStringRefill s).op = s.op := by rw [afterStringRefill_eq]; rfl
@[simp] theorem afterStringRefill_plat (s : State) : (AfterStringRefill s).plat = s.plat := by rw [afterStringRefill_eq]; rfl
@[simp] theorem afterStringRefill_o (s : State) : (AfterStringRefill s).dec.o = s.dec.o := by rw [afterStringRefill_eq]; rfl
@[simp] theorem afterStringRefill_rem (s : State) : (AfterStringRefill s).dec.rem = s.dec.rem := by rw [afterStringRefill_eq]; rfl

theorem byteWord_ready (h : s.dec.bLeft = 0 → CanReadWord s) :
    (if s.dec.bLeft.val = 0 then byteRefillOp s else .ok () s) = .ok () (AfterByteRefill s) := by
  unfold AfterByteRefill
  by_cases hleft : s.dec.bLeft = 0
  · rw [if_pos (Fin.val_eq_zero_iff.2 hleft), if_pos hleft, byteRefillOp_ok (readWordOp_of_canReadWord (h hleft)),
      LiteralWord, if_pos hleft]
    rfl
  · rw [if_neg (Fin.val_eq_zero_iff.not.2 hleft), if_neg hleft]

theorem stringWord_ready (h : s.dec.sLeft = 0 → CanReadWord s) :
    (if s.dec.sLeft.val = 0 then stringRefillOp s else .ok () s) = .ok () (AfterStringRefill s) := by
  unfold AfterStringRefill
  by_cases hleft : s.dec.sLeft = 0
  · rw [if_pos (Fin.val_eq_zero_iff.2 hleft), if_pos hleft, stringRefillOp_ok (readWordOp_of_canReadWord (h hleft)),
      StringWordNow, if_pos hleft]
    rfl
  · rw [if_neg (Fin.val_eq_zero_iff.not.2 hleft), if_neg hleft]

end

end Sys2Proof.Machine
end

section
/-! The two widths of the length mask (R184). -/

namespace Sys2Proof.Machine

open Sys2Proof Sys2Proof.Safety

/-- The length field that a mask of all the bits above the offset's takes, whatever its width (R184): the mask covers all that the
shift leaves of a token. -/
theorem lengthField_of_wide_mask {ls k : Nat} (hk : 16 - ls ≤ k) {mask : Word} (hmask : mask.toNat = 2 ^ k - 1) {d : Word}
    (hlegal : dictLegal d = true) (hls : 2 ^ ls = d.toNat) (t : Token) :
    (((t.zeroExtend 32) >>> ls) &&& mask).toNat = t.toNat / 2 ^ ls := by
  have hzext : (t.zeroExtend 32).toNat = t.toNat := BitVec.toNat_setWidth_of_le (by decide)
  have hfits : t.toNat / 2 ^ ls < 2 ^ k := (token_div_lt hlegal hls t).trans_le (Nat.pow_le_pow_right (by decide) hk)
  rw [BitVec.toNat_and, BitVec.toNat_ushiftRight, hzext, hmask, Nat.and_two_pow_sub_one_eq_mod, Nat.shiftRight_eq_div_pow,
    Nat.mod_eq_of_lt hfits]

/-- The source's mask: the complement of `d - 1` is `2^32 - d`, a multiple of `d`. -/
theorem complementMask_toNat {d : Word} {ls : Nat} (hlegal : dictLegal d = true) (hls : 2 ^ ls = d.toNat) :
    ((~~~(d - 1)) >>> ls).toNat = 2 ^ (32 - ls) - 1 := by
  obtain ⟨k, -, hk, hd⟩ := (dictLegal_iff d).1 hlegal
  have hlsk : ls = k := Nat.pow_right_injective le_rfl (hls.trans hd)
  have hsplit : 2 ^ ls * 2 ^ (32 - ls) = 2 ^ 32 := by rw [← Nat.pow_add, Nat.add_sub_cancel' (by omega)]
  have hpos := Nat.two_pow_pos ls
  have hnot : (~~~(d - 1)).toNat = 2 ^ ls * (2 ^ (32 - ls) - 1) := by
    rw [Nat.mul_sub_one, hsplit, hls]
    bv_omega
  rw [BitVec.toNat_ushiftRight, Nat.shiftRight_eq_div_pow, hnot, Nat.mul_div_cancel_left _ hpos]

/-- Settles O17: each mask takes all that the shift leaves of the token. -/
theorem lengthMaskWidthsAgree : Obligations.LengthMaskWidthsAgree := by
  intro d ls t hlegal hls
  have hwide := complementMask_toNat hlegal hls
  have hbound : ∀ k ≤ 32, (BitVec.ofNat 32 (2 ^ k - 1)).toNat = 2 ^ k - 1 := fun k hk => by
    have := Nat.pow_le_pow_right (n := 2) (by decide) hk
    exact Nat.mod_eq_of_lt (by omega)
  refine ⟨BitVec.eq_of_toNat_eq (by rw [hwide, hbound _ (Nat.sub_le 32 ls)]), fun off16 => ?_⟩
  rw [unpackToken, unpackToken, lengthField_of_wide_mask (by omega) hwide hlegal hls,
    lengthField_of_wide_mask le_rfl (hbound _ (by omega)) hlegal hls]

end Sys2Proof.Machine
end

section
/-! The decoder's elements (R177 to R181): the string checks, the window copy with the copied window read back, and a literal and a
string whose words are at hand or can be refilled. -/

namespace Sys2Proof.Machine

open Sys2Proof Sys2Proof.Safety

/-! ## The string checks (R177) -/

theorem exec_stringChecks (off len : Nat) (s : State) : exec (.stringChecks off len) s = settle (stringChecksOp off len s) := rfl

section

variable {off len : Nat} {s : State}

theorem stringChecksOp_ok (hoff : off ≤ s.dec.o.toNat) (hlen : len ≤ s.dec.rem.toNat) : stringChecksOp off len s = .ok () s := by
  rw [stringChecksOp, if_neg (Nat.not_lt.2 hoff), if_neg (Nat.not_lt.2 hlen)]

theorem stringChecksOp_badOffset (hoff : s.dec.o.toNat < off) : stringChecksOp off len s = .raise .badOffset s := if_pos hoff

theorem stringChecksOp_lengthOverrun (hoff : off ≤ s.dec.o.toNat) (hlen : s.dec.rem.toNat < len) :
    stringChecksOp off len s = .raise .lengthOverrun s := by
  rw [stringChecksOp, if_neg (Nat.not_lt.2 hoff), if_pos hlen]

end

/-- Settles O39: the offset is tested before the length. -/
theorem stringChecksInOrder : Obligations.StringChecksInOrder := by
  refine fun off len s => ⟨fun hoff hlen => ?_, fun hoff => ?_, fun hoff hlen => ?_⟩ <;> rw [exec_stringChecks]
  · rw [stringChecksOp_ok hoff hlen, settle_ok]
  · rw [stringChecksOp_badOffset hoff]; rfl
  · rw [stringChecksOp_lengthOverrun hoff hlen]; rfl

/-! ## One output byte (R178, R181) -/

/-- The decoder's registers after `k` more bytes have been put out. -/
def DecRegs.putOut (d : DecRegs) (k : Nat) : DecRegs := { d with o := d.o + BitVec.ofNat 32 k, rem := d.rem - BitVec.ofNat 32 k }

section

variable {d : DecRegs} {k : Nat}

theorem DecRegs.putOut_o (hk : k ≤ d.rem.toNat) (hsum : d.o.toNat + d.rem.toNat < 2 ^ 32) :
    (d.putOut k).o.toNat = d.o.toNat + k := by
  rw [putOut, BitVec.toNat_add, BitVec.toNat_ofNat]
  omega

theorem DecRegs.putOut_rem (hk : k ≤ d.rem.toNat) : (d.putOut k).rem.toNat = d.rem.toNat - k := by
  have := d.rem.isLt
  rw [putOut, BitVec.toNat_sub, BitVec.toNat_ofNat]
  omega

theorem DecRegs.putOut_zero (d : DecRegs) : d.putOut 0 = d := by simp [putOut]

theorem DecRegs.putOut_add (d : DecRegs) (i j : Nat) : (d.putOut i).putOut j = d.putOut (i + j) := by
  simp only [putOut, BitVec.ofNat_add, BitVec.add_assoc, sub_add_eq_sub_sub]

end

theorem memRead1_of_answers {s : State} {a n : Nat} (h : Answers s a n) (hn : 0 < n) : memRead1 s a = .ok (s.mem.read a) :=
  memRead1_ok (h 0 hn).1 (h 0 hn).2

theorem memWrite1_of_answers {s : State} {a n : Nat} (h : Answers s a n) (hn : 0 < n) (v : Byte) :
    memWrite1 a v s = .ok () (s.setMem (s.mem.write a v)) := memWrite1_ok (h 0 hn).1 (h 0 hn).2 v

/-- The state after the byte `v` has been put out. -/
def bytePut (v : Byte) (s : State) : State :=
  (s.setMem (s.mem.write (s.op.dst.toNat + s.dec.o.toNat) v)).setDec (s.dec.putOut 1)

theorem putOutput_ok (v : Byte) {s : State} (ha : Answers s (s.op.dst.toNat + s.dec.o.toNat) 1)
    (hr : 0 < s.dec.rem.toNat) (hsum : s.dec.o.toNat + s.dec.rem.toNat < 2 ^ 32) :
    putOutput v s = .ok () (bytePut v s) := by
  rw [putOutput, memWrite1_of_answers ha Nat.one_pos, Res.bind_ok, advanceOutput]
  exact assertRange_pos ⟨show s.dec.o.toNat + 1 < 2 ^ 32 by omega, hr⟩ _

/-! ## WINDOW_COPY (R178) -/

/-- What a copy of `len` bytes from `off` places before the output cursor has made of memory: each byte equals the one `off` places
before it AFTER the copy, and no other byte has changed. -/
structure WindowCopied (off len : Nat) (s : State) (m : Memory) : Prop where
  wf : m.wf
  window : ∀ j < len, m.read (s.op.dst.toNat + s.dec.o.toNat + j) = m.read (s.op.dst.toNat + s.dec.o.toNat + j - off)
  same : ∀ b, b < s.op.dst.toNat + s.dec.o.toNat ∨ s.op.dst.toNat + s.dec.o.toNat + len ≤ b → m.read b = s.mem.read b

/-- One byte copied before the others: the others leave it and the byte it was read from. -/
theorem WindowCopied.step {off k : Nat} {s : State} {m : Memory} (hwf : s.mem.wf) (hoff : 0 < off) (hle : off ≤ s.dec.o.toNat)
    (hrem : 1 ≤ s.dec.rem.toNat) (hsum : s.dec.o.toNat + s.dec.rem.toNat < 2 ^ 32)
    (h : WindowCopied off k (bytePut (s.mem.read (s.op.dst.toNat + s.dec.o.toNat - off)) s) m) :
    WindowCopied off (k + 1) s m := by
  have ho : (s.dec.putOut 1).o.toNat = s.dec.o.toNat + 1 := DecRegs.putOut_o hrem hsum
  obtain ⟨hm, hwindow, hsame⟩ := h
  simp only [bytePut, State.setDec_op, State.setMem_op, State.setDec_dec, State.setDec_mem, State.setMem_mem, ho,
    ← Nat.add_assoc] at hwindow hsame
  refine ⟨hm, fun j hj => ?_, fun b hb => ?_⟩
  · cases j with
    | zero =>
      rw [Nat.add_zero, hsame _ (.inl (Nat.lt_succ_self _)), Memory.read_write_same hwf, hsame _ (.inl (by omega)),
        Memory.read_write_other _ _ _ _ (by omega)]
    | succ j =>
      rw [Nat.add_comm j 1, ← Nat.add_assoc]
      exact hwindow j (Nat.lt_of_succ_lt_succ hj)
  · rw [hsame b (by omega), Memory.read_write_other _ _ _ _ (by omega)]

/-- The loop of WINDOW_COPY where memory answers, by induction on the bytes to copy. -/
theorem copyBytes_ok {off k : Nat} {s : State} (hwf : s.mem.wf) (hoff : 0 < off) (hle : off ≤ s.dec.o.toNat)
    (hk : k ≤ s.dec.rem.toNat) (hsum : s.dec.o.toNat + s.dec.rem.toNat < 2 ^ 32)
    (ha : Answers s (s.op.dst.toNat + s.dec.o.toNat - off) (off + k)) :
    ∃ m, copyBytes off k s = .ok () ((s.setMem m).setDec (s.dec.putOut k)) ∧ WindowCopied off k s m := by
  induction k generalizing s with
  | zero => exact ⟨s.mem, by rw [DecRegs.putOut_zero]; rfl, hwf, fun j hj => absurd hj (Nat.not_lt_zero j), fun _ _ => rfl⟩
  | succ k ih =>
    have hwrite : Answers s (s.op.dst.toNat + s.dec.o.toNat) 1 := fun i hi => by
      have := ha off (by omega)
      rwa [Nat.lt_one_iff.1 hi, Nat.add_zero, ← Nat.sub_add_cancel (hle.trans (Nat.le_add_left _ _))]
    let v := s.mem.read (s.op.dst.toNat + s.dec.o.toNat - off)
    have ho : (s.dec.putOut 1).o.toNat = s.dec.o.toNat + 1 := DecRegs.putOut_o (by omega) hsum
    have hr : (s.dec.putOut 1).rem.toNat = s.dec.rem.toNat - 1 := DecRegs.putOut_rem (by omega)
    have hrest : Answers (bytePut v s) (s.op.dst.toNat + (s.dec.putOut 1).o.toNat - off) (off + k) := fun i hi => by
      have := ha (i + 1) (by omega)
      rwa [ho, show s.op.dst.toNat + (s.dec.o.toNat + 1) - off + i = s.op.dst.toNat + s.dec.o.toNat - off + (i + 1) by omega]
    obtain ⟨m, hcopy, hm⟩ := ih (s := bytePut v s) (Memory.wf_write hwf (hwrite 0 Nat.one_pos).1 v)
      (ho.symm ▸ hle.trans (Nat.le_succ _)) (hr.symm ▸ by omega)
      (show (s.dec.putOut 1).o.toNat + (s.dec.putOut 1).rem.toNat < 2 ^ 32 by omega) hrest
    refine ⟨m, ?_, hm.step hwf hoff hle (by omega) hsum⟩
    rw [copyBytes, memRead1_of_answers ha (by omega), Access.toRes_ok, Res.bind_ok,
      putOutput_ok v hwrite (by omega) hsum, Res.bind_ok, hcopy, Nat.add_comm k 1, ← DecRegs.putOut_add]
    rfl

theorem exec_windowCopy (off len : Nat) (s : State) : exec (.windowCopy off len) s = settle (windowCopyOp off len s) := rfl

theorem windowCopyOp_eq {off len : Nat} {s : State} (hoff : off ≤ s.dec.o.toNat) (hlen : len ≤ s.dec.rem.toNat) :
    windowCopyOp off len s = copyBytes off len s := assertRange_pos ⟨hoff, hlen⟩ _

/-- Settles O40: each byte is read after the write before it, so what a later read of the copy finds is what was copied. -/
theorem windowCopyRepeatsTheWindow : Obligations.WindowCopyRepeatsTheWindow := by
  intro off len s hwf hoff hle hlen hsum ha
  obtain ⟨m, hcopy, hm⟩ := copyBytes_ok hwf (by omega) hle hlen hsum ha
  refine ⟨m, (s.dec.putOut len).o, (s.dec.putOut len).rem, ?_, DecRegs.putOut_o hlen hsum, DecRegs.putOut_rem hlen, hm.window,
    hm.same⟩
  rw [exec_windowCopy, windowCopyOp_eq hle hlen, hcopy]
  rfl

end Sys2Proof.Machine
end

section
/-! The two elements (R179, R181): a literal and a string whose words are at hand or can be refilled, and where each of them raises. -/

namespace Sys2Proof.Machine

open Sys2Proof Sys2Proof.Safety

section

variable {s : State}

/-! ## A literal (R181) -/

theorem exec_lit (s : State) : exec .lit s = settle (literalElementOp s) := rfl

/-- The byte word without its low byte. -/
def dropByte (s : State) : State :=
  s.setDec { s.dec with bWord := s.dec.bWord >>> 8, bLeft := ⟨s.dec.bLeft.val - 1, by omega⟩ }

/-- The decoder's registers after a literal. -/
def literalRegs (s : State) : DecRegs :=
  { s.dec.putOut 1 with
    rc := if s.dec.bLeft = 0 then s.dec.rc + 4 else s.dec.rc
    bWord := LiteralWord s >>> 8
    bLeft := ⟨(if s.dec.bLeft = 0 then 4 else s.dec.bLeft).val - 1, by omega⟩ }

/-- The state after a literal. -/
def literalDone (s : State) : State :=
  (s.setMem (s.mem.write (s.op.dst.toNat + s.dec.o.toNat) ((LiteralWord s).extractLsb' 0 8))).setDec (literalRegs s)

theorem literalElementOp_eq (hready : s.dec.bLeft = 0 → CanReadWord s) :
    literalElementOp s = (putOutput ((LiteralWord s).extractLsb' 0 8) (AfterByteRefill s)).bind fun _ t => .ok () (dropByte t) := by
  rw [literalElementOp, byteWord_ready hready, Res.bind_ok, afterByteRefill_eq]
  rfl

theorem literalElementOp_ok (hready : s.dec.bLeft = 0 → CanReadWord s) (ha : Answers s (s.op.dst.toNat + s.dec.o.toNat) 1)
    (hr : 0 < s.dec.rem.toNat) (hsum : s.dec.o.toNat + s.dec.rem.toNat < 2 ^ 32) :
    literalElementOp s = .ok () (literalDone s) := by
  have ha' : Answers (AfterByteRefill s) ((AfterByteRefill s).op.dst.toNat + (AfterByteRefill s).dec.o.toNat) 1 := by
    rw [afterByteRefill_op, afterByteRefill_o]
    exact Answers.of_plat_eq ha (afterByteRefill_plat s)
  rw [literalElementOp_eq hready, putOutput_ok _ ha' (by simpa using hr) (by simpa using hsum), Res.bind_ok, afterByteRefill_eq]
  rfl

theorem literalElementOp_truncated (hleft : s.dec.bLeft = 0) (h : s.op.len.toNat < s.dec.rc.toNat + 4) :
    literalElementOp s = .raise .truncatedInput s := by
  rw [literalElementOp, if_pos (Fin.val_eq_zero_iff.2 hleft), byteRefillOp_raise (readWordOp_truncated h), Res.bind_raise]

theorem literalElementOp_busError (hready : s.dec.bLeft = 0 → CanReadWord s)
    (ha : s.op.dst.toNat + s.dec.o.toNat < Config.addressSpace) (hm : memOk s.plat (s.op.dst.toNat + s.dec.o.toNat) = false) :
    literalElementOp s = .raise .busError (AfterByteRefill s) := by
  have hm' : memOk (AfterByteRefill s).plat (s.op.dst.toNat + s.dec.o.toNat) = false := by rwa [afterByteRefill_plat]
  rw [literalElementOp_eq hready, putOutput, afterByteRefill_op, afterByteRefill_o, memWrite1_busError ha hm', Res.bind_raise,
    Res.bind_raise]

/-- The read cursor after a refill, if there was one. -/
theorem toNat_rc_of_refill {p : Prop} [Decidable p] (h : p → CanReadWord s) :
    (if p then s.dec.rc + 4 else s.dec.rc).toNat = if p then s.dec.rc.toNat + 4 else s.dec.rc.toNat := by
  split
  · rename_i hp; exact toNat_reserve (h hp).1
  · rfl

end

/-- Settles O41: a literal is its refill, one output byte and the drop of that byte; it raises where the refill or the byte does. -/
theorem literalElementAppendsTheByte : Obligations.LiteralElementAppendsTheByte := by
  refine fun s => ⟨fun hwf hready ha hsum hr => ?_, fun hleft hl => ?_, fun hready hspace hm => ?_⟩ <;> rw [exec_lit]
  · refine ⟨_, (literalRegs s).o, (literalRegs s).rem, (literalRegs s).rc, (literalRegs s).bLeft, ?_, DecRegs.putOut_o hr hsum,
      DecRegs.putOut_rem hr, toNat_rc_of_refill hready, ?_, Memory.read_write_same hwf _ _,
      fun b hb => Memory.read_write_other _ _ _ _ (by omega)⟩
    · rw [literalElementOp_ok hready ha hr hsum]
      rfl
    · unfold literalRegs
      by_cases hleft : s.dec.bLeft = 0
      · simp only [hleft, if_true]; rfl
      · simp only [hleft, if_false]
  · rw [literalElementOp_truncated hleft hl]; rfl
  · rw [literalElementOp_busError hready hspace hm]; rfl

section

variable {s : State}

/-! ## A string (R179) -/

theorem exec_str (s : State) : exec .str s = settle (stringElementOp s) := rfl

/-- The match that the low token of the string word stands for, as (offset, length) (R86). -/
def stringMatch (s : State) : Nat × Nat := tokenFields s.op.ls ((StringWordNow s).extractLsb' 0 16)

/-- The string word without its low token. -/
def dropToken (s : State) : State :=
  s.setDec { s.dec with sWord := s.dec.sWord >>> 16, sLeft := ⟨s.dec.sLeft.val - 1, by omega⟩ }

theorem stringElementOp_eq (hpar : DecParams s.op) (hready : s.dec.sLeft = 0 → CanReadWord s) :
    stringElementOp s =
      (stringChecksOp (stringMatch s).1 (stringMatch s).2 (AfterStringRefill s)).bind fun _ t =>
      (windowCopyOp (stringMatch s).1 (stringMatch s).2 t).bind fun _ t => .ok () (dropToken t) := by
  rw [stringElementOp, stringWord_ready hready, Res.bind_ok, afterStringRefill_eq, stringMatch,
    ← unpackToken_eq_tokenFields hpar]
  rfl

/-- The decoder's registers after a string of `len` bytes. -/
def stringRegs (len : Nat) (s : State) : DecRegs :=
  { s.dec.putOut len with
    rc := if s.dec.sLeft = 0 then s.dec.rc + 4 else s.dec.rc
    sWord := StringWordNow s >>> 16
    sLeft := ⟨(if s.dec.sLeft = 0 then 2 else s.dec.sLeft).val - 1, by omega⟩ }

/-- The state after a string of `len` bytes that has made `m` of memory. -/
def stringDone (len : Nat) (m : Memory) (s : State) : State := (s.setMem m).setDec (stringRegs len s)

theorem stringElementOp_ok (hpar : DecParams s.op) (hready : s.dec.sLeft = 0 → CanReadWord s) (hwf : s.mem.wf)
    (hoff : (stringMatch s).1 ≤ s.dec.o.toNat) (hlen : (stringMatch s).2 ≤ s.dec.rem.toNat)
    (hsum : s.dec.o.toNat + s.dec.rem.toNat < 2 ^ 32)
    (ha : Answers s (s.op.dst.toNat + s.dec.o.toNat - (stringMatch s).1) ((stringMatch s).1 + (stringMatch s).2)) :
    ∃ m, stringElementOp s = .ok () (stringDone (stringMatch s).2 m s) ∧
      WindowCopied (stringMatch s).1 (stringMatch s).2 s m := by
  have hpos : 0 < (stringMatch s).1 := Nat.succ_pos _
  have ho := afterStringRefill_o s
  have hrem := afterStringRefill_rem s
  have hop := afterStringRefill_op s
  obtain ⟨m, hcopy, hwf', hwindow, hsame⟩ := copyBytes_ok (k := (stringMatch s).2) (s := AfterStringRefill s)
    (by rwa [afterStringRefill_mem]) hpos (by rwa [ho]) (by rwa [hrem]) (by rwa [ho, hrem])
    (by rw [hop, ho]; exact Answers.of_plat_eq ha (afterStringRefill_plat s))
  simp only [afterStringRefill_op, afterStringRefill_mem, ho] at hwindow hsame
  refine ⟨m, ?_, hwf', hwindow, hsame⟩
  rw [stringElementOp_eq hpar hready, stringChecksOp_ok (by rwa [ho]) (by rwa [hrem]), Res.bind_ok,
    windowCopyOp_eq (by rwa [ho]) (by rwa [hrem]), hcopy, Res.bind_ok, afterStringRefill_eq]
  rfl

theorem stringElementOp_truncated (hleft : s.dec.sLeft = 0) (h : s.op.len.toNat < s.dec.rc.toNat + 4) :
    stringElementOp s = .raise .truncatedInput s := by
  rw [stringElementOp, if_pos (Fin.val_eq_zero_iff.2 hleft), stringRefillOp_raise (readWordOp_truncated h), Res.bind_raise]

/-- A token that fails a check ends the string in that error, after the refill. -/
theorem stringElementOp_raise (hpar : DecParams s.op) (hready : s.dec.sLeft = 0 → CanReadWord s) {e : ErrorCode}
    (h : stringChecksOp (stringMatch s).1 (stringMatch s).2 (AfterStringRefill s) = .raise e (AfterStringRefill s)) :
    stringElementOp s = .raise e (AfterStringRefill s) := by
  rw [stringElementOp_eq hpar hready, h, Res.bind_raise]

/-- The match of a token by its value: the offset's part is below `d`, the length's is the multiple of it (R86). -/
theorem stringMatch_eq (hpar : DecParams s.op) :
    stringMatch s =
      ((StringWordNow s).toNat % 2 ^ 16 % s.op.d.toNat + 3, (StringWordNow s).toNat % 2 ^ 16 / s.op.d.toNat + 3) := by
  obtain ⟨-, hls, -⟩ := hpar
  rw [stringMatch, tokenFields, hls, BitVec.extractLsb'_toNat, Nat.shiftRight_zero]

end

/-- Settles O42: a string is its refill, the checks of its token's fields, the copy, and the drop of the token. -/
theorem stringElementCopiesFromTheWindow : Obligations.StringElementCopiesFromTheWindow := by
  refine fun s => ⟨fun hleft hl => ?_, fun hpar hready => ?_⟩
  · rw [exec_str, stringElementOp_truncated hleft hl]; rfl
  intro tok off len
  have hmatch : stringMatch s = (off, len) := stringMatch_eq hpar
  have ho := afterStringRefill_o s
  have hrem := afterStringRefill_rem s
  refine ⟨fun hoff => ?_, fun hoff hlen => ?_, fun hoff hlen hwf hsum ha => ?_⟩ <;> rw [exec_str]
  · rw [stringElementOp_raise hpar hready (stringChecksOp_badOffset (by rwa [hmatch, ho]))]; rfl
  · rw [stringElementOp_raise hpar hready (stringChecksOp_lengthOverrun (by rwa [hmatch, ho]) (by rwa [hmatch, hrem]))]; rfl
  · obtain ⟨m, hok, hm⟩ := stringElementOp_ok hpar hready hwf (by rwa [hmatch]) (by rwa [hmatch]) hsum (by rwa [hmatch])
    rw [hmatch] at hok hm
    refine ⟨m, (stringRegs len s).o, (stringRegs len s).rem, (stringRegs len s).rc, (stringRegs len s).sLeft, ?_,
      DecRegs.putOut_o hlen hsum, DecRegs.putOut_rem hlen, toNat_rc_of_refill hready, ?_, hm.window, hm.same⟩
    · rw [hok]; rfl
    · unfold stringRegs
      by_cases hleft : s.dec.sLeft = 0
      · simp only [hleft, if_true]; rfl
      · simp only [hleft, if_false]

end Sys2Proof.Machine
end

section
/-! DECODE_STEP (R174, R182): its parts in their order, what its parts leave alone, and a literal whose words are at hand. -/

namespace Sys2Proof.Machine

open Sys2Proof Sys2Proof.Safety

/-! ## FLAG_ADVANCE (R182) -/

theorem exec_flagAdvance (s : State) : exec .flagAdvance s = settle (flagAdvanceOp s) := rfl

theorem flagAdvanceOp_ok {s : State} (h : s.dec.fIdx.val < 32) :
    flagAdvanceOp s = .ok () (s.setDec { s.dec with fIdx := ⟨s.dec.fIdx.val + 1, Nat.succ_lt_succ h⟩ }) :=
  dif_pos (Nat.succ_lt_succ h)

/-- Settles O43: before the last flag the index advances, and nothing else happens. -/
theorem flagAdvanceReadsNothing : Obligations.FlagAdvanceReadsNothing := fun s h =>
  ⟨⟨s.dec.fIdx.val + 1, Nat.succ_lt_succ h⟩, rfl, congrArg settle (flagAdvanceOp_ok h)⟩

/-! ## What a rule neither reads nor writes -/

/-- The same end of a rule, on a state changed by `f`. -/
def Res.mapState {α : Type} (f : State → State) : Res α → Res α
  | .ok a s => .ok a (f s)
  | .raise e s => .raise e (f s)
  | .unwritten s => .unwritten (f s)
  | .fault g => .fault g
  | .refuse r => .refuse r

/-- The rule `k` does on a state changed by `f` what it does on the state itself. -/
def Commutes {α : Type} (f : State → State) (k : State → Res α) : Prop := ∀ s, k (f s) = (k s).mapState f

/-- `f` changes nothing that the rules of the decoder's elements read or write. -/
structure OutsideDecoder (f : State → State) : Prop where
  op : ∀ s, (f s).op = s.op
  dec : ∀ s, (f s).dec = s.dec
  mem : ∀ s, (f s).mem = s.mem
  plat : ∀ s, (f s).plat = s.plat
  setDec : ∀ s d, (f s).setDec d = f (s.setDec d)
  setMem : ∀ s m, (f s).setMem m = f (s.setMem m)

section

variable {f : State → State} {α β : Type}

theorem Commutes.bind {x : State → Res α} {k : α → State → Res β} (hx : Commutes f x) (hk : ∀ a, Commutes f (k a)) :
    Commutes f fun s => (x s).bind k := fun s => by
  dsimp only
  rw [hx s]
  cases x s with
  | ok a t => exact hk a t
  | _ => rfl

theorem Commutes.ite {p : State → Prop} [DecidablePred p] {x y : State → Res α} (hp : ∀ s, p (f s) ↔ p s) (hx : Commutes f x)
    (hy : Commutes f y) : Commutes f fun s => if p s then x s else y s := fun s => by
  by_cases h : p s
  · simp only [h, (hp s).2 h, if_true, hx s]
  · simp only [h, (hp s).not.2 h, if_false, hy s]

theorem Commutes.ok (a : α) : Commutes f (Res.ok a) := fun _ => rfl

theorem Commutes.raise (e : ErrorCode) : Commutes f (Res.raise e : State → Res α) := fun _ => rfl

theorem Commutes.assertRange {p : State → Prop} [DecidablePred p] {k : State → Res α} (hp : ∀ s, p (f s) ↔ p s)
    (hk : Commutes f k) : Commutes f fun s => assertRange (p s) (k s) :=
  .ite hp hk fun _ => rfl

/-- A rule that does the same whatever `st.fsm` is leaves `st.fsm` as it is. -/
theorem Commutes.fsm_eq {k : State → Res α} (hk : ∀ v, Commutes (·.setFsm v) k) {s t : State} {a : α} (h : k s = .ok a t) :
    t.fsm = s.fsm := by
  have hmap : k s = (k s).mapState (·.setFsm s.fsm) := hk s.fsm s
  rw [h] at hmap
  exact (congrArg (·.fsm) (Res.ok.inj hmap).2 :)

/-- A value read, and the rest of the rule. -/
theorem Commutes.read {x : State → Access α} (hx : ∀ s, x (f s) = x s) : Commutes f fun s => (x s).toRes s := fun s => by
  dsimp only
  rw [hx s]
  cases x s <;> rfl

end

namespace OutsideDecoder

variable {f : State → State} (hf : OutsideDecoder f)

theorem setFsm (v : Fsm) : OutsideDecoder (·.setFsm v) :=
  ⟨fun _ => rfl, fun _ => rfl, fun _ => rfl, fun _ => rfl, fun _ _ => rfl, fun _ _ => rfl⟩

include hf

theorem memRead1 (s : State) (a : Nat) : memRead1 (f s) a = memRead1 s a := by
  simp only [Machine.memRead1, hf.plat, hf.mem]

theorem memRead4 (s : State) (a : Nat) : memRead4 (f s) a = memRead4 s a := by
  simp only [Machine.memRead4, hf.memRead1]

/-- An update of the decoder's registers by a function of them. -/
theorem updateDec {α : Type} (a : α) (g : DecRegs → DecRegs) : Commutes f fun s => .ok a (s.setDec (g s.dec)) := fun s => by
  dsimp only
  rw [hf.dec, hf.setDec]
  rfl

theorem readWordOp : Commutes f readWordOp :=
  .ite (fun s => by rw [hf.dec, hf.op]) (.raise _)
    (.bind (.read fun s => by rw [hf.memRead4, hf.dec, hf.op]) fun w => hf.updateDec w fun d => { d with rc := d.rc + 4 })

theorem flagRefillOp : Commutes f flagRefillOp :=
  .bind hf.readWordOp fun w => hf.updateDec () fun d => { d with fWord := w, fIdx := 0 }

theorem stringRefillOp : Commutes f stringRefillOp :=
  .bind hf.readWordOp fun w => hf.updateDec () fun d => { d with sWord := w, sLeft := 2 }

theorem byteRefillOp : Commutes f byteRefillOp :=
  .bind hf.readWordOp fun w => hf.updateDec () fun d => { d with bWord := w, bLeft := 4 }

theorem flagAdvanceOp : Commutes f flagAdvanceOp := fun s => by
  unfold Machine.flagAdvanceOp
  rw [hf.dec]
  split
  · rw [hf.setDec]; rfl
  · rfl

theorem memWrite1 (v : Byte) {a : State → Nat} (ha : ∀ s, a (f s) = a s) : Commutes f fun s => memWrite1 (a s) v s := fun s => by
  dsimp only [Machine.memWrite1]
  rw [ha, hf.plat, hf.mem, hf.setMem]
  split
  · split <;> rfl
  · rfl

theorem putOutput (v : Byte) : Commutes f (putOutput v) :=
  .bind (hf.memWrite1 v fun s => by rw [hf.op, hf.dec]) fun _ =>
    .assertRange (fun s => by rw [hf.dec]) (hf.updateDec () fun d => { d with o := d.o + 1, rem := d.rem - 1 })

theorem stringChecksOp (off len : Nat) : Commutes f (stringChecksOp off len) :=
  .ite (fun s => by rw [hf.dec]) (.raise _) (.ite (fun s => by rw [hf.dec]) (.raise _) (.ok ()))

theorem copyBytes (off : Nat) : ∀ k, Commutes f (copyBytes off k)
  | 0 => .ok ()
  | k + 1 =>
    .bind (.read fun s => by rw [hf.memRead1, hf.op, hf.dec]) fun v => .bind (hf.putOutput v) fun _ => copyBytes off k

theorem windowCopyOp (off len : Nat) : Commutes f (windowCopyOp off len) :=
  .assertRange (fun s => by rw [hf.dec]) (hf.copyBytes off len)

theorem literalElementOp : Commutes f literalElementOp :=
  .bind (.ite (fun s => by rw [hf.dec]) hf.byteRefillOp (.ok ())) fun _ =>
    .bind (fun s => by rw [hf.dec, hf.putOutput]) fun _ =>
      hf.updateDec () fun d => { d with bWord := d.bWord >>> 8, bLeft := ⟨d.bLeft.val - 1, by omega⟩ }

theorem stringElementOp : Commutes f stringElementOp :=
  .bind (.ite (fun s => by rw [hf.dec]) hf.stringRefillOp (.ok ())) fun _ => fun s => by
    dsimp only
    rw [hf.op, hf.dec]
    exact Commutes.bind (hf.stringChecksOp _ _) (fun _ => .bind (hf.windowCopyOp _ _) fun _ =>
      hf.updateDec () fun d => { d with sWord := d.sWord >>> 16, sLeft := ⟨d.sLeft.val - 1, by omega⟩ }) s

theorem decodeStepOp : Commutes f decodeStepOp :=
  .assertRange (fun s => by rw [hf.dec]) <|
    .bind (.ite (fun s => by rw [hf.dec]) hf.flagRefillOp (.ok ())) fun _ =>
      .bind (.ite (fun s => by rw [hf.dec]) hf.stringElementOp hf.literalElementOp) fun _ => hf.flagAdvanceOp

end OutsideDecoder

/-! ## The parts of DECODE_STEP (R174) -/

theorem exec_decodeStep (s : State) : exec .decodeStep s = settle (decodeStepOp s) := rfl

/-- The element that a flag bit names (R88). -/
def elementOp (flag : Bool) (s : State) : Res Unit := if flag then stringElementOp s else literalElementOp s

theorem exec_decodeElement (flag : Bool) (s : State) : exec (decodeElement flag) s = settle (elementOp flag s) := by
  cases flag <;> rfl

theorem elementOp_commutes {f : State → State} (hf : OutsideDecoder f) (flag : Bool) : Commutes f (elementOp flag) := by
  cases flag
  · exact hf.literalElementOp
  · exact hf.stringElementOp

section

variable {s t : State}

theorem decodeStepOp_element (hr : 0 < s.dec.rem.toNat) (hidx : s.dec.fIdx.val < 32) :
    decodeStepOp s = (elementOp (s.dec.fWord.getLsbD s.dec.fIdx.val) s).bind fun _ => flagAdvanceOp := by
  rw [decodeStepOp, assertRange_pos hr, if_neg hidx.ne, Res.bind_ok]
  rfl

theorem decodeStepOp_exhausted (hr : 0 < s.dec.rem.toNat) (hidx : s.dec.fIdx.val = 32) :
    decodeStepOp s = (flagRefillOp s).bind fun _ t =>
      (elementOp (t.dec.fWord.getLsbD t.dec.fIdx.val) t).bind fun _ => flagAdvanceOp := by
  rw [decodeStepOp, assertRange_pos hr, if_pos hidx]
  rfl

/-- A READ_WORD that returns has moved the read cursor and changed nothing else. -/
theorem readWordOp_eq_ok {w : Word} (h : readWordOp s = .ok w t) : t = s.setDec { s.dec with rc := s.dec.rc + 4 } := by
  unfold readWordOp at h
  split at h
  · cases h
  · obtain ⟨w', u, hread, hset⟩ := Res.bind_eq_ok.1 h
    cases hset
    cases hm : memRead4 s (s.op.src.toNat + s.dec.rc.toNat) <;> rw [hm] at hread <;> cases hread
    rfl

theorem flagRefillOp_eq_ok (h : flagRefillOp s = .ok () t) : t.dec.fIdx = 0 ∧ t.dec.rem = s.dec.rem := by
  obtain ⟨w, u, hread, hload⟩ := Res.bind_eq_ok.1 h
  cases hload
  obtain rfl := readWordOp_eq_ok hread
  exact ⟨rfl, rfl⟩

/-- After a flag refill DECODE_STEP goes on as from the state it has left. -/
theorem decodeStepOp_of_flagRefill (hr : 0 < s.dec.rem.toNat) (hidx : s.dec.fIdx.val = 32) (h : flagRefillOp s = .ok () t) :
    decodeStepOp s = decodeStepOp t := by
  obtain ⟨hfirst, hrem⟩ := flagRefillOp_eq_ok h
  rw [decodeStepOp_exhausted hr hidx, h, Res.bind_ok, decodeStepOp_element (s := t) (by rwa [hrem]) (by rw [hfirst]; decide)]

/-- The state after the flag refill that an element may need (R174). -/
def afterFlagRefill (s : State) : State :=
  if s.dec.fIdx = 32 then
    s.setDec { s.dec with rc := s.dec.rc + 4, fWord := wordAt s (s.op.src.toNat + s.dec.rc.toNat), fIdx := 0 }
  else s

theorem afterFlagRefill_exhausted (h : s.dec.fIdx = 32) :
    afterFlagRefill s =
      s.setDec { s.dec with rc := s.dec.rc + 4, fWord := wordAt s (s.op.src.toNat + s.dec.rc.toNat), fIdx := 0 } := if_pos h

theorem afterFlagRefill_of_flag (h : s.dec.fIdx ≠ 32) : afterFlagRefill s = s := if_neg h

theorem afterFlagRefill_fIdx_lt (s : State) : (afterFlagRefill s).dec.fIdx.val < 32 := by
  by_cases h : s.dec.fIdx = 32
  · rw [afterFlagRefill_exhausted h]; exact Nat.zero_lt_succ 31
  · rw [afterFlagRefill_of_flag h]
    exact Nat.lt_of_le_of_ne (Nat.le_of_lt_succ s.dec.fIdx.isLt) fun hval => h (Fin.ext hval)

/-- DECODE_STEP is what it is after the refill that it may need. -/
theorem decodeStepOp_afterFlagRefill (hr : 0 < s.dec.rem.toNat) (hready : s.dec.fIdx = 32 → CanReadWord s) :
    decodeStepOp s = decodeStepOp (afterFlagRefill s) := by
  by_cases h : s.dec.fIdx = 32
  · refine decodeStepOp_of_flagRefill hr (congrArg Fin.val h) ?_
    rw [flagRefillOp_ok (readWordOp_of_canReadWord (hready h)), afterFlagRefill_exhausted h]
    rfl
  · rw [afterFlagRefill_of_flag h]

/-- A part that ends in a next state other than its return value has ended the rule in it. -/
theorem settle_bind_of_not_ok {α β : Type} {x : Res α} {k : α → State → Res β} (h : settle x = .next t) (hx : ∀ a, x ≠ .ok a t) :
    settle (x.bind k) = .next t := by
  rcases settle_eq_next.1 h with ⟨a, hok⟩ | ⟨e, u, rfl, rfl⟩ | ⟨u, rfl, rfl⟩
  · exact absurd hok (hx a)
  · rfl
  · rfl

end

/-- Settles O44: a part that returns leaves `st.fsm` as it is, and one that does not return ends in an IDLE block. -/
theorem decodeStepFollowsTheFlagBit : Obligations.DecodeStepFollowsTheFlagBit := by
  refine fun s t hdec hr => ⟨fun hidx helem => ?_, fun hidx hrefill => ?_⟩
  · rw [exec_decodeElement] at helem
    rw [exec_decodeStep, decodeStepOp_element hr hidx]
    refine ⟨fun ht => ?_, fun ht => settle_bind_of_not_ok helem fun _ hok => ht ?_⟩
    · obtain ⟨⟨⟩, hok⟩ := eq_ok_of_settle_of_busy helem (by rw [ht]; decide)
      rw [hok, Res.bind_ok, exec_flagAdvance]
    · exact (Commutes.fsm_eq (fun v => elementOp_commutes (.setFsm v) _) hok).trans hdec
  · rw [exec_flagRefill] at hrefill
    rw [exec_decodeStep]
    refine ⟨fun ht => ?_, fun ht => ?_⟩
    · obtain ⟨⟨⟩, hok⟩ := eq_ok_of_settle_of_busy hrefill (by rw [ht]; decide)
      rw [decodeStepOp_of_flagRefill hr hidx hok, exec_decodeStep]
    · rw [decodeStepOp_exhausted hr hidx]
      refine settle_bind_of_not_ok hrefill fun _ hok => ht ?_
      exact (Commutes.fsm_eq (fun v => OutsideDecoder.flagRefillOp (.setFsm v)) hok).trans hdec

/-! ## An element whose words are at hand (R174, R179, R181, R183) -/

section

variable {s : State}

/-- An element that leaves the flag where it was, and the advance. -/
theorem decodeStepOp_eq {t : State} {d : DecRegs} (hr : 0 < s.dec.rem.toNat) (hidx : s.dec.fIdx.val < 32)
    (helem : elementOp (s.dec.fWord.getLsbD s.dec.fIdx.val) s = .ok () (t.setDec d)) (hd : d.fIdx = s.dec.fIdx) :
    decodeStepOp s = .ok () (t.setDec { d with fIdx := ⟨s.dec.fIdx.val + 1, Nat.succ_lt_succ hidx⟩ }) := by
  rw [decodeStepOp_element hr hidx, helem, Res.bind_ok, flagAdvanceOp_ok (s := t.setDec d) (by rwa [State.setDec_dec, hd])]
  simp only [State.setDec_dec, hd]
  rfl

theorem decodeStepOp_literal (hidx : s.dec.fIdx.val < 32) (hflag : s.dec.fWord.getLsbD s.dec.fIdx.val = false)
    (hready : s.dec.bLeft = 0 → CanReadWord s) (ha : Answers s (s.op.dst.toNat + s.dec.o.toNat) 1)
    (hr : 0 < s.dec.rem.toNat) (hsum : s.dec.o.toNat + s.dec.rem.toNat < 2 ^ 32) :
    decodeStepOp s =
      .ok () ((s.setMem (s.mem.write (s.op.dst.toNat + s.dec.o.toNat) ((LiteralWord s).extractLsb' 0 8))).setDec
        { literalRegs s with fIdx := ⟨s.dec.fIdx.val + 1, Nat.succ_lt_succ hidx⟩ }) := by
  refine decodeStepOp_eq hr hidx ?_ rfl
  rw [hflag]
  exact literalElementOp_ok hready ha hr hsum

theorem decodeStepOp_string (hidx : s.dec.fIdx.val < 32) (hflag : s.dec.fWord.getLsbD s.dec.fIdx.val = true)
    (hpar : DecParams s.op) (hready : s.dec.sLeft = 0 → CanReadWord s) (hwf : s.mem.wf)
    (hoff : (stringMatch s).1 ≤ s.dec.o.toNat) (hlen : (stringMatch s).2 ≤ s.dec.rem.toNat)
    (hsum : s.dec.o.toNat + s.dec.rem.toNat < 2 ^ 32)
    (ha : Answers s (s.op.dst.toNat + s.dec.o.toNat - (stringMatch s).1) ((stringMatch s).1 + (stringMatch s).2)) :
    ∃ m, decodeStepOp s =
        .ok () ((s.setMem m).setDec
          { stringRegs (stringMatch s).2 s with fIdx := ⟨s.dec.fIdx.val + 1, Nat.succ_lt_succ hidx⟩ }) ∧
      WindowCopied (stringMatch s).1 (stringMatch s).2 s m := by
  obtain ⟨m, hok, hm⟩ := stringElementOp_ok hpar hready hwf hoff hlen hsum ha
  refine ⟨m, decodeStepOp_eq ((Nat.succ_pos _).trans_le hlen) hidx ?_ rfl, hm⟩
  rw [hflag]
  exact hok

end

/-- Settles O45: the literal's refill is not needed, so DECODE_STEP is the output byte, the drop of that byte and the advance. -/
theorem decodeStepCompletesOnALiteral : Obligations.DecodeStepCompletesOnALiteral := by
  intro s hwf hidx hflag hleft hr hsum ha
  have hne : s.dec.bLeft ≠ 0 := fun h => by rw [h] at hleft; exact absurd hleft (by decide)
  have hstep := decodeStepOp_literal hidx hflag (fun h => absurd h hne) ha hr hsum
  simp only [literalRegs, LiteralWord, hne, if_false] at hstep
  refine ⟨_, _, congrArg settle hstep, DecRegs.putOut_o hr hsum, ?_, rfl, rfl, rfl, rfl, rfl, rfl, Nat.sub_add_cancel hleft,
    Memory.read_write_same hwf _ _, fun b hb => Memory.read_write_other _ _ _ _ (by omega)⟩
  exact (congrArg (· + 1) (DecRegs.putOut_rem hr)).trans (Nat.sub_add_cancel hr)

end Sys2Proof.Machine
end

section
/-! DECOMPRESS never reads DICT_LEN (R185): every rule of its steps does the same on a state with another value there. -/

namespace Sys2Proof.Machine

open Sys2Proof Sys2Proof.Safety

/-- `s` with another value in DICT_LEN. -/
def withDictLen (x : Word) (s : State) : State := s.setRegs { s.regs with dictLen := x }

section

variable (x : Word)

theorem withDictLen_outsideDecoder : OutsideDecoder (withDictLen x) :=
  ⟨fun _ => rfl, fun _ => rfl, fun _ => rfl, fun _ => rfl, fun _ _ => rfl, fun _ _ => rfl⟩

theorem prefetch_commutes : Commutes (withDictLen x) prefetch :=
  .ite (fun _ => Iff.rfl) (.ite (fun _ => Iff.rfl) (fun _ => rfl) fun _ => rfl) (.ok ())

theorem checkRegions_commutes : Commutes (withDictLen x) checkRegions :=
  .ite (fun _ => Iff.rfl) (.raise _) (.ite (fun _ => Iff.rfl) (.ok ()) fun _ => rfl)

theorem readHeaderOp_commutes : Commutes (withDictLen x) readHeaderOp :=
  .bind (.read fun s => (withDictLen_outsideDecoder x).memRead4 s _) fun _ =>
    .bind (.read fun s => (withDictLen_outsideDecoder x).memRead4 s _) fun _ _ => rfl

theorem validateDictOp_commutes (d : Word) : Commutes (withDictLen x) (validateDictOp d) := fun s => by
  unfold validateDictOp
  split <;> rfl

theorem Commutes.beforeWrites {α : Type} {f : State → State} {k : State → Res α} (hk : Commutes f k) :
    Commutes f fun s => (k s).beforeWrites := fun s => by
  dsimp only
  rw [hk s]
  cases k s with
  | raise e t => cases e <;> rfl
  | _ => rfl

theorem decStartStep_commutes : Commutes (withDictLen x) decStartStep :=
  .beforeWrites <| .bind (checkRegions_commutes x) fun _ => .bind (prefetch_commutes x) fun _ =>
    .ite (fun _ => Iff.rfl) (.raise _) <|
      .bind (readHeaderOp_commutes x) fun nd => .bind (prefetch_commutes x) fun _ =>
        .bind (validateDictOp_commutes x nd.2) fun _ =>
          .ite (fun _ => Iff.rfl) (.raise _) (.assertRange (fun _ => Iff.rfl) fun _ => rfl)

theorem decLoopStep_commutes : Commutes (withDictLen x) decLoopStep :=
  .bind (prefetch_commutes x) fun _ =>
    .ite (fun _ => Iff.rfl) (withDictLen_outsideDecoder x).decodeStepOp fun _ => rfl

/-- The rule that a running DECOMPRESS's step runs, whichever of the three it is (R211). -/
theorem stepOp_withDictLen {s : State} (h : s.fsm = .dec) : stepOp (withDictLen x s) = (stepOp s).mapState (withDictLen x) := by
  have hfsm : (withDictLen x s).fsm = .dec := h
  cases habort : s.abortReq with
  | true => simp only [stepOp, habort, show (withDictLen x s).abortReq = true from habort, if_true]; rfl
  | false =>
    cases hphase : s.phase with
    | start =>
      rw [stepOp_start (s := withDictLen x s) habort hphase, stepOp_start habort hphase]
      simp only [startStepOp, h, hfsm]
      exact Commutes.bind (decStartStep_commutes x) (fun _ _ => rfl) s
    | loop =>
      rw [stepOp_loop (s := withDictLen x s) habort hphase, stepOp_loop habort hphase]
      simp only [loopStepOp, h, hfsm]
      exact decLoopStep_commutes x s

theorem enterError_withDictLen (e : ErrorCode) (s : State) : enterError e (withDictLen x s) = withDictLen x (enterError e s) := by
  rw [enterError_eq, enterError_eq]
  rfl

/-- Error entry leaves DICT_LEN too, so a rule run by itself ends as it does with the other value. -/
theorem settle_withDictLen {α : Type} {r : Res α} {t : State} (h : settle r = .next t) :
    settle (r.mapState (withDictLen x)) = .next (withDictLen x t) := by
  rcases settle_eq_next.1 h with ⟨a, rfl⟩ | ⟨e, u, rfl, rfl⟩ | ⟨u, rfl, rfl⟩
  · rfl
  · exact congrArg Host.Outcome.next (enterError_withDictLen x e u)
  · rfl

end

/-- Settles O60: the step's rule and error entry each do the same with another value in DICT_LEN. -/
theorem decompressIgnoresDictLen : Obligations.DecompressIgnoresDictLen := by
  intro x s t hdec hstep
  have hbusy : s.fsm ≠ .idle := by rw [hdec]; decide
  rw [exec_step_of_busy hbusy] at hstep
  change exec .step (withDictLen x s) = .next (withDictLen x t)
  rw [exec_step_of_busy (s := withDictLen x s) hbusy, stepOp_withDictLen x hdec]
  exact settle_withDictLen x hstep

end Sys2Proof.Machine
end

section
/-! DECOMPRESS_BODY where memory has no holes (R170, R171, R183): its start step, its loop, and a stream of at most 32 literals. -/

namespace Sys2Proof.Machine

open Sys2Proof Sys2Proof.Safety

/-! ## The start step (R170, R171) -/

/-- The state after DEC_INIT of a legal dictionary length. -/
def decInited (n d : Word) (s : State) : State :=
  (s.setOp { s.op with n := n, d := d, ls := Nat.log2 d.toNat, offMask := offsetMaskOf d, lenMask := lengthMaskOf d }).setDec
    { s.dec with rc := 8, o := 0, rem := n, fIdx := 32, sLeft := 0, bLeft := 0 }

theorem decInitOp_ok {d : Word} (h : dictLegal d = true) (n : Word) (s : State) : decInitOp n d s = .ok () (decInited n d s) :=
  assertRange_pos ((dictError_eq_none d).2 h) _

/-- The state after DECOMPRESS's start step: the header's fields recorded, the decoder at its first element. -/
def decStarted (s : State) : State :=
  decInited (wordAt s s.op.src.toNat) (wordAt s (s.op.src.toNat + 4))
    (recordHeader (wordAt s s.op.src.toNat) (wordAt s (s.op.src.toNat + 4)) s)

/-- What DECOMPRESS needs of its latched parameters and its header to start. -/
structure CanDecompress (s : State) : Prop where
  buffers : s.op.bufferBad = false
  holes : s.plat.holes = []
  devices : s.plat.devices = []
  header : 8 ≤ s.op.len.toNat
  legal : dictLegal (wordAt s (s.op.src.toNat + 4)) = true
  room : (wordAt s s.op.src.toNat).toNat ≤ s.op.cap.toNat

section

variable {s : State}

theorem CanDecompress.decStartStep_ok (h : CanDecompress s) : decStartStep s = .ok () (decStarted s) := by
  have hfits : s.op.src.toNat + 8 ≤ Config.addressSpace := (Nat.add_le_add_left h.header _).trans (regions_fit h.buffers).1
  have hread := readHeaderOp_ok (answers_of_no_holes h.holes hfits)
  have hheader : ¬s.op.len.toNat < Config.headerBytes := Nat.not_lt.2 h.header
  have hroom := Nat.not_lt.2 h.room
  rw [decStartStep, checkRegions_ok h.buffers h.devices, Res.bind_ok, prefetch_of_no_holes h.holes, Res.bind_ok,
    if_neg hheader, hread, takeHeader, Res.bind_ok,
    prefetch_of_no_holes (s := recordHeader (wordAt s s.op.src.toNat) (wordAt s (s.op.src.toNat + 4)) s) h.holes, Res.bind_ok,
    validateDictOp_ok h.legal, Res.bind_ok]
  exact congrArg Res.beforeWrites ((if_neg hroom).trans (decInitOp_ok h.legal _ _))

/-! ## The loop and the end step (R170, R211) -/

theorem decLoop_element (hholes : s.plat.holes = []) (hr : 0 < s.dec.rem.toNat) (fuel : Nat) :
    decLoop (fuel + 1) s = (decodeStepOp s).bind fun _ t => decLoop fuel t := by
  rw [decLoop, if_pos hr, decLoopStep, prefetch_of_no_holes hholes, Res.bind_ok, if_pos hr]

theorem decLoop_end (hholes : s.plat.holes = []) (hr : s.dec.rem.toNat = 0) (fuel : Nat) :
    decLoop fuel s = .ok () (completeOp s.op.n s) := by
  have hend : ¬0 < s.dec.rem.toNat := by omega
  cases fuel with
  | zero => rw [decLoop, prefetch_of_no_holes hholes, Res.bind_ok, decEndStep]
  | succ fuel => rw [decLoop, if_neg hend, decLoopStep, prefetch_of_no_holes hholes, Res.bind_ok, if_neg hend, decEndStep]

theorem exec_decompressBody (s : State) : exec .decompressBody s = settle (decompressBodyOp s) := rfl

theorem CanDecompress.decompressBodyOp_eq (h : CanDecompress s) :
    decompressBodyOp s = decLoop (wordAt s s.op.src.toNat).toNat ((decStarted s).setPhase .loop) := by
  rw [decompressBodyOp, h.decStartStep_ok, Res.bind_ok]
  rfl

end

/-! ## The regions are apart (R66) -/

/-- A word can be read while the cursor lies a word before the end of the input. -/
theorem canReadWord_of_no_holes {s : State} (hbuf : s.op.bufferBad = false) (hholes : s.plat.holes = [])
    (h : s.dec.rc.toNat + 4 ≤ s.op.len.toNat) : CanReadWord s := by
  have hfits := (regions_fit hbuf).1
  unfold OpParams.srcEnd at hfits
  exact ⟨h, answers_of_no_holes hholes (by omega)⟩

/-- No byte of the input region is one of the output region. -/
theorem input_outside_output {op : OpParams} (h : op.bufferBad = false) {i : Nat} (hi : i < op.len.toNat) :
    op.src.toNat + i < op.dst.toNat ∨ op.dst.toNat + op.cap.toNat ≤ op.src.toNat + i := by
  simp only [OpParams.bufferBad, Bool.or_eq_false_iff, Bool.and_eq_false_iff, decide_eq_false_iff_not] at h
  unfold OpParams.srcEnd OpParams.dstEnd at h
  omega

/-! ## A stream of literals (R89, R90, R181) -/

theorem byteOf_wordAt (s : State) (a : Nat) {j : Nat} (hj : j < 4) : byteOf (wordAt s a) j = s.mem.read (a + j) := by
  have : j = 0 ∨ j = 1 ∨ j = 2 ∨ j = 3 := by omega
  rcases this with rfl | rfl | rfl | rfl
  exacts [byteOf_wordOfBytes_zero _ _ _ _, byteOf_wordOfBytes_one _ _ _ _, byteOf_wordOfBytes_two _ _ _ _,
    byteOf_wordOfBytes_three _ _ _ _]

theorem byteOf_ushiftRight (w : Word) (j : Nat) : byteOf (w >>> 8) j = byteOf w (j + 1) := by
  refine BitVec.eq_of_getLsbD_eq fun i hi => ?_
  simp only [byteOf, BitVec.getLsbD_extractLsb', BitVec.getLsbD_ushiftRight, hi, decide_true, Bool.true_and]
  congr 1
  omega

/-- Two words with the same four bytes. -/
theorem wordAt_congr {s t : State} {a b : Nat} (h : ∀ j < 4, t.mem.read (b + j) = s.mem.read (a + j)) : wordAt t b = wordAt s a := by
  have h0 : t.mem.read b = s.mem.read a := h 0 (by decide)
  rw [wordAt, wordAt, h0, h 1 (by decide), h 2 (by decide), h 3 (by decide)]

/-- The decoder `v` of `b` after the first `i` literals of the stream: the bytes from position 12 are put out, and those left of the
current byte word are the next of the stream. -/
structure LiteralsPut (b : State) (i : Nat) (v : State) : Prop where
  only : v = (b.setMem v.mem).setDec v.dec
  wf : v.mem.wf
  o : v.dec.o.toNat = i
  rem : v.dec.rem.toNat + i = b.op.n.toNat
  fIdx : v.dec.fIdx.val = i
  fWord : v.dec.fWord = wordAt b (b.op.src.toNat + 8)
  rc : v.dec.rc.toNat = 12 + i + v.dec.bLeft.val
  aligned : (i + v.dec.bLeft.val) % 4 = 0
  bytes : ∀ j < v.dec.bLeft.val, byteOf v.dec.bWord j = b.mem.read (b.op.src.toNat + 12 + i + j)
  out : ∀ j < i, v.mem.read (b.op.dst.toNat + j) = b.mem.read (b.op.src.toNat + 12 + j)
  same : ∀ a, a < b.op.dst.toNat ∨ b.op.dst.toNat + i ≤ a → v.mem.read a = b.mem.read a

/-- A stream of literals in good buffers: what `DecompressBodyDecodesLiterals` asks of it. -/
structure LiteralStream (b : State) : Prop where
  buffers : b.op.bufferBad = false
  holes : b.plat.holes = []
  few : b.op.n.toNat ≤ 32
  room : b.op.n.toNat ≤ b.op.cap.toNat
  words : 12 + 4 * ((b.op.n.toNat + 3) / 4) ≤ b.op.len.toNat
  flags : ∀ i < b.op.n.toNat, (wordAt b (b.op.src.toNat + 8)).getLsbD i = false

section

variable {b v : State} {i : Nat}

/-- Updating memory and the decoder again. -/
theorem LiteralsPut.only_update (h : LiteralsPut b i v) (m : Memory) (d : DecRegs) :
    (v.setMem m).setDec d = (b.setMem m).setDec d := by
  rw [h.only]
  rfl

theorem LiteralsPut.op (h : LiteralsPut b i v) : v.op = b.op := congrArg (·.op) h.only
theorem LiteralsPut.plat (h : LiteralsPut b i v) : v.plat = b.plat := congrArg (·.plat) h.only

/-- The input region is read as it was at first. -/
theorem LiteralsPut.read_input (h : LiteralsPut b i v) (hb : LiteralStream b) (hi : i ≤ b.op.n.toNat) {j : Nat}
    (hj : j < b.op.len.toNat) : v.mem.read (b.op.src.toNat + j) = b.mem.read (b.op.src.toNat + j) := by
  have := input_outside_output hb.buffers hj
  have := hb.room
  exact h.same _ (by omega)

/-- Where the byte word is exhausted the next word of the stream lies in the input. -/
theorem LiteralsPut.canReadWord (h : LiteralsPut b i v) (hb : LiteralStream b) (hi : i < b.op.n.toNat) (hleft : v.dec.bLeft = 0) :
    CanReadWord v := by
  have hrc := h.rc
  have haligned := h.aligned
  have hwords := hb.words
  refine canReadWord_of_no_holes (h.op ▸ hb.buffers) (h.plat ▸ hb.holes) ?_
  rw [hleft] at hrc haligned
  simp only [Fin.val_zero, Nat.add_zero] at hrc haligned
  rw [h.op]
  omega

/-- The bytes left of the byte word after the refill that the next literal may need. -/
theorem LiteralsPut.literalWord (h : LiteralsPut b i v) (hb : LiteralStream b) (hi : i < b.op.n.toNat) {j : Nat}
    (hj : j < (if v.dec.bLeft = 0 then 4 else v.dec.bLeft).val) :
    byteOf (LiteralWord v) j = b.mem.read (b.op.src.toNat + 12 + i + j) := by
  unfold LiteralWord
  by_cases hleft : v.dec.bLeft = 0
  · have hrc := h.rc
    have hread := h.canReadWord hb hi hleft
    simp only [hleft, if_true, Fin.val_zero, Nat.add_zero] at hrc hj ⊢
    have hj4 : j < 4 := hj
    have hroom : v.dec.rc.toNat + 4 ≤ b.op.len.toNat := h.op ▸ hread.1
    rw [byteOf_wordAt _ _ hj4, h.op, Nat.add_assoc, h.read_input hb hi.le (by omega)]
    congr 1
    omega
  · simp only [hleft, if_false] at hj ⊢
    exact h.bytes j hj

/-- The next literal (R174, R181). -/
theorem LiteralsPut.step (h : LiteralsPut b i v) (hb : LiteralStream b) (hi : i < b.op.n.toNat) :
    ∃ w, decodeStepOp v = .ok () w ∧ LiteralsPut b (i + 1) w := by
  have hidx : v.dec.fIdx.val < 32 := by rw [h.fIdx]; exact hi.trans_le hb.few
  have hflag : v.dec.fWord.getLsbD v.dec.fIdx.val = false := by rw [h.fIdx, h.fWord]; exact hb.flags i hi
  have hready := h.canReadWord hb hi
  have hn := b.op.n.isLt
  have hrem : 0 < v.dec.rem.toNat := by have := h.rem; omega
  have hsum : v.dec.o.toNat + v.dec.rem.toNat < 2 ^ 32 := by have := h.rem; have := h.o; omega
  have hspace : b.op.dst.toNat + i + 1 ≤ Config.addressSpace := by
    have hfits := (regions_fit hb.buffers).2
    have hroom := hb.room
    unfold OpParams.dstEnd at hfits
    omega
  have hanswers : Answers v (v.op.dst.toNat + v.dec.o.toNat) 1 := by
    rw [h.op, h.o]
    exact answers_of_no_holes (h.plat ▸ hb.holes) hspace
  have hstep := decodeStepOp_literal hidx hflag hready hanswers hrem hsum
  have hbyte : (LiteralWord v).extractLsb' 0 8 = b.mem.read (b.op.src.toNat + 12 + i) :=
    h.literalWord hb hi (j := 0) (by split <;> omega)
  rw [hbyte, h.op, h.o] at hstep
  have hrc := toNat_rc_of_refill hready
  have hleft : ((if v.dec.bLeft = 0 then 4 else v.dec.bLeft).val - 1) + 1 = (if v.dec.bLeft = 0 then 4 else v.dec.bLeft).val := by
    refine Nat.sub_add_cancel ?_
    split <;> omega
  refine ⟨_, hstep, h.only_update _ _, Memory.wf_write h.wf (by omega) _, (DecRegs.putOut_o hrem hsum).trans (by rw [h.o]), ?_, ?_, h.fWord, ?_, ?_,
    fun j hj => ?_, fun j hj => ?_, fun a ha => ?_⟩
  · have := h.rem
    have hrem' : (v.dec.putOut 1).rem.toNat = v.dec.rem.toNat - 1 := DecRegs.putOut_rem hrem
    change (v.dec.putOut 1).rem.toNat + (i + 1) = _
    omega
  · exact congrArg (· + 1) h.fIdx
  · have := h.rc
    change (if v.dec.bLeft = 0 then v.dec.rc + 4 else v.dec.rc).toNat = 12 + (i + 1) + (_ - 1)
    split at hleft <;> simp_all <;> omega
  · have := h.aligned
    change (i + 1 + (_ - 1)) % 4 = 0
    split at hleft <;> simp_all <;> omega
  · change j < _ - 1 at hj
    change byteOf (LiteralWord v >>> 8) j = _
    rw [byteOf_ushiftRight, h.literalWord hb hi (by omega)]
    congr 1
    omega
  · change Memory.read (Memory.write _ _ _) _ = _
    rw [Memory.read_write h.wf]
    split
    · rename_i heq; rw [show j = i by omega]
    · exact h.out j (by omega)
  · exact (Memory.read_write_other _ _ _ _ (by omega)).trans (h.same a (by omega))

/-- The loop over the literals left, by induction on the fuel. -/
theorem LiteralsPut.decLoop_completes {fuel : Nat} (h : LiteralsPut b i v) (hb : LiteralStream b) (hi : i ≤ b.op.n.toNat)
    (hfuel : b.op.n.toNat - i ≤ fuel) :
    ∃ w, decLoop fuel v = .ok () (completeOp b.op.n w) ∧ LiteralsPut b b.op.n.toNat w := by
  have hend : ∀ {v fuel}, LiteralsPut b b.op.n.toNat v → decLoop fuel v = .ok () (completeOp b.op.n v) := fun {v fuel} hv => by
    have hrem := hv.rem
    rw [decLoop_end (hv.plat ▸ hb.holes) (by omega), hv.op]
  induction fuel generalizing v i with
  | zero =>
    obtain rfl : i = b.op.n.toNat := by omega
    exact ⟨v, hend h, h⟩
  | succ fuel ih =>
    rcases Nat.lt_or_ge i b.op.n.toNat with hlt | hge
    · obtain ⟨w, hstep, hw⟩ := h.step hb hlt
      obtain ⟨x, hloop, hx⟩ := ih hw hlt (by omega)
      have hrem := h.rem
      exact ⟨x, by rw [decLoop_element (h.plat ▸ hb.holes) (by omega), hstep, Res.bind_ok, hloop], hx⟩
    · obtain rfl : i = b.op.n.toNat := by omega
      exact ⟨v, hend h, h⟩

/-- The decoder `b` is at its first element, before the flag word. -/
structure AtFirstElement (b : State) : Prop where
  rc : b.dec.rc = 8
  o : b.dec.o = 0
  rem : b.dec.rem = b.op.n
  fIdx : b.dec.fIdx = 32
  sLeft : b.dec.sLeft = 0
  bLeft : b.dec.bLeft = 0

/-- The decoder at the first literal, its flag word read. -/
theorem AtFirstElement.literalsPut_zero (h : AtFirstElement b) (hwf : b.mem.wf) : LiteralsPut b 0 (afterFlagRefill b) := by
  rw [afterFlagRefill_exhausted h.fIdx]
  exact
    { only := rfl
      wf := hwf
      o := congrArg BitVec.toNat h.o
      rem := congrArg BitVec.toNat h.rem
      fIdx := rfl
      fWord := by rw [h.rc]; rfl
      rc := by simp only [State.setDec_dec, h.rc, h.bLeft]; rfl
      aligned := by simp only [State.setDec_dec, h.bLeft]; rfl
      bytes := fun j hj => by simp [h.bLeft] at hj
      out := fun j hj => absurd hj (Nat.not_lt_zero j)
      same := fun _ _ => rfl }

theorem LiteralStream.canReadFlagWord (hb : LiteralStream b) (h : AtFirstElement b) : CanReadWord b := by
  have hrc : b.dec.rc.toNat = 8 := congrArg BitVec.toNat h.rc
  have hwords := hb.words
  exact canReadWord_of_no_holes hb.buffers hb.holes (by omega)

/-- The whole loop: if there is an element, its step reads the flag word first (R173). -/
theorem LiteralStream.decLoop_completes (hb : LiteralStream b) (hfirst : AtFirstElement b) (hwf : b.mem.wf) :
    ∃ m d, decLoop b.op.n.toNat b = .ok () (completeOp b.op.n ((b.setMem m).setDec d)) ∧
      (∀ j < b.op.n.toNat, m.read (b.op.dst.toNat + j) = b.mem.read (b.op.src.toNat + 12 + j)) ∧
      ∀ a, a < b.op.dst.toNat ∨ b.op.dst.toNat + b.op.n.toNat ≤ a → m.read a = b.mem.read a := by
  rcases Nat.eq_zero_or_pos b.op.n.toNat with hn | hn
  · refine ⟨b.mem, b.dec, decLoop_end hb.holes (hfirst.rem ▸ hn) _, fun j hj => by omega, fun _ _ => rfl⟩
  · have hrem : 0 < b.dec.rem.toNat := hfirst.rem ▸ hn
    have hzero := hfirst.literalsPut_zero hwf
    have hrefill : ∀ fuel, decLoop (fuel + 1) b = decLoop (fuel + 1) (afterFlagRefill b) := fun fuel => by
      have hrem' := hzero.rem
      rw [decLoop_element hb.holes hrem, decLoop_element (hzero.plat ▸ hb.holes) (by omega),
        decodeStepOp_afterFlagRefill hrem fun _ => hb.canReadFlagWord hfirst]
    obtain ⟨w, hloop, hw⟩ := hzero.decLoop_completes hb (Nat.zero_le _) (Nat.sub_le _ 0)
    refine ⟨w.mem, w.dec, ?_, hw.out, hw.same⟩
    rw [← hw.only, ← hloop, ← Nat.sub_add_cancel hn, hrefill]

end

/-- After the start step the decoder is at its first element. -/
theorem decStarted_atFirstElement (s : State) : AtFirstElement ((decStarted s).setPhase .loop) := ⟨rfl, rfl, rfl, rfl, rfl, rfl⟩

/-- Settles O46: the start step reads the header, each element step puts out one literal, and COMPLETE returns the header's length. -/
theorem decompressBodyDecodesLiterals : Obligations.DecompressBodyDecodesLiterals := by
  intro s hwf hbuf hholes hdevices src n hlegal hfew hroom hwords hflags
  have hstart : CanDecompress s := ⟨hbuf, hholes, hdevices, by omega, hlegal, hroom⟩
  have hstream : LiteralStream ((decStarted s).setPhase .loop) := ⟨hbuf, hholes, hfew, hroom, hwords, hflags⟩
  obtain ⟨m, d, hloop, hout, hsame⟩ := hstream.decLoop_completes (decStarted_atFirstElement s) hwf
  refine ⟨completeOp _ ((((decStarted s).setPhase .loop).setMem m).setDec d), ?_, rfl, rfl, rfl, rfl, rfl, rfl, hout, hsame,
    ⟨rfl, rfl, rfl, rfl, rfl⟩, rfl⟩
  rw [exec_decompressBody, hstart.decompressBodyOp_eq]
  exact congrArg settle hloop

end Sys2Proof.Machine
end

section
/-! What a completed COMPRESS has stored of each element (R120 to R126): the words that are open while an element is emitted are in
memory at the end, each with the element in its place. -/

namespace Sys2Proof

/-- `WIDTH(k)`: the bits of an element of sub-stream `k` (R120). -/
def SubStream.width : SubStream → Nat
  | .flags => 1
  | .strings => 16
  | .bytes => 8

end Sys2Proof

namespace Sys2Proof.Machine

open Sys2Proof Sys2Proof.Safety

/-! ## The words of the packer, by sub-stream (R120) -/

theorem width_mul_posOf_lt (e : EncRegs) (k : SubStream) : k.width * e.posOf k < 32 := by
  cases k
  · exact (Nat.one_mul _).trans_lt e.f.pos.isLt
  · exact Nat.mul_lt_mul_of_pos_left e.s.pos.isLt (by decide)
  · exact Nat.mul_lt_mul_of_pos_left e.b.pos.isLt (by decide)

/-- Word `k` is the same in `e` and in `e'`. -/
structure SameWord (e e' : EncRegs) (k : SubStream) : Prop where
  isOpen : e'.openOf k = e.openOf k
  slot : e'.slotOf k = e.slotOf k
  pos : e'.posOf k = e.posOf k
  acc : e'.accOf k = e.accOf k

/-- The slot, the position and the bits that the next element of sub-stream `k` finds: those of the open word, or of a new one. -/
def EncRegs.slotFor (e : EncRegs) (k : SubStream) : Word := if e.openOf k then e.slotOf k else e.wc
def EncRegs.posFor (e : EncRegs) (k : SubStream) : Nat := if e.openOf k then e.posOf k else 0
def EncRegs.accFor (e : EncRegs) (k : SubStream) : Word := if e.openOf k then e.accOf k else 0

/-- The word with the element `v` put in. -/
def EncRegs.wordWith (e : EncRegs) (k : SubStream) (v : Word) : Word := e.accFor k ||| (v <<< (k.width * e.posFor k))

/-- No open word has a bit above its elements (R89). -/
def AccsFit (e : EncRegs) : Prop := ∀ k, e.openOf k = true → (e.accOf k).toNat < 2 ^ (k.width * e.posOf k)

section

variable {e e' : EncRegs} {k : SubStream} {v : Word}

theorem width_mul_posFor_lt (e : EncRegs) (k : SubStream) : k.width * e.posFor k < 32 := by
  unfold EncRegs.posFor
  split
  · exact width_mul_posOf_lt e k
  · exact Nat.zero_lt_succ 31

/-- The element after the one at the next position still begins inside the word or just after it. -/
theorem width_mul_posFor_succ_le (e : EncRegs) (k : SubStream) : k.width * (e.posFor k + 1) ≤ 32 := by
  have := width_mul_posFor_lt e k
  cases k <;> simp only [SubStream.width] at this ⊢ <;> omega

theorem AccsFit.accFor_lt (h : AccsFit e) (k : SubStream) : (e.accFor k).toNat < 2 ^ (k.width * e.posFor k) := by
  unfold EncRegs.accFor EncRegs.posFor
  split
  · rename_i ho; exact h k ho
  · exact Nat.two_pow_pos _

/-- The bits of the element stand above those of the elements before it. -/
theorem AccsFit.wordWith_toNat (h : AccsFit e) (hv : v.toNat < 2 ^ k.width) :
    (e.wordWith k v).toNat = v.toNat * 2 ^ (k.width * e.posFor k) + (e.accFor k).toNat := by
  have hshift : v.toNat * 2 ^ (k.width * e.posFor k) < 2 ^ 32 :=
    calc v.toNat * 2 ^ (k.width * e.posFor k)
        < 2 ^ k.width * 2 ^ (k.width * e.posFor k) := Nat.mul_lt_mul_of_pos_right hv (Nat.two_pow_pos _)
      _ = 2 ^ (k.width * (e.posFor k + 1)) := by rw [← Nat.pow_add, Nat.mul_succ, Nat.add_comm]
      _ ≤ 2 ^ 32 := Nat.pow_le_pow_right (by decide) (width_mul_posFor_succ_le e k)
  rw [EncRegs.wordWith, BitVec.toNat_or, BitVec.toNat_shiftLeft, Nat.or_comm, Nat.shiftLeft_eq, Nat.mod_eq_of_lt hshift,
    ← Nat.shiftLeft_eq, Nat.shiftLeft_add_eq_or_of_lt (h.accFor_lt k)]

theorem AccsFit.wordWith_lt (h : AccsFit e) (hv : v.toNat < 2 ^ k.width) :
    (e.wordWith k v).toNat < 2 ^ (k.width * (e.posFor k + 1)) := by
  have hacc := h.accFor_lt k
  have hstep : (v.toNat + 1) * 2 ^ (k.width * e.posFor k) ≤ 2 ^ (k.width * (e.posFor k + 1)) := by
    rw [Nat.mul_succ, Nat.pow_add, Nat.mul_comm]
    exact Nat.mul_le_mul_left _ hv
  rw [h.wordWith_toNat hv]
  rw [Nat.succ_mul] at hstep
  omega

end

/-! ## An element emitted (R123 to R125) -/

/-- The element `v` of sub-stream `k` has been emitted from `s` to `t`: the write cursor has passed its word's slot, and the word with
the element in it is open, or full and stored at its slot. -/
structure Emitted (k : SubStream) (v : Word) (s t : State) : Prop extends DatapathOnly s t where
  start : CanFlush s
  packer : PackerOk s.op t.enc
  wf : t.mem.wf
  room : s.enc.openOf k = false → s.enc.wc.toNat + 4 ≤ s.op.cap.toNat
  wc : t.enc.wc = if s.enc.openOf k then s.enc.wc else s.enc.wc + 4
  others : ∀ j, j ≠ k → SameWord s.enc t.enc j
  slot : t.enc.slotOf k = s.enc.slotFor k
  word : (t.enc.openOf k = true ∧ t.enc.posOf k = s.enc.posFor k + 1 ∧ t.enc.accOf k = s.enc.wordWith k v ∧ t.mem = s.mem) ∨
    (t.enc.openOf k = false ∧ k.width * (s.enc.posFor k + 1) = 32 ∧
      t.mem = s.mem.writeWord (s.op.dst.toNat + (s.enc.slotFor k).toNat) (s.enc.wordWith k v))

/-- `get` and `set` are the accumulator of sub-stream `k`, and of no other. -/
structure IsStreamOf {cap : Nat} [NeZero cap] (k : SubStream) (get : EncRegs → Accum cap) (set : EncRegs → Accum cap → EncRegs) :
    Prop extends IsAccumOf k get set where
  width_mul : k.width * cap = 32
  get_pos : ∀ e, (get e).pos.val = e.posOf k
  get_acc : ∀ e, (get e).acc = e.accOf k
  accOf_other : ∀ e a j, j ≠ k → (set e a).accOf j = e.accOf j

theorem isStreamOf_flags : IsStreamOf .flags (fun e => e.f) (fun e a => { e with f := a }) :=
  ⟨isAccumOf_flags, rfl, fun _ => rfl, fun _ => rfl, fun _ _ j hj => by cases j; exacts [absurd rfl hj, rfl, rfl]⟩

theorem isStreamOf_strings : IsStreamOf .strings (fun e => e.s) (fun e a => { e with s := a }) :=
  ⟨isAccumOf_strings, rfl, fun _ => rfl, fun _ => rfl, fun _ _ j hj => by cases j; exacts [rfl, absurd rfl hj, rfl]⟩

theorem isStreamOf_bytes : IsStreamOf .bytes (fun e => e.b) (fun e a => { e with b := a }) :=
  ⟨isAccumOf_bytes, rfl, fun _ => rfl, fun _ => rfl, fun _ _ j hj => by cases j; exacts [rfl, rfl, absurd rfl hj]⟩

section

variable {cap : Nat} [NeZero cap] {k : SubStream} {get : EncRegs → Accum cap} {set : EncRegs → Accum cap → EncRegs} {s t : State}
  {v : Word}

theorem IsStreamOf.emitSlot (hw : IsStreamOf k get set) (s : State) : EmitSlot s (get s.enc) = s.enc.slotFor k := by
  rw [EmitSlot, EncRegs.slotFor, hw.get_open, hw.get_slot]

theorem IsStreamOf.emitPos (hw : IsStreamOf k get set) (s : State) : EmitPos (get s.enc) = s.enc.posFor k := by
  rw [EmitPos, EncRegs.posFor, hw.get_open, hw.get_pos]

theorem IsStreamOf.emitWord (hw : IsStreamOf k get set) (s : State) (v : Word) :
    EmitWord (get s.enc) k.width v = s.enc.wordWith k v := by
  rw [EmitWord, EncRegs.wordWith, EncRegs.accFor, hw.get_open, hw.get_acc, hw.emitPos]

theorem IsStreamOf.emitState_sameWord (hw : IsStreamOf k get set) (s : State) (a : Accum cap) {j : SubStream} (hj : j ≠ k) :
    SameWord s.enc (emitState get set s a).enc j := by
  have hacc : ({ s.enc with wc := emitCursor s (get s.enc) } : EncRegs).accOf j = s.enc.accOf j := by cases j <;> rfl
  refine ⟨?_, ?_, ?_, (hw.accOf_other _ _ j hj).trans hacc⟩ <;> simp only [emitState, State.setEnc_enc]
  · rw [hw.openOf_set, if_neg hj, EncRegs.openOf_wc]
  · rw [hw.slotOf_set, if_neg hj, EncRegs.slotOf_wc]
  · rw [hw.posOf_set, if_neg hj, EncRegs.posOf_wc]

theorem IsStreamOf.emitState_wc (hw : IsStreamOf k get set) (s : State) (a : Accum cap) :
    (emitState get set s a).enc.wc = if s.enc.openOf k then s.enc.wc else s.enc.wc + 4 := by
  simp only [emitState, State.setEnc_enc]
  rw [hw.wc_set, emitCursor, hw.get_open]

/-- The slot of an element lies between the header and the write cursor that emitting it leaves, and that cursor within the capacity. -/
theorem slotFor_range (h : PackerOk s.op s.enc) (hroom : s.enc.openOf k = false → s.enc.wc.toNat + 4 ≤ s.op.cap.toNat) :
    8 ≤ (s.enc.slotFor k).toNat ∧
    (s.enc.slotFor k).toNat + 4 ≤ (if s.enc.openOf k then s.enc.wc else s.enc.wc + 4).toNat ∧
    (if s.enc.openOf k then s.enc.wc else s.enc.wc + 4).toNat ≤ s.op.cap.toNat := by
  unfold EncRegs.slotFor
  cases ho : s.enc.openOf k
  · have hroom := hroom ho
    have hwc := toNat_reserve hroom
    have := h.wc_ge
    simp only [Bool.false_eq_true, if_false]
    omega
  · have := h.slot k ho
    have := h.wc_le
    simp only [if_true]
    omega

/-- That slot lies in the address space. -/
theorem CanFlush.slotFor_fits (h : CanFlush s) (hroom : s.enc.openOf k = false → s.enc.wc.toNat + 4 ≤ s.op.cap.toNat) :
    s.op.dst.toNat + (s.enc.slotFor k).toNat + 4 ≤ Config.addressSpace := by
  obtain ⟨-, hslot, hcap⟩ := slotFor_range h.packer hroom
  have hfits := h.fits
  unfold OpParams.dstEnd at hfits
  omega

/-- The word of the element, in the state that emitting it leaves. -/
theorem IsStreamOf.emitState_word (hw : IsStreamOf k get set) (s : State) (a : Accum cap) :
    (emitState get set s a).enc.openOf k = a.isOpen ∧ (emitState get set s a).enc.slotOf k = a.slot ∧
    (emitState get set s a).enc.posOf k = a.pos.val ∧ (emitState get set s a).enc.accOf k = a.acc := by
  rw [emitState, State.setEnc_enc, hw.openOf_set, hw.slotOf_set, hw.posOf_set, hw.accOf_set]
  simp only [if_true, and_self]

/-- An emission that raises nothing had room for the slot it reserved. -/
theorem IsStreamOf.room_of_emitOn (hw : IsStreamOf k get set) (hok : emitOn k get set k.width v s = .ok () t)
    (ho : (get s.enc).isOpen = false) : s.enc.wc.toNat + 4 ≤ s.op.cap.toNat := by
  by_contra hfull
  rw [hw.emitOn_of_no_room _ _ ho (Nat.lt_of_not_le hfull)] at hok
  cases hok

/-- Emitting an element that raises nothing. -/
theorem IsStreamOf.emitted (hw : IsStreamOf k get set) (h : CanFlush s) (hok : emitOn k get set k.width v s = .ok () t) :
    Emitted k v s t := by
  have hpacked := hw.emitOn_packed k.width v h.fits h.packer
  rw [hok, Res.all_ok] at hpacked
  have hdatapath := hpacked.toDatapathOnly
  have hpacker := hpacked.packer
  have hroom := hw.room_of_emitOn hok
  have hroom' : s.enc.openOf k = false → s.enc.wc.toNat + 4 ≤ s.op.cap.toNat := fun ho => hroom ((hw.get_open _).trans ho)
  have hslot : (wordFor s (get s.enc)).slot = s.enc.slotFor k := (wordFor_slot s _).trans (hw.emitSlot s)
  by_cases hfull : EmitPos (get s.enc) + 1 = cap
  · have hanswers := answers_of_no_holes h.holes (h.slotFor_fits hroom')
    rw [← hw.emitSlot s] at hanswers
    rw [hw.emitOn_of_full k.width v hroom hfull hanswers, hw.emitSlot, hw.emitWord] at hok
    cases hok
    rw [hw.emitPos] at hfull
    obtain ⟨hopen, hslotOf, -, -⟩ := hw.emitState_word s ((wordFor s (get s.enc)).put k.width v).closed
    exact ⟨hdatapath, h, hpacker, Memory.wf_writeWord h.wf (h.slotFor_fits hroom') _, hroom', hw.emitState_wc s _,
      fun j hj => hw.emitState_sameWord s _ hj, hslotOf.trans hslot, .inr ⟨hopen, by rw [hfull, hw.width_mul], rfl⟩⟩
  · have hlt : EmitPos (get s.enc) + 1 < cap := Nat.lt_of_le_of_ne (emitPos_lt _) hfull
    rw [hw.emitOn_of_room k.width v hroom (p := ⟨_, hlt⟩) rfl] at hok
    cases hok
    obtain ⟨hopen, hslotOf, hpos, hacc⟩ :=
      hw.emitState_word s { (wordFor s (get s.enc)).put k.width v with pos := ⟨_, hlt⟩ }
    exact ⟨hdatapath, h, hpacker, h.wf, hroom', hw.emitState_wc s _, fun j hj => hw.emitState_sameWord s _ hj,
      hslotOf.trans hslot, .inl ⟨hopen.trans (wordFor_isOpen s _), hpos.trans (congrArg (· + 1) (hw.emitPos s)),
        hacc.trans ((wordFor_put_acc s _ k.width v).trans (hw.emitWord s v)), rfl⟩⟩

end

end Sys2Proof.Machine
end

section
/-! From the end of COMPRESS back to any element of it: what the final memory holds of the words that are stored and of the words that
are open (R122, R126, R127). -/

namespace Sys2Proof.Machine

open Sys2Proof Sys2Proof.Safety

/-- The bits above the first `i` of a word that begins with the bits `acc` and then `v`. -/
theorem field_of_low_bits {x acc v i w : Nat} (hacc : acc < 2 ^ i) (h : x % 2 ^ (i + w) = v * 2 ^ i + acc) :
    x % 2 ^ i = acc ∧ x / 2 ^ i % 2 ^ w = v := by
  have hpos := Nat.two_pow_pos i
  constructor
  · rw [← Nat.mod_mod_of_dvd x (Nat.pow_dvd_pow 2 (Nat.le_add_right i w)), h, Nat.mul_add_mod_self_right, Nat.mod_eq_of_lt hacc]
  · rw [← Nat.mod_mul_right_div_self, ← Nat.pow_add, h, Nat.mul_comm, Nat.mul_add_div hpos, Nat.div_eq_of_lt hacc, Nat.add_zero]

/-- The memory of `z`, in which COMPRESS has flushed its last word, holds what the encoder in `s` has put out: the bytes stored below
the write cursor, and at the slot of each open word a word that begins with the elements put in so far. -/
structure Keeps (z s : State) : Prop where
  wc_le : s.enc.wc.toNat ≤ z.enc.wc.toNat
  stored : ∀ b, b < s.op.dst.toNat + s.enc.wc.toNat →
    (∀ k, s.enc.openOf k = true → b < slotAddr s k ∨ slotAddr s k + 4 ≤ b) → z.mem.read b = s.mem.read b
  begun : ∀ k, s.enc.openOf k = true →
    (wordAt z (slotAddr s k)).toNat % 2 ^ (k.width * s.enc.posOf k) = (s.enc.accOf k).toNat

/-- The packer and what it has stored are the same in `s` and in `t`. -/
structure SamePacker (s t : State) : Prop where
  op : t.op = s.op
  mem : t.mem = s.mem
  wc : t.enc.wc = s.enc.wc
  words : ∀ k, SameWord s.enc t.enc k

section

variable {z s t : State} {k : SubStream} {v : Word}

theorem SameWord.slotAddr (h : SameWord s.enc t.enc k) (hop : t.op = s.op) : slotAddr t k = slotAddr s k := by
  rw [Machine.slotAddr, Machine.slotAddr, hop, h.slot]

theorem SamePacker.keeps (h : SamePacker s t) (hz : Keeps z t) : Keeps z s where
  wc_le := h.wc ▸ hz.wc_le
  stored b hb hout := by
    rw [← h.mem]
    refine hz.stored b (by rwa [h.op, h.wc]) fun k ho => ?_
    rw [(h.words k).slotAddr h.op]
    exact hout k ((h.words k).isOpen ▸ ho)
  begun k ho := by
    have := hz.begun k ((h.words k).isOpen ▸ ho)
    rwa [(h.words k).slotAddr h.op, (h.words k).pos, (h.words k).acc] at this

theorem SamePacker.accsFit (h : SamePacker s t) (hs : AccsFit s.enc) : AccsFit t.enc := fun k ho => by
  rw [(h.words k).acc, (h.words k).pos]
  exact hs k ((h.words k).isOpen ▸ ho)

namespace Emitted

theorem canFlush (h : Emitted k v s t) : CanFlush t := by
  have hplat : t.plat = s.plat := congrArg (·.plat) h.eq
  exact ⟨h.wf, h.op ▸ h.start.fits, h.op ▸ h.packer, hplat ▸ h.start.holes⟩

theorem accsFit (h : Emitted k v s t) (hs : AccsFit s.enc) (hv : v.toNat < 2 ^ k.width) : AccsFit t.enc := fun j ho => by
  by_cases hj : j = k
  · subst hj
    rcases h.word with ⟨-, hpos, hacc, -⟩ | ⟨hclosed, -⟩
    · rw [hpos, hacc]
      exact hs.wordWith_lt hv
    · rw [hclosed] at ho
      cases ho
  · have hword := h.others j hj
    rw [hword.acc, hword.pos]
    exact hs j (hword.isOpen ▸ ho)

/-- The address of the slot that the element's word has. -/
theorem slotAddr_eq (h : Emitted k v s t) : slotAddr t k = s.op.dst.toNat + (s.enc.slotFor k).toNat := by
  rw [slotAddr, h.op, h.slot]

theorem slotFor_of_open (ho : s.enc.openOf k = true) : s.op.dst.toNat + (s.enc.slotFor k).toNat = slotAddr s k := by
  rw [EncRegs.slotFor, if_pos ho, slotAddr]

theorem slotFor_of_closed (ho : s.enc.openOf k = false) : s.enc.slotFor k = s.enc.wc := by
  rw [EncRegs.slotFor, ho]; rfl

/-- The write cursor never goes back. -/
theorem wc_ge (h : Emitted k v s t) : s.enc.wc.toNat ≤ t.enc.wc.toNat := by
  rw [h.wc]
  cases ho : s.enc.openOf k
  · have hwc := toNat_reserve (h.room ho)
    simp only [Bool.false_eq_true, if_false]
    omega
  · exact le_rfl

theorem slot_lt_wc (h : Emitted k v s t) : (s.enc.slotFor k).toNat + 4 ≤ t.enc.wc.toNat := by
  rw [h.wc]
  exact (slotFor_range h.start.packer h.room).2.1

/-- The element's word lies apart from the other open words. -/
theorem slot_apart (h : Emitted k v s t) {j : SubStream} (hj : j ≠ k) (ho : s.enc.openOf j = true) :
    slotAddr s j + 4 ≤ s.op.dst.toNat + (s.enc.slotFor k).toNat ∨ s.op.dst.toNat + (s.enc.slotFor k).toNat + 4 ≤ slotAddr s j := by
  cases hk : s.enc.openOf k
  · have hslot := h.start.packer.slot j ho
    rw [slotFor_of_closed hk, slotAddr]
    omega
  · rw [slotFor_of_open hk]
    exact h.start.packer.slotAddr_apart hj ho hk

/-- What the final memory holds after the element it held before it, at an address that is no word's. -/
theorem stored (h : Emitted k v s t) (hz : Keeps z t) {b : Nat} (hb : b < s.op.dst.toNat + s.enc.wc.toNat)
    (hout : ∀ j, s.enc.openOf j = true → b < slotAddr s j ∨ slotAddr s j + 4 ≤ b) : z.mem.read b = s.mem.read b := by
  have hslot : b < s.op.dst.toNat + (s.enc.slotFor k).toNat ∨ s.op.dst.toNat + (s.enc.slotFor k).toNat + 4 ≤ b := by
    cases ho : s.enc.openOf k
    · rw [slotFor_of_closed ho]; exact .inl hb
    · rw [slotFor_of_open ho]; exact hout k ho
  have hread : t.mem.read b = s.mem.read b := by
    rcases h.word with ⟨-, -, -, hmem⟩ | ⟨-, -, hmem⟩ <;> rw [hmem]
    exact Memory.read_writeWord_outside _ _ _ _ hslot
  rw [← hread]
  refine hz.stored b ?_ fun j hj => ?_
  · rw [h.op]
    exact hb.trans_le (Nat.add_le_add_left h.wc_ge _)
  · by_cases hjk : j = k
    · subst hjk; rwa [h.slotAddr_eq]
    · rw [(h.others j hjk).slotAddr h.op]
      exact hout j ((h.others j hjk).isOpen ▸ hj)

/-- At the end the element's word begins with the elements up to this one: it is still open, or stored and no other word's. -/
theorem held (h : Emitted k v s t) (hs : AccsFit s.enc) (hv : v.toNat < 2 ^ k.width) (hz : Keeps z t) :
    (wordAt z (s.op.dst.toNat + (s.enc.slotFor k).toNat)).toNat % 2 ^ (k.width * (s.enc.posFor k + 1)) =
      (s.enc.wordWith k v).toNat := by
  rcases h.word with ⟨ho, hpos, hacc, -⟩ | ⟨hclosed, hfull, hmem⟩
  · have hbegun := hz.begun k ho
    rwa [h.slotAddr_eq, hpos, hacc] at hbegun
  · have hlt := h.slot_lt_wc
    have hspace := h.start.slotFor_fits h.room
    have hholds : HoldsWord z (s.op.dst.toNat + (s.enc.slotFor k).toNat) (s.enc.wordWith k v) := fun i hi => by
      rw [← Memory.read_writeWord h.start.wf hspace (s.enc.wordWith k v) hi, ← hmem]
      refine hz.stored _ (by rw [h.op]; omega) fun j hj => ?_
      have hjk : j ≠ k := fun heq => by rw [heq, hclosed] at hj; cases hj
      have := h.slot_apart hjk ((h.others j hjk).isOpen ▸ hj)
      rw [(h.others j hjk).slotAddr h.op]
      omega
    rw [wordAt_of_holdsWord hholds, Nat.mod_eq_of_lt (hs.wordWith_lt hv)]

/-- The two parts of the element's word: what was there, and the element. -/
theorem held_fields (h : Emitted k v s t) (hs : AccsFit s.enc) (hv : v.toNat < 2 ^ k.width) (hz : Keeps z t) :
    (wordAt z (s.op.dst.toNat + (s.enc.slotFor k).toNat)).toNat % 2 ^ (k.width * s.enc.posFor k) = (s.enc.accFor k).toNat ∧
    (wordAt z (s.op.dst.toNat + (s.enc.slotFor k).toNat)).toNat / 2 ^ (k.width * s.enc.posFor k) % 2 ^ k.width = v.toNat :=
  field_of_low_bits (hs.accFor_lt k) (by rw [← Nat.mul_succ, h.held hs hv hz, hs.wordWith_toNat hv])

/-- What is held after an element was held before it. -/
theorem keeps (h : Emitted k v s t) (hs : AccsFit s.enc) (hv : v.toNat < 2 ^ k.width) (hz : Keeps z t) : Keeps z s where
  wc_le := h.wc_ge.trans hz.wc_le
  stored b hb hout := h.stored hz hb hout
  begun j ho := by
    by_cases hj : j = k
    · subst hj
      have hacc := (h.held_fields hs hv hz).1
      rwa [slotFor_of_open ho, EncRegs.posFor, if_pos ho, EncRegs.accFor, if_pos ho] at hacc
    · have hword := h.others j hj
      have hbegun := hz.begun j (hword.isOpen ▸ ho)
      rwa [hword.slotAddr h.op, hword.pos, hword.acc] at hbegun

end Emitted

/-- FINISH stores every open word: the last state holds what was put out before it (R126). -/
theorem CanFlush.keeps_finish (h : CanFlush s) (hs : AccsFit s.enc) : Keeps (flushedAll s [.flags, .bytes, .strings]) s where
  wc_le := by
    have hwc : (flushedAll s [.flags, .bytes, .strings]).enc.wc = s.enc.wc := rfl
    exact hwc ▸ le_rfl
  stored b _ hout := flushedAll_read_outside fun k _ ho => hout k ho
  begun k ho := by
    have hmem : k ∈ [SubStream.flags, .bytes, .strings] := by cases k <;> decide
    rw [wordAt_of_holdsWord (h.flushedAll_holdsWord (by decide) hmem ho), Nat.mod_eq_of_lt (hs k ho)]

end

end Sys2Proof.Machine
end

section
/-! An element step of COMPRESS that raises nothing (R147): its flag and its payload emitted, the match it found, and what is held of it
at the end. -/

namespace Sys2Proof.Machine

open Sys2Proof Sys2Proof.Safety

section

variable {z s a t u : State} {k : SubStream} {v : Word}

/-! ## The input region is left as it is (R65, R76) -/

theorem inOutput_input {op : OpParams} (h : op.bufferBad = false) {i : Nat} (hi : i < op.len.toNat) :
    op.inOutput (op.src.toNat + i) = false := by
  have hout := input_outside_output h hi
  simp only [OpParams.inOutput, Bool.and_eq_false_iff, decide_eq_false_iff_not]
  unfold OpParams.dstEnd
  omega

theorem StepFrame.read_input (h : StepFrame s t) (hbuf : s.op.bufferBad = false) {i : Nat} (hi : i < s.op.len.toNat) :
    t.mem.read (s.op.src.toNat + i) = s.mem.read (s.op.src.toNat + i) := h.outside _ (inOutput_input hbuf hi)

/-! ## Steps that leave the packer alone -/

theorem matchFound_samePacker (m : Nat × Nat) (s : State) : SamePacker s (matchFound m s) :=
  ⟨rfl, rfl, rfl, fun k => by cases k <;> exact ⟨rfl, rfl, rfl, rfl⟩⟩

theorem advanceCur_samePacker (n : Nat) (s : State) : SamePacker s (advanceCur n s) :=
  ⟨rfl, rfl, rfl, fun k => by cases k <;> exact ⟨rfl, rfl, rfl, rfl⟩⟩

theorem SamePacker.slotFor (h : SamePacker s t) : t.enc.slotFor k = s.enc.slotFor k := by
  rw [EncRegs.slotFor, EncRegs.slotFor, (h.words k).isOpen, (h.words k).slot, h.wc]

theorem SamePacker.posFor (h : SamePacker s t) : t.enc.posFor k = s.enc.posFor k := by
  rw [EncRegs.posFor, EncRegs.posFor, (h.words k).isOpen, (h.words k).pos]

theorem SamePacker.wordWith (h : SamePacker s t) : t.enc.wordWith k v = s.enc.wordWith k v := by
  rw [EncRegs.wordWith, EncRegs.wordWith, EncRegs.accFor, EncRegs.accFor, h.posFor, (h.words k).isOpen, (h.words k).acc]

theorem SameWord.trans {e e' e'' : EncRegs} (h : SameWord e e' k) (h' : SameWord e' e'' k) : SameWord e e'' k :=
  ⟨h'.isOpen.trans h.isOpen, h'.slot.trans h.slot, h'.pos.trans h.pos, h'.acc.trans h.acc⟩

/-- An element emitted after such a step. -/
theorem Emitted.of_samePacker (h : Emitted k v a t) (hs : SamePacker s a) (hd : DatapathOnly s a) (hf : CanFlush s) :
    Emitted k v s t where
  toDatapathOnly := hd.trans h.toDatapathOnly
  start := hf
  packer := hs.op ▸ h.packer
  wf := h.wf
  room := by
    rw [← (hs.words k).isOpen, ← hs.wc, ← hs.op]
    exact h.room
  wc := by rw [h.wc, (hs.words k).isOpen, hs.wc]
  others j hj := (hs.words j).trans (h.others j hj)
  slot := h.slot.trans hs.slotFor
  word := by
    have := h.word
    rwa [hs.posFor, hs.wordWith, hs.slotFor, hs.op, hs.mem] at this

/-- An element emitted before such a step. -/
theorem Emitted.samePacker (h : Emitted k v s a) (ha : SamePacker a t) (hd : DatapathOnly a t) : Emitted k v s t where
  toDatapathOnly := h.toDatapathOnly.trans hd
  start := h.start
  packer := by
    refine ⟨ha.wc ▸ h.packer.wc_ge, ha.wc ▸ h.packer.wc_le, ha.wc ▸ h.packer.wc_mod, fun j => ?_, fun j => ?_, fun i j hij => ?_⟩
    · rw [(ha.words j).isOpen, (ha.words j).pos]; exact h.packer.pos j
    · rw [(ha.words j).isOpen, (ha.words j).slot, ha.wc]; exact h.packer.slot j
    · rw [(ha.words i).isOpen, (ha.words j).isOpen, (ha.words i).slot, (ha.words j).slot]; exact h.packer.apart i j hij
  wf := ha.mem ▸ h.wf
  room := h.room
  wc := ha.wc.trans h.wc
  others j hj := (h.others j hj).trans (ha.words j)
  slot := (ha.words k).slot.trans h.slot
  word := by
    rw [(ha.words k).isOpen, (ha.words k).pos, (ha.words k).acc, ha.mem]
    exact h.word

/-! ## The element (R147) -/

/-- The flag of an element as it is emitted (R123). -/
def flagWordOf (b : Bool) : Word := if b then 1 else 0

/-- The input bytes from position `cur` on repeat those from `off` places before, for `len` bytes (R143). -/
structure InputMatch (s : State) (cur off len : Nat) : Prop where
  off_le : off ≤ cur
  same : ∀ i < len, s.mem.read (s.op.src.toNat + (cur - off) + i) = s.mem.read (s.op.src.toNat + cur + i)

/-- An element step from `s` to `t`: its flag, then the input byte, or the token of a match in range that the input shows. -/
inductive Element (s t : State) : Prop where
  | literal (u : State) (flag : Emitted .flags (flagWordOf false) s u)
      (payload : Emitted .bytes ((s.mem.read (s.op.src.toNat + s.enc.cur.toNat)).zeroExtend 32) u t)
      (cur : t.enc.cur.toNat = s.enc.cur.toNat + 1)
  | string (u : State) (off len : Nat) (flag : Emitted .flags (flagWordOf true) s u)
      (payload : Emitted .strings ((packToken s.op.ls off len).zeroExtend 32) u t) (cur : t.enc.cur.toNat = s.enc.cur.toNat + len)
      (off_ge : 3 ≤ off) (off_le : off ≤ s.op.maxOff) (len_ge : 3 ≤ len) (len_le : len ≤ s.op.maxLen)
      (fits : s.enc.cur.toNat + len ≤ s.op.len.toNat) (found : InputMatch s s.enc.cur.toNat off len)

theorem advanceCur_toNat {n : Nat} (h : s.enc.cur.toNat + n ≤ s.op.len.toNat) :
    (advanceCur n s).enc.cur.toNat = s.enc.cur.toNat + n := by
  have := s.op.len.isLt
  simp only [advanceCur, State.setEnc_enc, BitVec.toNat_add, BitVec.toNat_ofNat]
  omega

/-- A match that the search has found is one of the input (R142, R143). -/
theorem Scanned.inputMatch {cur lim first last : Nat} {m : Nat × Nat} (h : Scanned s cur lim first last m) (hm : 0 < m.1) :
    InputMatch s cur m.2 m.1 := by
  rcases h with ⟨-, rfl⟩ | hbest
  · exact absurd hm (Nat.lt_irrefl 0)
  · obtain ⟨-, hsame, -⟩ := hbest.length
    exact ⟨hbest.offset_le, hsame⟩

/-- The payload of a string, and the advance. -/
theorem Element.of_emitString {off len : Nat} (hflag : Emitted .flags (flagWordOf true) s u) (hcur : u.enc.cur = s.enc.cur)
    (hoff : 3 ≤ off ∧ off ≤ s.op.maxOff) (hlen : 3 ≤ len ∧ len ≤ s.op.maxLen) (hfits : s.enc.cur.toNat + len ≤ s.op.len.toNat)
    (hfound : InputMatch s s.enc.cur.toNat off len) (hok : emitStringOp off len u = .ok () t) : Element s (advanceCur len t) := by
  rw [emitStringOp_eq hoff.1 (hflag.op ▸ hoff.2) hlen.1 (hflag.op ▸ hlen.2), hflag.op] at hok
  obtain ⟨hop, -, hcur'⟩ := isWordOf_strings.emitOn_sameReadPosition hok
  have hadvance : (advanceCur len t).enc.cur.toNat = s.enc.cur.toNat + len := by
    rw [advanceCur_toNat (by rwa [hcur', hcur, hop, hflag.op]), hcur', hcur]
  exact .string u off len hflag
    ((isStreamOf_strings.emitted hflag.canFlush hok).samePacker (advanceCur_samePacker len t) (.setEnc t _)) hadvance hoff.1 hoff.2
    hlen.1 hlen.2 hfits hfound

/-- The payload of a literal, which is the input byte at the read cursor, and the advance. -/
theorem Element.of_emitLiteral {x : Byte} (hflag : Emitted .flags (flagWordOf false) s u) (hcur : u.enc.cur = s.enc.cur)
    (hbuf : s.op.bufferBad = false) (hc : s.enc.cur.toNat < s.op.len.toNat)
    (hread : memRead1 u (u.op.src.toNat + u.enc.cur.toNat) = .ok x) (hok : emitLiteralOp x u = .ok () t) :
    Element s (advanceCur 1 t) := by
  obtain ⟨-, -, hx⟩ := memRead1_eq_ok hread
  rw [hflag.op, hcur, hflag.toStepFrame.read_input hbuf hc] at hx
  obtain ⟨hop, -, hcur'⟩ := isWordOf_bytes.emitOn_sameReadPosition hok
  have hadvance : (advanceCur 1 t).enc.cur.toNat = s.enc.cur.toNat + 1 := by
    rw [advanceCur_toNat (by rwa [hcur', hcur, hop, hflag.op]), hcur', hcur]
  have hbyte := (isStreamOf_bytes.emitted hflag.canFlush hok).samePacker (advanceCur_samePacker 1 t) (.setEnc t _)
  exact .literal u hflag (hx ▸ hbyte) hadvance

/-- An element step that raises nothing, in its parts. -/
theorem encodeStepOp_element (hrun : EncRun s) (h : CanFlush s) (hc : s.enc.cur.toNat < s.op.len.toNat)
    (hok : encodeStepOp s = .ok () t) : Element s t := by
  have ⟨hbuf, _⟩ := hrun
  have hsrc := (regions_fit hbuf).1
  obtain ⟨m, hm, hscanned⟩ := findMatch_ok hsrc h.holes hc.le
  have hsearch := matchSearchOp_ok hc hm
  have hall := matchSearchOp_all hsrc hc h.packer
  rw [hsearch] at hall
  obtain ⟨⟨hlim, hoff⟩, hfound⟩ := hall
  have hcan : CanFlush (matchFound m s) := ⟨h.wf, h.fits, hfound.packer, h.holes⟩
  have hflag : ∀ {b u}, emitFlagOp b (matchFound m s) = .ok () u → Emitted .flags (flagWordOf b) s u ∧ u.enc.cur = s.enc.cur :=
    fun hok => ⟨(isStreamOf_flags.emitted hcan hok).of_samePacker (matchFound_samePacker m s) hfound.toDatapathOnly h,
      (isWordOf_flags.emitOn_sameReadPosition hok).cur⟩
  rw [encodeStepOp, hsearch, Res.bind_ok] at hok
  split at hok <;> simp only [Res.bind_eq_ok] at hok
  · rename_i hlong
    obtain ⟨⟨⟩, u, hu, ⟨⟩, c, hstring, hadvance⟩ := hok
    cases hadvance
    obtain ⟨hu, hcur⟩ := hflag hu
    obtain ⟨hmax, hrest⟩ : m.1 ≤ s.op.maxLen ∧ m.1 ≤ s.op.len.toNat - s.enc.cur.toNat := by simpa [matchLimit] using hlim
    exact .of_emitString hu hcur (hoff (by omega)) ⟨hlong, hmax⟩ (by omega) (hscanned.inputMatch (by omega)) hstring
  · obtain ⟨⟨⟩, u, hu, x, y, hread, ⟨⟩, c, hliteral, hadvance⟩ := hok
    cases hadvance
    obtain ⟨hu, hcur⟩ := hflag hu
    cases hx : memRead1 u (u.op.src.toNat + u.enc.cur.toNat) <;> rw [hx] at hread <;> cases hread
    exact .of_emitLiteral hu hcur hbuf hc hx hliteral

/-! ## What is held of an element at the end -/

theorem flagWordOf_lt (b : Bool) : (flagWordOf b).toNat < 2 ^ SubStream.flags.width := by cases b <;> decide

theorem zeroExtend_toNat_lt {w : Nat} (hw : w ≤ 32) (x : BitVec w) : (x.zeroExtend 32).toNat < 2 ^ w := by
  rw [BitVec.toNat_setWidth_of_le hw]
  exact x.isLt

/-- The two parts of an element step, whatever its kind. -/
theorem Element.parts (h : Element s t) : ∃ b k v u, v.toNat < 2 ^ k.width ∧
    Emitted .flags (flagWordOf b) s u ∧ Emitted k v u t := by
  cases h with
  | literal u flag payload => exact ⟨_, .bytes, _, u, zeroExtend_toNat_lt (by decide) _, flag, payload⟩
  | string u off len flag payload => exact ⟨_, .strings, _, u, zeroExtend_toNat_lt (by decide) _, flag, payload⟩

theorem Element.canFlush (h : Element s t) : CanFlush t := by
  obtain ⟨b, k, v, u, -, -, hpayload⟩ := h.parts
  exact hpayload.canFlush

theorem Element.accsFit (h : Element s t) (hs : AccsFit s.enc) : AccsFit t.enc := by
  obtain ⟨b, k, v, u, hv, hflag, hpayload⟩ := h.parts
  exact hpayload.accsFit (hflag.accsFit hs (flagWordOf_lt b)) hv

theorem Element.keeps (h : Element s t) (hs : AccsFit s.enc) (hz : Keeps z t) : Keeps z s := by
  obtain ⟨b, k, v, u, hv, hflag, hpayload⟩ := h.parts
  exact hflag.keeps hs (flagWordOf_lt b) (hpayload.keeps (hflag.accsFit hs (flagWordOf_lt b)) hv hz)

end

end Sys2Proof.Machine
end

section
/-! The decoder in step with the encoder (R127, R187): it refills a word where the encoder has opened it, and takes each element from
where the encoder has put it. -/

namespace Sys2Proof.Machine

open Sys2Proof Sys2Proof.Safety

/-! ## The current words of the decoder, by sub-stream (R173, R175, R180) -/

/-- How many elements are left of the current word. -/
def DecRegs.leftOf (d : DecRegs) : SubStream → Nat
  | .flags => 32 - d.fIdx.val
  | .strings => d.sLeft.val
  | .bytes => d.bLeft.val

/-- The current word from its next element on. -/
def DecRegs.restOf (d : DecRegs) : SubStream → Word
  | .flags => d.fWord >>> d.fIdx.val
  | .strings => d.sWord
  | .bytes => d.bWord

/-- A decoder that has `left` elements `rest` of a word of sub-stream `k` follows the encoder in `s`, whose words end up in the memory of
`z`: it is at the encoder's position in the same word, or both have none. -/
structure Follows (z s : State) (k : SubStream) (left : Nat) (rest : Word) : Prop where
  closed : s.enc.openOf k = false → left = 0
  opened : s.enc.openOf k = true →
    k.width * (left + s.enc.posOf k) = 32 ∧ rest = wordAt z (slotAddr s k) >>> (k.width * s.enc.posOf k)

section

variable {z s t u v w : State} {k : SubStream} {e : Word} {left : Nat} {rest rest' : Word}

theorem Follows.of_sameWord (h : Follows z s k left rest) (hw : SameWord s.enc t.enc k) (hop : t.op = s.op) :
    Follows z t k left rest where
  closed ho := h.closed (hw.isOpen ▸ ho)
  opened ho := by
    rw [hw.pos, hw.slotAddr hop]
    exact h.opened (hw.isOpen ▸ ho)

/-- The decoder needs a word exactly where the encoder has none open. -/
theorem Follows.left_eq_zero_iff (h : Follows z s k left rest) : left = 0 ↔ s.enc.openOf k = false := by
  refine ⟨fun hleft => ?_, h.closed⟩
  by_contra ho
  obtain ⟨hcount, -⟩ := h.opened (Bool.of_not_eq_false ho)
  have := width_mul_posOf_lt s.enc k
  rw [hleft, Nat.zero_add] at hcount
  omega

/-- What is left after the refill that the next element may need: the whole word at the write cursor, or what was left. -/
def leftReady (k : SubStream) (left : Nat) : Nat := if left = 0 then 32 / k.width else left

/-- After that refill the decoder is at the element's place in its word. -/
theorem Follows.ready (h : Follows z s k left rest) :
    k.width * (leftReady k left + s.enc.posFor k) = 32 ∧
    (if left = 0 then wordAt z (s.op.dst.toNat + s.enc.wc.toNat) else rest) =
      wordAt z (s.op.dst.toNat + (s.enc.slotFor k).toNat) >>> (k.width * s.enc.posFor k) := by
  unfold leftReady EncRegs.posFor EncRegs.slotFor
  by_cases hleft : left = 0
  · have ho := h.left_eq_zero_iff.1 hleft
    simp only [hleft, ho, if_true, Bool.false_eq_true, if_false, Nat.add_zero, Nat.mul_zero, BitVec.ushiftRight_zero, and_true]
    cases k <;> rfl
  · have ho : s.enc.openOf k = true := Bool.of_not_eq_false (h.left_eq_zero_iff.not.1 hleft)
    simp only [hleft, ho, if_true, if_false]
    exact h.opened ho

/-- The element that the decoder takes is the one the encoder has emitted, and the decoder follows the encoder past it. -/
theorem Follows.draw (h : Follows z s k left rest) (he : Emitted k e s t) (hs : AccsFit s.enc) (hv : e.toNat < 2 ^ k.width)
    (hz : Keeps z t) (hrest : rest' = if left = 0 then wordAt z (s.op.dst.toNat + s.enc.wc.toNat) else rest) :
    rest'.toNat % 2 ^ k.width = e.toNat ∧ Follows z t k (leftReady k left - 1) (rest' >>> k.width) := by
  obtain ⟨hcount, hword⟩ := h.ready
  rw [← hrest] at hword
  refine ⟨?_, fun ho => ?_, fun ho => ?_⟩
  · rw [hword, BitVec.toNat_ushiftRight, Nat.shiftRight_eq_div_pow]
    exact (he.held_fields hs hv hz).2
  · rcases he.word with ⟨hopen, -⟩ | ⟨-, hfull, -⟩
    · rw [hopen] at ho; cases ho
    · have heq := Nat.eq_of_mul_eq_mul_left (by cases k <;> decide) (hcount.trans hfull.symm)
      omega
  · rcases he.word with ⟨-, hpos, -⟩ | ⟨hclosed, -⟩
    · have hleft : leftReady k left ≠ 0 := by
        unfold leftReady
        split
        · cases k <;> decide
        · assumption
      rw [hpos, he.slotAddr_eq, hword, ← BitVec.shiftRight_add, Nat.mul_succ]
      refine ⟨?_, rfl⟩
      rw [← hcount]
      congr 1
      omega
    · rw [hclosed] at ho; cases ho

/-! ## The stream the decoder reads -/

/-- The decoder `v` reads the stream that COMPRESS has left from `dst` on in the memory of `z`, and memory has no holes. -/
structure ReadsStream (z : State) (dst : Nat) (v : State) : Prop where
  buffers : v.op.bufferBad = false
  holes : v.plat.holes = []
  len : v.op.len = z.enc.wc
  stream : ∀ i < z.enc.wc.toNat, v.mem.read (v.op.src.toNat + i) = z.mem.read (dst + i)

theorem ReadsStream.of_sameInput {dst : Nat} (h : ReadsStream z dst v) (hop : w.op = v.op) (hplat : w.plat = v.plat)
    (hmem : ∀ i < v.op.len.toNat, w.mem.read (v.op.src.toNat + i) = v.mem.read (v.op.src.toNat + i)) : ReadsStream z dst w where
  buffers := hop ▸ h.buffers
  holes := hplat ▸ h.holes
  len := hop ▸ h.len
  stream i hi := by
    rw [hop, hmem i (h.len ▸ hi)]
    exact h.stream i hi

/-- A word that the encoder reserved can be read, and is the one it has left at its slot. -/
theorem ReadsStream.readWord {dst : Nat} (h : ReadsStream z dst v) (hroom : v.dec.rc.toNat + 4 ≤ z.enc.wc.toNat) :
    CanReadWord v ∧ wordAt v (v.op.src.toNat + v.dec.rc.toNat) = wordAt z (dst + v.dec.rc.toNat) := by
  refine ⟨canReadWord_of_no_holes h.buffers h.holes (h.len ▸ hroom), wordAt_congr fun j hj => ?_⟩
  rw [Nat.add_assoc, Nat.add_assoc]
  exact h.stream _ (by omega)

/-- Where the encoder has opened a word for an element, the decoder reads that word, and both cursors pass it. -/
theorem Emitted.refill (he : Emitted k e s t) (hz : Keeps z t) (hv : ReadsStream z s.op.dst.toNat v)
    (hrc : v.dec.rc = s.enc.wc) (hf : Follows z s k left rest) :
    (left = 0 → CanReadWord v ∧
      wordAt v (v.op.src.toNat + v.dec.rc.toNat) = wordAt z (s.op.dst.toNat + s.enc.wc.toNat)) ∧
    (if left = 0 then v.dec.rc + 4 else v.dec.rc) = t.enc.wc := by
  have hwc := he.wc
  by_cases hleft : left = 0
  · have ho := hf.left_eq_zero_iff.1 hleft
    have hle := hz.wc_le
    simp only [ho, Bool.false_eq_true, if_false] at hwc
    rw [hwc, toNat_reserve (he.room ho), ← hrc] at hle
    rw [if_pos hleft, hwc, ← hrc]
    exact ⟨fun _ => hv.readWord hle, rfl⟩
  · have ho : s.enc.openOf k = true := Bool.of_not_eq_false (hf.left_eq_zero_iff.not.1 hleft)
    rw [if_neg hleft, hwc, if_pos ho, hrc]
    exact ⟨fun h => absurd h hleft, rfl⟩

/-! ## The flag of an element -/

theorem leftOf_flags_eq_zero_iff (d : DecRegs) : d.leftOf .flags = 0 ↔ d.fIdx = 32 := by
  rw [Fin.ext_iff]
  have := d.fIdx.isLt
  change 32 - d.fIdx.val = 0 ↔ d.fIdx.val = 32
  omega

@[simp] theorem afterFlagRefill_mem (v : State) : (afterFlagRefill v).mem = v.mem := by unfold afterFlagRefill; split <;> rfl
@[simp] theorem afterFlagRefill_op (v : State) : (afterFlagRefill v).op = v.op := by unfold afterFlagRefill; split <;> rfl
@[simp] theorem afterFlagRefill_plat (v : State) : (afterFlagRefill v).plat = v.plat := by unfold afterFlagRefill; split <;> rfl
@[simp] theorem afterFlagRefill_o (v : State) : (afterFlagRefill v).dec.o = v.dec.o := by unfold afterFlagRefill; split <;> rfl

/-- The refill of the flag word leaves the other current words. -/
theorem afterFlagRefill_others (v : State) (hk : k ≠ .flags) :
    (afterFlagRefill v).dec.leftOf k = v.dec.leftOf k ∧ (afterFlagRefill v).dec.restOf k = v.dec.restOf k := by
  unfold afterFlagRefill
  split
  · cases k
    · exact absurd rfl hk
    · exact ⟨rfl, rfl⟩
    · exact ⟨rfl, rfl⟩
  · exact ⟨rfl, rfl⟩

/-- The flag word after the refill, from its next flag on. -/
theorem afterFlagRefill_flags (v : State) :
    (afterFlagRefill v).dec.leftOf .flags = leftReady .flags (v.dec.leftOf .flags) ∧
    (afterFlagRefill v).dec.restOf .flags =
      (if v.dec.leftOf .flags = 0 then wordAt v (v.op.src.toNat + v.dec.rc.toNat) else v.dec.restOf .flags) ∧
    (afterFlagRefill v).dec.rc = if v.dec.leftOf .flags = 0 then v.dec.rc + 4 else v.dec.rc := by
  by_cases h : v.dec.fIdx = 32
  · simp only [afterFlagRefill_exhausted h, leftReady, (leftOf_flags_eq_zero_iff v.dec).2 h, if_true]
    exact ⟨rfl, BitVec.ushiftRight_zero _, rfl⟩
  · have hleft := (leftOf_flags_eq_zero_iff v.dec).not.2 h
    rw [afterFlagRefill_of_flag h, leftReady, if_neg hleft, if_neg hleft, if_neg hleft]
    exact ⟨rfl, rfl, rfl⟩

/-- The flag bit is the lowest of what is left of the flag word. -/
theorem flagBit_of_restOf {d : DecRegs} {b : Bool} (h : (d.restOf .flags).toNat % 2 ^ SubStream.flags.width = (flagWordOf b).toNat) :
    d.fWord.getLsbD d.fIdx.val = b := by
  have hbit : (d.restOf .flags).getLsbD 0 = d.fWord.getLsbD d.fIdx.val := BitVec.getLsbD_ushiftRight _ _ _
  rw [← hbit, BitVec.getLsbD, Nat.testBit_zero]
  change (d.restOf .flags).toNat % 2 = _ at h
  rw [h]
  cases b <;> rfl

/-- The decoder between an element's flag and its payload: `u` is the encoder there, `b` the flag. -/
structure AtPayload (z u : State) (b : Bool) (v : State) : Prop where
  rc : v.dec.rc = u.enc.wc
  fIdx_lt : v.dec.fIdx.val < 32
  flag : v.dec.fWord.getLsbD v.dec.fIdx.val = b
  flags : Follows z u .flags (v.dec.leftOf .flags - 1) (v.dec.restOf .flags >>> 1)
  strings : Follows z u .strings v.dec.sLeft.val v.dec.sWord
  bytes : Follows z u .bytes v.dec.bLeft.val v.dec.bWord

/-- The flag's part of an element step: where the encoder has opened a flag word, the decoder reads it. -/
theorem Emitted.flag_atPayload {b : Bool} (he : Emitted .flags (flagWordOf b) s u) (hs : AccsFit s.enc) (hz : Keeps z u)
    (hv : ReadsStream z s.op.dst.toNat v) (hrc : v.dec.rc = s.enc.wc)
    (hfollows : ∀ k, Follows z s k (v.dec.leftOf k) (v.dec.restOf k)) :
    (v.dec.fIdx = 32 → CanReadWord v) ∧ AtPayload z u b (afterFlagRefill v) := by
  have hf := hfollows .flags
  obtain ⟨hread, hwc⟩ := he.refill hz hv hrc hf
  obtain ⟨hleft, hrest, hcursor⟩ := afterFlagRefill_flags v
  have hrest' : (afterFlagRefill v).dec.restOf .flags =
      if v.dec.leftOf .flags = 0 then wordAt z (s.op.dst.toNat + s.enc.wc.toNat) else v.dec.restOf .flags := by
    rw [hrest]
    split
    · rename_i h; exact (hread h).2
    · rfl
  obtain ⟨hbit, hnext⟩ := hf.draw he hs (flagWordOf_lt b) hz hrest'
  refine ⟨fun h => (hread ((leftOf_flags_eq_zero_iff _).2 h)).1, ?_, afterFlagRefill_fIdx_lt v, flagBit_of_restOf hbit, ?_, ?_, ?_⟩
  · rw [hcursor, hwc]
  · rw [hleft]; exact hnext
  · obtain ⟨h1, h2⟩ := afterFlagRefill_others v (k := .strings) nofun
    have hword := (hfollows .strings).of_sameWord (he.others .strings nofun) he.op
    rwa [← h1, ← h2] at hword
  · obtain ⟨h1, h2⟩ := afterFlagRefill_others v (k := .bytes) nofun
    have hword := (hfollows .bytes).of_sameWord (he.others .bytes nofun) he.op
    rwa [← h1, ← h2] at hword

end

end Sys2Proof.Machine
end

section
/-! The round trip (R187): every element step of COMPRESS has its element step of DECOMPRESS, and so have the two loops. -/

namespace Sys2Proof.Machine

open Sys2Proof Sys2Proof.Safety

section

variable {z s t u v w : State}

/-! ## The payload of an element -/

/-- The value that the decoder takes from its word, refilled if need be, is the value that was emitted (R124, R125, R179, R181). -/
theorem Emitted.payload {k : SubStream} {x : BitVec k.width} (hk : k.width ≤ 32) (he : Emitted k (x.zeroExtend 32) u t)
    (hs : AccsFit u.enc) (hz : Keeps z t) (hv : ReadsStream z u.op.dst.toNat v) (hrc : v.dec.rc = u.enc.wc) {left : Nat}
    {rest word : Word} (hf : Follows z u k left rest)
    (hword : word = if left = 0 then wordAt v (v.op.src.toNat + v.dec.rc.toNat) else rest) :
    word.extractLsb' 0 k.width = x ∧ Follows z t k (leftReady k left - 1) (word >>> k.width) := by
  have hread := (he.refill hz hv hrc hf).1
  have hword' : word = if left = 0 then wordAt z (u.op.dst.toNat + u.enc.wc.toNat) else rest := by
    rw [hword]
    split
    · rename_i h; exact (hread h).2
    · rfl
  obtain ⟨hvalue, hnext⟩ := hf.draw he hs (zeroExtend_toNat_lt hk x) hz hword'
  refine ⟨BitVec.eq_of_toNat_eq ?_, hnext⟩
  rw [BitVec.extractLsb'_toNat, Nat.shiftRight_zero, hvalue]
  exact BitVec.toNat_setWidth_of_le hk

theorem Emitted.literal_payload {x : Byte} (he : Emitted .bytes (x.zeroExtend 32) u t) (hs : AccsFit u.enc) (hz : Keeps z t)
    (hv : ReadsStream z u.op.dst.toNat v) (hrc : v.dec.rc = u.enc.wc) (hf : Follows z u .bytes v.dec.bLeft.val v.dec.bWord) :
    (v.dec.bLeft = 0 → CanReadWord v) ∧ (LiteralWord v).extractLsb' 0 8 = x ∧ (literalRegs v).rc = t.enc.wc ∧
    Follows z t .bytes (literalRegs v).bLeft.val (literalRegs v).bWord := by
  obtain ⟨hread, hwc⟩ := he.refill hz hv hrc hf
  simp only [Fin.val_eq_zero_iff] at hread hwc
  obtain ⟨hbyte, hnext⟩ := he.payload (word := LiteralWord v) (by decide) hs hz hv hrc hf
    (by simp only [LiteralWord, Fin.val_eq_zero_iff])
  have hleft : (literalRegs v).bLeft.val = leftReady .bytes v.dec.bLeft.val - 1 := by
    simp only [literalRegs, leftReady, Fin.val_eq_zero_iff]
    split <;> rfl
  exact ⟨fun h => (hread h).1, hbyte, hwc, hleft ▸ hnext⟩

theorem Emitted.string_payload {x : Token} (he : Emitted .strings (x.zeroExtend 32) u t) (hs : AccsFit u.enc) (hz : Keeps z t)
    (hv : ReadsStream z u.op.dst.toNat v) (hrc : v.dec.rc = u.enc.wc) (hf : Follows z u .strings v.dec.sLeft.val v.dec.sWord)
    (len : Nat) :
    (v.dec.sLeft = 0 → CanReadWord v) ∧ (StringWordNow v).extractLsb' 0 16 = x ∧ (stringRegs len v).rc = t.enc.wc ∧
    Follows z t .strings (stringRegs len v).sLeft.val (stringRegs len v).sWord := by
  obtain ⟨hread, hwc⟩ := he.refill hz hv hrc hf
  simp only [Fin.val_eq_zero_iff] at hread hwc
  obtain ⟨htoken, hnext⟩ := he.payload (word := StringWordNow v) (by decide) hs hz hv hrc hf
    (by simp only [StringWordNow, Fin.val_eq_zero_iff])
  have hleft : (stringRegs len v).sLeft.val = leftReady .strings v.dec.sLeft.val - 1 := by
    simp only [stringRegs, leftReady, Fin.val_eq_zero_iff]
    split <;> rfl
  exact ⟨fun h => (hread h).1, htoken, hwc, hleft ▸ hnext⟩

/-! ## An element step of each side -/

/-- The decoder `v` has put out what the encoder `s` has taken of its input, and decodes with the same parameters from the stream that
the encoder leaves in the memory of `z`. -/
structure SameProgress (z s v : State) : Prop where
  reads : ReadsStream z s.op.dst.toNat v
  run : DecRun v
  wf : v.mem.wf
  n : v.op.n = s.op.len
  ls : v.op.ls = s.op.ls
  o : v.dec.o.toNat = s.enc.cur.toNat
  out : ∀ i < s.enc.cur.toNat, v.mem.read (v.op.dst.toNat + i) = s.mem.read (s.op.src.toNat + i)

/-- The decoder in step with the encoder between two elements: it has also read the words that the encoder has reserved, and is at the
encoder's place in each. -/
structure InStep (z s v : State) : Prop extends SameProgress z s v where
  rc : v.dec.rc = s.enc.wc
  words : ∀ k, Follows z s k (v.dec.leftOf k) (v.dec.restOf k)

/-- What is left of each word after an element step: the flag advances, and the payload is dropped from its own word. -/
theorem AtPayload.follows {b : Bool} (h : AtPayload z u b v) (hflags : SameWord u.enc t.enc .flags) (hop : t.op = u.op) {d : DecRegs}
    (hidx : d.fIdx.val = v.dec.fIdx.val + 1) (hword : d.fWord = v.dec.fWord) (hstrings : Follows z t .strings d.sLeft.val d.sWord)
    (hbytes : Follows z t .bytes d.bLeft.val d.bWord) (k : SubStream) : Follows z t k (d.leftOf k) (d.restOf k) := by
  cases k with
  | flags =>
    rw [DecRegs.leftOf, DecRegs.restOf, hidx, hword, BitVec.shiftRight_add]
    exact h.flags.of_sameWord hflags hop
  | strings => exact hstrings
  | bytes => exact hbytes

/-- A window copied where the input has the same match puts out the input (R143, R178): by induction on the position. -/
theorem WindowCopied.out {off len cur : Nat} {m : Memory} (h : WindowCopied off len v m) (hoff : 0 < off) (ho : v.dec.o.toNat = cur)
    (hfound : InputMatch s cur off len)
    (hout : ∀ i < cur, v.mem.read (v.op.dst.toNat + i) = s.mem.read (s.op.src.toNat + i)) {i : Nat} (hi : i < cur + len) :
    m.read (v.op.dst.toNat + i) = s.mem.read (s.op.src.toNat + i) := by
  have hle := hfound.off_le
  induction i using Nat.strong_induction_on with
  | _ i ih =>
    rcases Nat.lt_or_ge i cur with hlt | hge
    · rw [h.same _ (by omega), hout i hlt]
    · obtain ⟨j, rfl⟩ := Nat.exists_eq_add_of_le hge
      have hwindow := h.window j (by omega)
      have hsame := hfound.same j (by omega)
      rw [ho, show v.op.dst.toNat + cur + j - off = v.op.dst.toNat + (cur + j - off) by omega, ih (cur + j - off) (by omega) (by omega),
        show s.op.src.toNat + (cur + j - off) = s.op.src.toNat + (cur - off) + j by omega, hsame] at hwindow
      rwa [← Nat.add_assoc, ← Nat.add_assoc]

/-- After an element step of each side the two are in step again. -/
theorem SameProgress.next (h : SameProgress z s v) (hs : EncRun s) (ht : DatapathOnly s t) (hd : DecodedElement v w)
    (hwf : w.mem.wf) (hrc : w.dec.rc = t.enc.wc) (ho : w.dec.o.toNat = t.enc.cur.toNat)
    (hcur : t.enc.cur.toNat ≤ s.op.len.toNat) (hwords : ∀ k, Follows z t k (w.dec.leftOf k) (w.dec.restOf k))
    (hout : ∀ i < t.enc.cur.toNat, w.mem.read (v.op.dst.toNat + i) = s.mem.read (s.op.src.toNat + i)) : InStep z t w where
  reads := by
    rw [ht.op]
    exact h.reads.of_sameInput hd.op (congrArg (·.plat) hd.eq) fun i hi => hd.toStepFrame.read_input h.reads.buffers hi
  run := hd.run
  wf := hwf
  n := by rw [hd.op, ht.op, h.n]
  ls := by rw [hd.op, ht.op, h.ls]
  o := ho
  out i hi := by
    have ⟨hbuf, _⟩ := hs
    rw [hd.op, ht.op, ht.toStepFrame.read_input hbuf (hi.trans_le hcur)]
    exact hout i hi
  rc := hrc
  words := hwords

/-- What an element step of the decoder finds while input is left to put out. -/
theorem SameProgress.bytes_left (h : SameProgress z s v) (hc : s.enc.cur.toNat < s.op.len.toNat) :
    v.dec.rem.toNat = s.op.len.toNat - s.enc.cur.toNat ∧ v.dec.o.toNat + v.dec.rem.toNat < 2 ^ 32 ∧
    v.op.dst.toNat + s.op.len.toNat ≤ Config.addressSpace := by
  have hrun := h.run
  obtain ⟨-, -, -, -, -, hsum, hcap, -⟩ := hrun
  have hfits := (regions_fit h.reads.buffers).2
  have ho := h.o
  have hn := s.op.len.isLt
  rw [h.n] at hsum hcap
  unfold OpParams.dstEnd at hfits
  omega

/-- The refill of the flag word puts out nothing. -/
theorem SameProgress.afterFlagRefill (h : SameProgress z s v) (hready : v.dec.fIdx = 32 → CanReadWord v) :
    SameProgress z s (afterFlagRefill v) := by
  have hrun : DecRun (Machine.afterFlagRefill v) := by
    by_cases hidx : v.dec.fIdx = 32
    · have hall := flagRefillOp_all h.run
      rw [flagRefillOp_ok (readWordOp_of_canReadWord (hready hidx))] at hall
      obtain ⟨-, hrun, -⟩ := hall
      rw [afterFlagRefill_exhausted hidx]
      exact hrun
    · rw [afterFlagRefill_of_flag hidx]
      exact h.run
  have hop := afterFlagRefill_op v
  have hmem := afterFlagRefill_mem v
  refine ⟨h.reads.of_sameInput hop (afterFlagRefill_plat v) fun _ _ => by rw [hmem], hrun, hmem ▸ h.wf, hop ▸ h.n, hop ▸ h.ls,
    (congrArg BitVec.toNat (afterFlagRefill_o v)).trans h.o, fun i hi => ?_⟩
  rw [hop, hmem]
  exact h.out i hi

section

variable (h : SameProgress z s v) (hs : EncRun s) (hfit : AccsFit u.enc) (hc : s.enc.cur.toNat < s.op.len.toNat) (hz : Keeps z t)

include h hs hfit hc hz

/-- A literal of the encoder is a literal of the decoder. -/
theorem SameProgress.literal_step (flag : Emitted .flags (flagWordOf false) s u) (hat : AtPayload z u false v)
    (payload : Emitted .bytes ((s.mem.read (s.op.src.toNat + s.enc.cur.toNat)).zeroExtend 32) u t)
    (hcur : t.enc.cur.toNat = s.enc.cur.toNat + 1) : ∃ w, decodeStepOp v = .ok () w ∧ InStep z t w := by
  obtain ⟨hready, hbyte, hrc, hbytes⟩ := payload.literal_payload hfit hz (flag.op.symm ▸ h.reads) hat.rc hat.bytes
  obtain ⟨hrem, hsum, hspace⟩ := h.bytes_left hc
  have hr : 0 < v.dec.rem.toNat := by omega
  have ho := h.o
  have hok := decodeStepOp_literal hat.fIdx_lt hat.flag hready (answers_of_no_holes h.reads.holes (by omega)) hr hsum
  have hdecoded := decodeStepOp_all h.run hr
  rw [hok] at hdecoded
  have hput : (v.dec.putOut 1).o.toNat = v.dec.o.toNat + 1 := DecRegs.putOut_o hr hsum
  refine ⟨_, hok, h.next hs (flag.toDatapathOnly.trans payload.toDatapathOnly) hdecoded (Memory.wf_write h.wf (by omega) _) hrc
    (hput.trans (by omega)) (by omega) (hat.follows (payload.others .flags nofun) payload.op rfl rfl
      (hat.strings.of_sameWord (payload.others .strings nofun) payload.op) hbytes) fun i hi => ?_⟩
  change (v.mem.write _ _).read _ = _
  rw [Memory.read_write h.wf]
  split
  · rw [hbyte, show i = s.enc.cur.toNat by omega]
  · exact h.out i (by omega)

/-- A string of the encoder is a string of the decoder. -/
theorem SameProgress.string_step {off len : Nat} (flag : Emitted .flags (flagWordOf true) s u) (hat : AtPayload z u true v)
    (payload : Emitted .strings ((packToken s.op.ls off len).zeroExtend 32) u t)
    (hcur : t.enc.cur.toNat = s.enc.cur.toNat + len) (hoff : 3 ≤ off ∧ off ≤ s.op.maxOff) (hlen : 3 ≤ len ∧ len ≤ s.op.maxLen)
    (hfits : s.enc.cur.toNat + len ≤ s.op.len.toNat) (hfound : InputMatch s s.enc.cur.toNat off len) :
    ∃ w, decodeStepOp v = .ok () w ∧ InStep z t w := by
  obtain ⟨hready, htoken, hrc, hstrings⟩ := payload.string_payload hfit hz (flag.op.symm ▸ h.reads) hat.rc hat.strings len
  have ⟨_, hencparams, _⟩ := hs
  have hrun := h.run
  have ⟨_, hparams, _⟩ := hrun
  have hmatch : stringMatch v = (off, len) := by
    rw [stringMatch, htoken, h.ls, tokenFields_packToken hencparams hoff.1 hoff.2 hlen.1 hlen.2]
  obtain ⟨hrem, hsum, hspace⟩ := h.bytes_left hc
  have hr : 0 < v.dec.rem.toNat := by omega
  have ho := h.o
  have hback := hfound.off_le
  obtain ⟨m, hok, hm⟩ := decodeStepOp_string hat.fIdx_lt hat.flag hparams hready h.wf (by rw [hmatch]; omega)
    (by rw [hmatch]; omega) hsum (by rw [hmatch]; exact answers_of_no_holes h.reads.holes (by omega))
  rw [hmatch] at hok hm
  have hdecoded := decodeStepOp_all h.run hr
  rw [hok] at hdecoded
  have hput : (v.dec.putOut len).o.toNat = v.dec.o.toNat + len := DecRegs.putOut_o (by omega) hsum
  refine ⟨_, hok, h.next hs (flag.toDatapathOnly.trans payload.toDatapathOnly) hdecoded hm.wf hrc (hput.trans (by omega))
    (by omega) (hat.follows (payload.others .flags nofun) payload.op rfl rfl hstrings
      (hat.bytes.of_sameWord (payload.others .bytes nofun) payload.op)) fun i hi => ?_⟩
  exact hm.out (by omega) ho hfound h.out (hcur ▸ hi)

end

/-- An element step of the encoder has its element step of the decoder. -/
theorem Element.decodeStep (he : Element s t) (hs : EncRun s) (hfit : AccsFit s.enc) (hc : s.enc.cur.toNat < s.op.len.toNat)
    (hz : Keeps z t) (h : InStep z s v) : ∃ w, decodeStepOp v = .ok () w ∧ InStep z t w := by
  have hr : 0 < v.dec.rem.toNat := by
    have := (h.bytes_left hc).1
    omega
  have hflag : ∀ {b u}, Emitted .flags (flagWordOf b) s u → Keeps z u →
      decodeStepOp v = decodeStepOp (afterFlagRefill v) ∧ SameProgress z s (afterFlagRefill v) ∧
        AtPayload z u b (afterFlagRefill v) := fun flag hzu => by
    obtain ⟨hready, hat⟩ := flag.flag_atPayload hfit hzu h.reads h.rc h.words
    exact ⟨decodeStepOp_afterFlagRefill hr hready, h.toSameProgress.afterFlagRefill hready, hat⟩
  cases he with
  | literal u flag payload cur =>
    have hfit' := flag.accsFit hfit (flagWordOf_lt _)
    obtain ⟨hstep, hprogress, hat⟩ := hflag flag (payload.keeps hfit' (zeroExtend_toNat_lt (by decide) _) hz)
    rw [hstep]
    exact hprogress.literal_step hs hfit' hc hz flag hat payload cur
  | string u off len flag payload cur off_ge off_le len_ge len_le fits found =>
    have hfit' := flag.accsFit hfit (flagWordOf_lt _)
    obtain ⟨hstep, hprogress, hat⟩ := hflag flag (payload.keeps hfit' (zeroExtend_toNat_lt (by decide) _) hz)
    rw [hstep]
    exact hprogress.string_step hs hfit' hc hz flag hat payload cur ⟨off_ge, off_le⟩ ⟨len_ge, len_le⟩ fits found

end

end Sys2Proof.Machine
end

section
/-! The round trip (R187): the two loops, from the header to COMPLETE. -/

namespace Sys2Proof.Machine

open Sys2Proof Sys2Proof.Safety

/-! ## The two loops (R148, R170) -/

/-- The loop of a decoder in step with the encoder `s` completes, and has put out the whole input. -/
def DecodesInput (z s : State) (fuel : Nat) : Prop :=
  ∀ v, InStep z s v → ∃ w, decLoop fuel v = .ok () (completeOp v.op.n w) ∧ DatapathOnly v w ∧
    ∀ i < s.op.len.toNat, w.mem.read (v.op.dst.toNat + i) = s.mem.read (s.op.src.toNat + i)

section

variable {z s t u v : State} {fuel : Nat}

/-- Once the encoder has taken its whole input, the decoder is at its end too. -/
theorem decodesInput_of_end (hend : s.enc.cur.toNat = s.op.len.toNat) : DecodesInput z s fuel := fun v hv => by
  have ⟨_, _, _, _, _, hsum, _⟩ := hv.run
  have ho := hv.o
  have hn := congrArg BitVec.toNat hv.n
  exact ⟨v, decLoop_end hv.reads.holes (by omega) _, .refl v, hend ▸ hv.out⟩

/-- An element step of the encoder, and the elements after it. -/
theorem Element.decodesInput (he : Element s t) (hrun : EncRun s) (hfit : AccsFit s.enc) (hc : s.enc.cur.toNat < s.op.len.toNat)
    (hst : StepFrame s t) (hop : t.op = s.op) (hz : Keeps z t) (ht : DecodesInput z t fuel) : DecodesInput z s (fuel + 1) := fun v hv => by
  have ⟨hbuf, _⟩ := hrun
  have hr : 0 < v.dec.rem.toNat := by
    have := (hv.bytes_left hc).1
    omega
  obtain ⟨w, hstep, hw⟩ := he.decodeStep hrun hfit hc hz hv
  have hdecoded := decodeStepOp_all hv.run hr
  rw [hstep] at hdecoded
  obtain ⟨x, hloop, hx, hout⟩ := ht w hw
  rw [hop, hdecoded.op] at hout
  refine ⟨x, ?_, hdecoded.toDatapathOnly.trans hx, fun i hi => (hout i hi).trans (hst.read_input hbuf hi)⟩
  rw [decLoop_element hv.reads.holes hr, hstep, Res.bind_ok, hloop, hdecoded.op]

/-- The loop of COMPRESS that completes: by induction on the element steps left, `z` being the state that COMPLETE is performed in. -/
theorem encLoop_decodesInput (hrun : EncRun s) (h : CanFlush s) (hfit : AccsFit s.enc)
    (hfuel : s.op.len.toNat - s.enc.cur.toNat ≤ fuel) (hok : encLoop fuel s = .ok () t) :
    ∃ z, t = completeOp z.enc.wc z ∧ Keeps z s ∧ DecodesInput z s fuel := by
  have hend : ∀ {fuel s}, EncRun s → CanFlush s → AccsFit s.enc → s.op.len.toNat ≤ s.enc.cur.toNat → encLoop fuel s = .ok () t →
      ∃ z, t = completeOp z.enc.wc z ∧ Keeps z s ∧ DecodesInput z s fuel := fun hrun h hfit hc hok => by
    have ⟨_, _, hcur, _⟩ := hrun
    rw [encLoop_end h.holes hc, encEndStep, finishOp_ok h, Res.bind_ok] at hok
    cases hok
    exact ⟨_, rfl, h.keeps_finish hfit, decodesInput_of_end (Nat.le_antisymm hcur hc)⟩
  induction fuel generalizing s with
  | zero => exact hend hrun h hfit (by omega) hok
  | succ fuel ih =>
    rcases Nat.lt_or_ge s.enc.cur.toNat s.op.len.toNat with hc | hc
    · rw [encLoop_element h.holes hc, Res.bind_eq_ok] at hok
      obtain ⟨⟨⟩, x, hstep, hok⟩ := hok
      have he := encodeStepOp_element hrun h hc hstep
      have hencoded := encodeStepOp_all hrun hc
      rw [hstep] at hencoded
      have hcur := hencoded.cur
      have hop := hencoded.op
      obtain ⟨z, hz, hkeeps, hdecodes⟩ := ih hencoded.run he.canFlush (he.accsFit hfit) (by rw [hop]; omega) hok
      exact ⟨z, hz, he.keeps hfit hkeeps, he.decodesInput hrun hfit hc hencoded.toStepFrame hop hkeeps hdecodes⟩
    · exact hend hrun h hfit hc hok

/-! ## A COMPRESS that completes (R148, R210, R235) -/

/-- What the loop raises has left the frame of a step. -/
theorem encLoop_all (hrun : EncRun s) (hholes : s.plat.holes = []) (hfuel : s.op.len.toNat - s.enc.cur.toNat ≤ fuel) :
    (encLoop fuel s).All (fun _ _ => True) (Raised s) := by
  have hend : ∀ {fuel s}, EncRun s → s.plat.holes = [] → s.op.len.toNat ≤ s.enc.cur.toNat →
      (encLoop fuel s).All (fun _ _ => True) (Raised s) := fun hrun hholes hc => by
    rw [encLoop_end hholes hc]
    exact (encEndStep_all hrun).mono (fun _ _ _ => trivial) fun _ _ => id
  induction fuel generalizing s with
  | zero => exact hend hrun hholes (by omega)
  | succ fuel ih =>
    rcases Nat.lt_or_ge s.enc.cur.toNat s.op.len.toNat with hc | hc
    · rw [encLoop_element hholes hc]
      refine (encodeStepOp_all hrun hc).bind fun _ t ht => ?_
      have hplat : t.plat = s.plat := congrArg (·.plat) ht.eq
      have hcur := ht.cur
      have hop := ht.op
      exact (ih ht.run (hplat ▸ hholes) (by rw [hop]; omega)).mono (fun _ _ => id) fun _ _ => ht.toStepFrame.raised
    · exact hend hrun hholes hc

/-- An error of COMPRESS_BODY leaves DONE as it was. -/
theorem compressBodyOp_all (hholes : s.plat.holes = []) :
    (compressBodyOp s).All (fun _ _ => True) fun _ t => t.regs.done = s.regs.done := by
  have hdone : ∀ {u t : State}, StepFrame u t → t.regs.done = u.regs.done := fun h => congrArg (·.regs.done) h.eq
  refine ((encStartStep_all s).mono (fun _ _ => id) fun _ _ he => hdone he.2).bind fun _ t ⟨hframe, hrun⟩ => ?_
  have hplat : t.plat = s.plat := congrArg (·.plat) hframe.eq
  exact (encLoop_all (s := t.setPhase .loop) hrun (hplat ▸ hholes) (Nat.sub_le _ _)).mono (fun _ _ => id)
    fun _ _ he => (hdone he.2).trans (hdone hframe :)

/-- Where COMPRESS_BODY sets DONE it raised nothing. -/
theorem compressBodyOp_of_done (hholes : s.plat.holes = []) (hclear : s.regs.done = false) (hstep : exec .compressBody s = .next t)
    (hdone : t.regs.done = true) : compressBodyOp s = .ok () t := by
  have hall := compressBodyOp_all hholes
  rw [exec_compressBody, settle_eq_next] at hstep
  rcases hstep with ⟨⟨⟩, hok⟩ | ⟨e, u, hraise, rfl⟩ | ⟨u, hraise, rfl⟩
  · exact hok
  · rw [hraise] at hall
    rw [enterError_regs, show u.regs.done = false from hall.trans hclear] at hdone
    cases hdone
  · rw [hraise] at hall
    rw [recordError_regs, show u.regs.done = false from hall.trans hclear] at hdone
    cases hdone

/-! ## The header and the first element (R110, R120, R170, R171) -/

/-- The start step that completes had room for the header. -/
theorem cap_of_encStartStep (hok : encStartStep s = .ok () t) : 8 ≤ s.op.cap.toNat := by
  have hall := encStartStep_all s
  rw [hok] at hall
  obtain ⟨hframe, -, -, -, hge, hle, -⟩ := hall
  rw [show t.op.cap = s.op.cap from congrArg (·.op.cap) hframe.eq] at hle
  exact hge.trans hle

theorem encStarted_closed (s : State) (k : SubStream) : (encStarted s).enc.openOf k = false := by cases k <;> rfl

/-- The header that the start step has written is still there at the end. -/
theorem Keeps.header (hz : Keeps z ((encStarted s).setPhase .loop)) (h : CanCompress s) (hcap : 8 ≤ s.op.cap.toNat) :
    8 ≤ z.enc.wc.toNat ∧ wordAt z s.op.dst.toNat = s.op.len ∧ wordAt z (s.op.dst.toNat + 4) = s.op.d := by
  have ⟨hwf, hbuf, _⟩ := h
  obtain ⟨hlen, hdict⟩ := headerWritten_holdsWords s.op.len s.op.d (s := paramsDerived s.op.d s) hwf (header_fits hbuf hcap)
  have hkept : ∀ b < s.op.dst.toNat + 8, z.mem.read b = (encStarted s).mem.read b := fun b hb =>
    hz.stored b hb fun k ho => by
      rw [State.setPhase_enc, encStarted_closed] at ho
      cases ho
  exact ⟨hz.wc_le, wordAt_of_holdsWord fun j hj => (hkept _ (by omega)).trans (hlen j hj),
    wordAt_of_holdsWord fun j hj => (hkept _ (by omega)).trans (hdict j hj)⟩

/-- DECOMPRESS reads that header: it starts, with the encoder's parameters. -/
theorem Keeps.canDecompress (hz : Keeps z ((encStarted s).setPhase .loop)) (h : CanCompress s) (hcap : 8 ≤ s.op.cap.toNat)
    (hu : ReadsStream z s.op.dst.toNat u) (hdevices : u.plat.devices = []) (hroom : s.op.len.toNat ≤ u.op.cap.toNat) :
    CanDecompress u ∧ wordAt u u.op.src.toNat = s.op.len ∧ wordAt u (u.op.src.toNat + 4) = s.op.d := by
  have ⟨_, _, hlegal, _⟩ := h
  obtain ⟨hwc, hlen, hdict⟩ := hz.header h hcap
  have hulen : wordAt u u.op.src.toNat = s.op.len := (wordAt_congr fun j hj => hu.stream j (by omega)).trans hlen
  have hudict : wordAt u (u.op.src.toNat + 4) = s.op.d :=
    (wordAt_congr fun j hj => by rw [Nat.add_assoc, Nat.add_assoc]; exact hu.stream _ (by omega)).trans hdict
  exact ⟨⟨hu.buffers, hu.holes, hdevices, hu.len ▸ hwc, hudict ▸ hlegal, hulen ▸ hroom⟩, hulen, hudict⟩

/-- Before the first element no word is open, and none is left. -/
theorem follows_of_encStarted (k : SubStream) (rest : Word) : Follows z ((encStarted s).setPhase .loop) k 0 rest where
  closed _ := rfl
  opened ho := by
    rw [State.setPhase_enc, encStarted_closed] at ho
    cases ho

/-- After the two start steps the decoder is in step with the encoder. -/
theorem Keeps.started_inStep (hz : Keeps z ((encStarted s).setPhase .loop)) (h : CanCompress s) (hcap : 8 ≤ s.op.cap.toNat)
    (hu : ReadsStream z s.op.dst.toNat u) (hwf : u.mem.wf) (hdevices : u.plat.devices = [])
    (hroom : s.op.len.toNat ≤ u.op.cap.toNat) : InStep z ((encStarted s).setPhase .loop) ((decStarted u).setPhase .loop) := by
  obtain ⟨hcan, hlen, hdict⟩ := hz.canDecompress h hcap hu hdevices hroom
  have hall := decStartStep_all u
  rw [hcan.decStartStep_ok] at hall
  have hrun : DecRun ((decStarted u).setPhase .loop) := hall.2
  exact
    { reads := ⟨hu.buffers, hu.holes, hu.len, hu.stream⟩
      run := hrun
      wf := hwf
      n := hlen
      ls := congrArg (fun d : Word => Nat.log2 d.toNat) hdict
      o := rfl
      out := fun i hi => absurd hi (Nat.not_lt_zero i)
      rc := rfl
      words := fun k => by cases k <;> exact follows_of_encStarted _ _ }

end

/-- Settles O57: the encoder's final memory holds all it has put out, and DECOMPRESS of it goes in step with COMPRESS. -/
theorem decompressUndoesCompress : Obligations.DecompressUndoesCompress := by
  intro s t u h hclear hstep hdone hwf hbuf hholes hdevices hlen hroom hstream
  have ⟨_, hbufs, _, hnoholes, _⟩ := h
  have hok := compressBodyOp_of_done hnoholes hclear hstep hdone
  rw [compressBodyOp, Res.bind_eq_ok] at hok
  obtain ⟨⟨⟩, x, hstart, hloop⟩ := hok
  have hcap := cap_of_encStartStep hstart
  obtain rfl : encStarted s = x := by
    rw [encStartStep_ok h hcap] at hstart
    cases hstart
    rfl
  have hrun : EncRun ((encStarted s).setPhase .loop) := encStarted_encRun h hcap
  have hcan := canFlush_of_encRun hrun (encStarted_wf h hcap) hnoholes
  have hfit : AccsFit ((encStarted s).setPhase .loop).enc := fun k ho => by
    rw [State.setPhase_enc, encStarted_closed] at ho
    cases ho
  obtain ⟨z, rfl, hkeeps, hdecodes⟩ := encLoop_decodesInput hrun hcan hfit (Nat.sub_le _ _) hloop
  have hreads : ReadsStream z s.op.dst.toNat u := ⟨hbuf, hholes, hlen, hstream⟩
  obtain ⟨hcanu, hn, -⟩ := hkeeps.canDecompress h hcap hreads hdevices hroom
  obtain ⟨w, hloopw, hw, hout⟩ := hdecodes _ (hkeeps.started_inStep h hcap hreads hwf hdevices hroom)
  rw [show ((decStarted u).setPhase .loop).op.n = s.op.len from hn] at hloopw
  refine ⟨completeOp s.op.len w, ?_, rfl, ?_, rfl, fun i hi => (hout i hi).trans ?_⟩
  · rw [exec_decompressBody, hcanu.decompressBodyOp_eq, hn]
    exact congrArg settle hloopw
  · exact congrArg (·.err) hw.regs
  · have hall := encStartStep_all s
    rw [hstart] at hall
    exact hall.1.read_input hbufs hi

end Sys2Proof.Machine
end

section
/-! The register port with `rst` low (R200 to R209): what each CTRL write, the write of STATUS, a configuration write and a read of
each register come to. -/

namespace Sys2Proof.Machine

open Sys2Proof Sys2Proof.Safety

section

variable {s : State}

/-! ## CTRL writes (R200) -/

theorem portWrite_of_low (hrst : s.rst = false) (f : State → State) : portWrite s f = f s := by
  rw [portWrite, hrst]
  rfl

/-- `s` with `ie` written to IE, which every CTRL write does (R200). -/
def withIe (ie : Bool) (s : State) : State := s.setRegs { s.regs with ie := ie }

@[simp] theorem withIe_fsm (ie : Bool) (s : State) : (withIe ie s).fsm = s.fsm := rfl

/-- IE is written first, then the command is performed (R200). -/
theorem ctrlWrite_of_low (hrst : s.rst = false) (ie : Bool) (f : State → State) : ctrlWrite ie f s = f (withIe ie s) :=
  portWrite_of_low hrst _

theorem whenIdle_of_idle (hidle : s.fsm = .idle) (f : State → State) : whenIdle f s = f s := by
  rw [whenIdle, State.busy, hidle]
  rfl

theorem whenIdle_of_busy (hbusy : s.fsm ≠ .idle) (f : State → State) : whenIdle f s = s :=
  if_pos (bne_iff_ne.2 hbusy)

theorem abortCommand_of_idle (hidle : s.fsm = .idle) : abortCommand s = s := by
  rw [abortCommand, State.busy, hidle]
  rfl

theorem abortCommand_of_busy (hbusy : s.fsm ≠ .idle) : abortCommand s = s.setAbortReq true :=
  if_pos (bne_iff_ne.2 hbusy)

theorem ctrlWrite_whenIdle_of_idle (hrst : s.rst = false) (hidle : s.fsm = .idle) (ie : Bool) (f : State → State) :
    ctrlWrite ie (whenIdle f) s = f (withIe ie s) := by
  rw [ctrlWrite_of_low hrst, whenIdle_of_idle (withIe_fsm ie s ▸ hidle)]

theorem ctrlWrite_whenIdle_of_busy (hrst : s.rst = false) (hbusy : s.fsm ≠ .idle) (ie : Bool) (f : State → State) :
    ctrlWrite ie (whenIdle f) s = withIe ie s := by
  rw [ctrlWrite_of_low hrst, whenIdle_of_busy (withIe_fsm ie s ▸ hbusy)]

/-- IllegalCommand is raised before any operation, so error entry leaves memory as it is (R206, R235). -/
theorem reservedCommand_of_idle (hidle : s.fsm = .idle) :
    reservedCommand s = { s with
      regs := { s.regs with done := false, err := true, errcode := .illegalCommand, resultLen := 0, hdrUlen := 0, hdrDict := 0 }
      abortReq := false } := by
  rw [reservedCommand, enterError_eq, hidle]
  rfl

end

/-! ## The six commands (R202 to R206) -/

/-- Settles O1: an idle block writes IE and performs ACCEPT. -/
theorem startCommandsAreAcceptedWhenIdle : Obligations.StartCommandsAreAcceptedWhenIdle := by
  intro ie s hrst hidle
  refine ⟨?compress, ?decompress, fun k => ?accept⟩
  case compress => exact congrArg Host.Outcome.next (ctrlWrite_whenIdle_of_idle hrst hidle ie (acceptOp .enc))
  case decompress => exact congrArg Host.Outcome.next (ctrlWrite_whenIdle_of_idle hrst hidle ie (acceptOp .dec))
  case accept => cases k <;> rfl

/-- Settles O2: IE by every CTRL write; of the commands only ABORT is performed while BUSY, and it has nothing to do when idle. -/
theorem commandsWhileBusyAreIgnoredButAbort : Obligations.CommandsWhileBusyAreIgnoredButAbort := by
  intro ie l2 l3 s hrst
  have habort : ctrlWrite ie abortCommand s = abortCommand (withIe ie s) := ctrlWrite_of_low hrst ie abortCommand
  refine ⟨congrArg Host.Outcome.next (ctrlWrite_of_low hrst ie fun s => s), fun hbusy => ?busy, fun hidle => ?idle⟩
  case busy =>
    have hignored (f : State → State) :
        (.next (ctrlWrite ie (whenIdle f) s) : Host.Outcome State Fault Refusal) = .next (withIe ie s) :=
      congrArg Host.Outcome.next (ctrlWrite_whenIdle_of_busy hrst hbusy ie f)
    have haborts := habort.trans (abortCommand_of_busy (withIe_fsm ie s ▸ hbusy))
    exact ⟨hignored _, hignored _, hignored _, hignored _, congrArg Host.Outcome.next haborts⟩
  case idle => exact congrArg Host.Outcome.next (habort.trans (abortCommand_of_idle (withIe_fsm ie s ▸ hidle)))

/-- Settles O3: both rows of reserved codes perform the one RESERVED_CMD, after IE is written. -/
theorem reservedCommandsRaiseIllegalCommand : Obligations.ReservedCommandsRaiseIllegalCommand := by
  intro ie l2 l3 s hrst hidle t
  have hcommand : ctrlWrite ie (whenIdle reservedCommand) s = t :=
    (ctrlWrite_whenIdle_of_idle hrst hidle ie reservedCommand).trans (reservedCommand_of_idle (withIe_fsm ie s ▸ hidle))
  exact ⟨congrArg Host.Outcome.next hcommand, congrArg Host.Outcome.next hcommand⟩

/-! ## STATUS (R207) -/

theorem clearFlags_eq (d e : Bool) (r : HostRegs) :
    clearFlags d e r = { r with done := if d then false else r.done, err := if e then false else r.err } := by
  cases d <;> cases e <;> simp [clearFlags]

/-- Settles O4: the write clears the flags and is otherwise the identity on the registers. -/
theorem statusWriteClearsWhereOne : Obligations.StatusWriteClearsWhereOne := by
  intro d e s hrst
  exact congrArg Host.Outcome.next
    ((portWrite_of_low hrst _).trans (congrArg s.setRegs (clearFlags_eq d e s.regs)))

/-! ## Configuration writes (R208) -/

/-- The five registers that a configuration write stores in. -/
def IsConfig (r : Reg) : Prop := r = .dictLen ∨ r = .srcAddr ∨ r = .srcLen ∨ r = .dstAddr ∨ r = .dstCap

theorem regValue_writeConfig {r : Reg} (h : IsConfig r) (w : Word) (s : State) (q : Reg) :
    regValue (s.setRegs (writeConfig r w s.regs)) q = if q = r then w else regValue s q := by
  rcases h with rfl | rfl | rfl | rfl | rfl <;> cases q <;> rfl

theorem writeConfig_of_not_isConfig {r : Reg} (h : ¬IsConfig r) (w : Word) (g : HostRegs) : writeConfig r w g = g := by
  cases r with
  | dictLen | srcAddr | srcLen | dstAddr | dstCap => exact absurd (by simp [IsConfig]) h
  | _ => rfl

/-- Settles O5: the registers after the write, read register by register; a write that is ignored stores nothing. -/
theorem configurationWritesStoreWhenIdle : Obligations.ConfigurationWritesStoreWhenIdle := by
  intro r v s hrst _
  refine ⟨fun hidle hr => ⟨writeConfig r v s.regs, ?stored, ?same, fun q hq => ?other⟩, fun hignored => ?ignored⟩
  case stored => rw [exec_configWrite, portWrite_of_low hrst, whenIdle_of_idle hidle]; rfl
  case same => exact (regValue_writeConfig hr v s r).trans (if_pos rfl)
  case other => exact (regValue_writeConfig hr v s q).trans (if_neg hq)
  case ignored =>
    rcases hignored with hbusy | hr
    · rw [exec_configWrite, portWrite_of_low hrst, whenIdle_of_busy hbusy]
    · rw [exec_configWrite, portWrite_whenIdle_of_fixed]
      rw [writeConfig_of_not_isConfig hr]
      rfl

/-! ## Reads (R209) -/

theorem exec_regRead_of_low {s : State} (hrst : s.rst = false) {r : Reg} {v : Word} (hv : regValue s r = v) :
    exec (.regRead r) s = .next { s with rdata := v } := by
  have hread : hostRead s r = v := by simp [hostRead, hrst, hv]
  rw [exec_regRead, hread]
  rfl

theorem ctrlReadWord_eq (s : State) : ctrlReadWord s = if s.regs.ie then 0x100 else 0 := by
  unfold ctrlReadWord
  cases s.regs.ie <;> rfl

theorem statusWord_eq (s : State) :
    statusWord s =
      BitVec.ofNat 32 ((if s.fsm = .idle then 0 else 1) + (if s.regs.done then 2 else 0) + (if s.regs.err then 4 else 0)) := by
  unfold statusWord State.busy
  cases s.fsm <;> cases s.regs.done <;> cases s.regs.err <;> rfl

/-- Settles O6: the flags and the error's number as words; every other register reads as the value it holds. -/
theorem readsReturnTheRegisterMap : Obligations.ReadsReturnTheRegisterMap := by
  intro s hrst
  have hread {r : Reg} {v : Word} : regValue s r = v → exec (.regRead r) s = .next { s with rdata := v } :=
    exec_regRead_of_low hrst
  refine ⟨hread (ctrlReadWord_eq s), hread (statusWord_eq s), hread ?errcode, hread rfl, hread rfl, hread rfl, hread rfl,
    hread rfl, hread rfl, hread rfl, hread rfl, hread rfl⟩
  case errcode =>
    change errcodeWord s.regs.errcode = _
    cases s.regs.errcode <;> rfl

end Sys2Proof.Machine
end

section
/-! The sequencer (R210, R211): which operation STEP performs, and that the steps, one after the other, perform the bodies of COMPRESS
and DECOMPRESS (R148, R170). -/

namespace Sys2Proof.Machine

open Sys2Proof Sys2Proof.Safety

/-! ## STEP and COMPLETE -/

theorem loopStepOp_enc_end {s t : State} (hfsm : s.fsm = .enc) (hp : prefetch s = .ok () t) (hc : t.op.len.toNat ≤ t.enc.cur.toNat) :
    loopStepOp s = encEndStep t := by
  simp only [loopStepOp, hfsm, encLoopStep, hp, Res.bind_ok, if_neg (Nat.not_lt.2 hc)]

/-- Settles O11: with no hole in the input no BusError comes early, so the step is the operation that R211 names. -/
theorem stepPerformsTheRunningOperation : Obligations.StepPerformsTheRunningOperation := by
  intro s
  refine ⟨exec_step_of_idle, fun hbusy habort => ?abort, fun habort hphase hhole => ?loop⟩
  case abort =>
    rw [exec_step_of_busy hbusy, stepOp, if_pos habort]
    rfl
  case loop =>
    have hp := prefetch_of_no_hole hhole
    have hstep (hbusy : s.fsm ≠ .idle) : exec .step s = settle (loopStepOp s) := by
      rw [exec_step_of_busy hbusy, stepOp_loop habort hphase]
    refine ⟨fun hfsm hc => ?_, fun hfsm hc t hfinish ht => ?_, fun hfsm hr => ?_, fun hfsm hr => ?_⟩
    · rw [hstep (by simp [hfsm]), loopStepOp_enc_element hfsm hp hc, exec_encodeStep]
    · rw [exec_finish] at hfinish
      obtain ⟨⟨⟩, hok⟩ := eq_ok_of_settle_of_busy hfinish (by simp [ht])
      rw [hstep (by simp [hfsm]), loopStepOp_enc_end hfsm hp hc, encEndStep, hok]
      rfl
    · rw [hstep (by simp [hfsm]), loopStepOp_dec_element hfsm hp hr, exec_decodeStep]
    · rw [hstep (by simp [hfsm]), loopStepOp_dec_end hfsm hp hr]
      rfl

/-- Settles O12: with DONE set, R36's formula is IE. -/
theorem completeReportsTheResult : Obligations.CompleteReportsTheResult := by
  refine fun r s => ⟨rfl, fun _ ht => ?_⟩
  cases ht
  simp [irq_iff]

/-! ## A rule performed step by step -/

/-- What the rule `x` ends in, run by itself, the machine reaches from `s` in at most `k` steps. -/
def RunsTo (k : Nat) (s : State) (x : Res Unit) : Prop :=
  ∀ t, settle x = .next t → ∃ j, j ≤ k ∧ Host.Core.run core j s = .next t

section

variable {s t : State} {j k : Nat} {x : Res Unit}

theorem run_succ (h : step s = .next t) (k : Nat) : Host.Core.run core (k + 1) s = Host.Core.run core k t := by
  simp only [Host.Core.run, show core.step s = .next t from h]

theorem RunsTo.mono (h : RunsTo j s x) (hjk : j ≤ k) : RunsTo k s x := fun t ht => by
  obtain ⟨i, hi, hrun⟩ := h t ht
  exact ⟨i, hi.trans hjk, hrun⟩

/-- A rule that is one step. -/
theorem RunsTo.step (h : step s = settle x) : RunsTo 1 s x := fun _ ht =>
  ⟨1, le_rfl, run_succ (h.trans ht) 0⟩

/-- One step, and after it, unless it raised, the rest of the rule. -/
theorem RunsTo.bind {f : Unit → State → Res Unit} (h : Machine.step s = settle x)
    (hnext : ∀ u, x = .ok () u → RunsTo k u (f () u)) : RunsTo (k + 1) s (x.bind f) := by
  have hended (hx : settle (x.bind f) = settle x) : RunsTo (k + 1) s (x.bind f) :=
    (RunsTo.step (h.trans hx.symm)).mono (Nat.le_add_left 1 k)
  cases x with
  | ok a u =>
    intro t ht
    obtain ⟨j, hj, hrun⟩ := hnext u rfl t ht
    exact ⟨j + 1, Nat.succ_le_succ hj, (run_succ h j).trans hrun⟩
  | _ => exact hended rfl

/-! ## The block left to itself -/

/-- No event waits and no abort is pending: what the machine does next is the step of `phase`. -/
structure Undisturbed (phase : Phase) (s : State) : Prop where
  busy : s.fsm ≠ .idle
  phase : s.phase = phase
  abortReq : s.abortReq = false
  inbox : s.inbox = []

theorem Undisturbed.step_loop (h : Undisturbed .loop s) : step s = settle (loopStepOp s) := by
  rw [step_of_inbox_nil h.inbox, exec_step_of_busy h.busy, stepOp_loop h.abortReq h.phase]

theorem Undisturbed.step_start (h : Undisturbed .start s) :
    step s = settle ((startStepOp s).bind fun _ t => .ok () (t.setPhase .loop)) := by
  rw [step_of_inbox_nil h.inbox, exec_step_of_busy h.busy, stepOp_start h.abortReq h.phase]

/-- The rules of a step touch none of it (R211). -/
theorem Undisturbed.of_frame {p : Phase} (h : Undisturbed p s) (ht : StepFrame s t) : Undisturbed p t where
  busy := ht.fsm ▸ h.busy
  phase := ht.phase.trans h.phase
  abortReq := (congrArg (·.abortReq) ht.eq).trans h.abortReq
  inbox := (congrArg (·.inbox) ht.eq).trans h.inbox

theorem Undisturbed.started (h : Undisturbed .start s) (ht : StepFrame s t) : Undisturbed .loop (t.setPhase .loop) :=
  have ht := h.of_frame ht
  ⟨ht.busy, rfl, ht.abortReq, ht.inbox⟩

/-! ## The loop of a body (R148, R170) -/

/-- `loop` is the element steps and the end step of a body whose states meet `run` and have `left` elements at most to go. -/
structure IsBodyLoop (run : State → Prop) (left : State → Nat) (loop : Nat → State → Res Unit) : Prop where
  element : ∀ {s}, run s → 0 < left s → ∀ fuel, loop (fuel + 1) s = (loopStepOp s).bind fun _ t => loop fuel t
  last : ∀ {s}, run s → left s = 0 → ∀ fuel, loop fuel s = loopStepOp s
  keeps : ∀ {s}, run s → 0 < left s → (loopStepOp s).All (fun _ t => StepFrame s t ∧ run t ∧ left t < left s) (Raised s)

/-- The steps perform the loop: by induction on its fuel, which never runs out before the elements do. -/
theorem IsBodyLoop.runsTo {run : State → Prop} {left : State → Nat} {loop : Nat → State → Res Unit} (h : IsBodyLoop run left loop)
    {fuel : Nat} (hfuel : left s ≤ fuel) (hrun : run s) (hs : Undisturbed .loop s) : RunsTo (left s + 1) s (loop fuel s) := by
  induction fuel generalizing s with
  | zero =>
    have hleft : left s = 0 := Nat.le_zero.1 hfuel
    rw [h.last hrun hleft, hleft]
    exact .step hs.step_loop
  | succ fuel ih =>
    rcases Nat.eq_zero_or_pos (left s) with hleft | hleft
    · rw [h.last hrun hleft, hleft]
      exact .step hs.step_loop
    · rw [h.element hrun hleft]
      refine .bind hs.step_loop fun t ht => ?_
      have hkeeps := h.keeps hrun hleft
      rw [ht] at hkeeps
      obtain ⟨hframe, hrun, hless⟩ := hkeeps
      exact (ih (by omega) hrun (hs.of_frame hframe)).mono hless

/-- The steps perform a body: its start step, and the loop from the state that leaves. -/
theorem IsBodyLoop.body_runsTo {run : State → Prop} {left : State → Nat} {loop : Nat → State → Res Unit}
    (h : IsBodyLoop run left loop) (hs : Undisturbed .start s)
    (hstart : (startStepOp s).All (fun _ t => StepFrame s t ∧ run (t.setPhase .loop)) (Raised s))
    {fuel : State → Nat} (hfuel : ∀ t, run t → left t ≤ fuel t) (hk : ∀ t, StepFrame s t → left (t.setPhase .loop) ≤ k) :
    RunsTo (k + 2) s ((startStepOp s).bind fun _ t => loop (fuel (t.setPhase .loop)) (t.setPhase .loop)) := by
  have hbody : ((startStepOp s).bind fun _ t => loop (fuel (t.setPhase .loop)) (t.setPhase .loop)) =
      ((startStepOp s).bind fun _ t => .ok () (t.setPhase .loop)).bind fun _ t => loop (fuel t) t :=
    (Res.bind_assoc (startStepOp s) (fun _ t => .ok () (t.setPhase .loop)) fun _ t => loop (fuel t) t).symm
  rw [hbody]
  refine .bind hs.step_start fun u hu => ?_
  obtain ⟨⟨⟩, t, ht, hu⟩ := Res.bind_eq_ok.1 hu
  cases hu
  rw [ht] at hstart
  obtain ⟨hframe, hrun⟩ := hstart
  exact (h.runsTo (hfuel _ hrun) hrun (hs.started hframe)).mono (Nat.succ_le_succ (hk t hframe))

/-! ## The two bodies -/

/-- Rules that agree whatever the count of free values is agree after the early BusError (R61). -/
theorem prefetch_bind_congr {f g : Unit → State → Res Unit} (h : ∀ n, f () (s.setFresh n) = g () (s.setFresh n)) :
    (prefetch s).bind f = (prefetch s).bind g := by
  have hall := prefetch_all s
  cases hp : prefetch s with
  | ok a t =>
    rw [hp] at hall
    obtain ⟨n, -, rfl⟩ := hall
    exact h n
  | _ => rfl

/-- What follows the early BusError in a step's rule starts in the frame of that step. -/
theorem prefetch_bind_all {f : Unit → State → Res Unit} {Q : State → Prop}
    (h : ∀ n, DatapathOnly s (s.setFresh n) → (f () (s.setFresh n)).All (fun _ t => Q t) (Raised (s.setFresh n))) :
    ((prefetch s).bind f).All (fun _ t => Q t) (Raised s) := by
  refine (prefetch_frame s).bind fun _ t ⟨n, hn, ht⟩ => ?_
  subst ht
  have hf := DatapathOnly.setFresh s hn
  exact (h n hf).mono (fun _ _ => id) fun _ _ => hf.raised

theorem encLoopStep_element_all (hrun : EncRun s) (hc : s.enc.cur.toNat < s.op.len.toNat) :
    (encLoopStep s).All (fun _ t => Encoded s t) (Raised s) :=
  prefetch_bind_all fun n hn => by
    rw [if_pos (show (s.setFresh n).enc.cur.toNat < (s.setFresh n).op.len.toNat from hc)]
    exact (encodeStepOp_all (s := s.setFresh n) hrun hc).mono (fun _ _ ht => ⟨hn.trans ht.toDatapathOnly, ht.run, ht.cur⟩)
      fun _ _ => id

theorem decLoopStep_element_all (hrun : DecRun s) (hr : 0 < s.dec.rem.toNat) :
    (decLoopStep s).All (fun _ t => DecodedElement s t) (Raised s) :=
  prefetch_bind_all fun n hn => by
    rw [if_pos (show 0 < (s.setFresh n).dec.rem.toNat from hr)]
    exact (decodeStepOp_all (s := s.setFresh n) hrun hr).mono (fun _ _ ht => ⟨hn.trans ht.toDatapathOnly, ht.run, ht.rem⟩)
      fun _ _ => id

theorem encLoop_last (hc : s.op.len.toNat ≤ s.enc.cur.toNat) (fuel : Nat) : encLoop fuel s = encLoopStep s := by
  have hend := Nat.not_lt.2 hc
  cases fuel with
  | zero =>
    exact prefetch_bind_congr fun n => (if_neg (show ¬(s.setFresh n).enc.cur.toNat < (s.setFresh n).op.len.toNat from hend)).symm
  | succ fuel => exact if_neg hend

theorem decLoop_last (hr : s.dec.rem.toNat = 0) (fuel : Nat) : decLoop fuel s = decLoopStep s := by
  have hend : ¬0 < s.dec.rem.toNat := by omega
  cases fuel with
  | zero => exact prefetch_bind_congr fun n => (if_neg (show ¬0 < (s.setFresh n).dec.rem.toNat from hend)).symm
  | succ fuel => exact if_neg hend

theorem loopStepOp_enc (hfsm : s.fsm = .enc) : loopStepOp s = encLoopStep s := by rw [loopStepOp, hfsm]

theorem loopStepOp_dec (hfsm : s.fsm = .dec) : loopStepOp s = decLoopStep s := by rw [loopStepOp, hfsm]

/-- Every element step of COMPRESS takes at least one byte of the input (R149). -/
theorem encLoop_isBodyLoop :
    IsBodyLoop (fun s => s.fsm = .enc ∧ EncRun s) (fun s => s.op.len.toNat - s.enc.cur.toNat) encLoop where
  element := fun {s} ⟨hfsm, _⟩ hleft fuel => by
    rw [loopStepOp_enc hfsm, encLoop, if_pos (by omega)]
  last := fun {s} ⟨hfsm, _⟩ hleft fuel => by
    rw [loopStepOp_enc hfsm, encLoop_last (by omega)]
  keeps := fun {s} ⟨hfsm, hrun⟩ hleft => by
    rw [loopStepOp_enc hfsm]
    refine (encLoopStep_element_all hrun (by omega)).mono (fun _ t ht => ?_) fun _ _ => id
    have hcur := ht.cur
    exact ⟨ht.toStepFrame, ⟨ht.fsm.trans hfsm, ht.run⟩, by rw [ht.op]; omega⟩

/-- Every element step of DECOMPRESS puts out at least one byte (R183). -/
theorem decLoop_isBodyLoop : IsBodyLoop (fun s => s.fsm = .dec ∧ DecRun s) (fun s => s.dec.rem.toNat) decLoop where
  element := fun {s} ⟨hfsm, _⟩ hleft fuel => by rw [loopStepOp_dec hfsm, decLoop, if_pos hleft]
  last := fun {s} ⟨hfsm, _⟩ hleft fuel => by rw [loopStepOp_dec hfsm, decLoop_last hleft]
  keeps := fun {s} ⟨hfsm, hrun⟩ hleft => by
    rw [loopStepOp_dec hfsm]
    exact (decLoopStep_element_all hrun hleft).mono
      (fun _ t ht => ⟨ht.toStepFrame, ⟨ht.fsm.trans hfsm, ht.run⟩, ht.rem⟩) fun _ _ => id

theorem compressBodyOp_runsTo (hs : Undisturbed .start s) (hfsm : s.fsm = .enc) :
    RunsTo (s.op.len.toNat + 2) s (compressBodyOp s) := by
  have hstart : startStepOp s = encStartStep s := by rw [startStepOp, hfsm]
  rw [compressBodyOp, ← hstart]
  refine encLoop_isBodyLoop.body_runsTo hs ?_ (fuel := fun t => t.op.len.toNat) (fun _ _ => Nat.sub_le _ _)
    fun t ht => (Nat.sub_le _ _).trans_eq (congrArg BitVec.toNat ht.len)
  rw [hstart]
  exact (encStartStep_all s).mono (fun _ t ⟨ht, hrun⟩ => ⟨ht, ht.fsm.trans hfsm, hrun⟩) fun _ _ => id

theorem decompressBodyOp_runsTo (hs : Undisturbed .start s) (hfsm : s.fsm = .dec) :
    RunsTo (2 ^ 32 + 1) s (decompressBodyOp s) := by
  have hstart : startStepOp s = decStartStep s := by rw [startStepOp, hfsm]
  rw [decompressBodyOp, ← hstart]
  refine decLoop_isBodyLoop.body_runsTo (k := 2 ^ 32 - 1) hs ?_ (fuel := fun t => t.op.n.toNat) (fun t ⟨_, hrun⟩ => ?_)
    fun t _ => Nat.le_sub_one_of_lt t.dec.rem.isLt
  · rw [hstart]
    exact (decStartStep_all s).mono (fun _ t ⟨ht, hrun⟩ => ⟨ht, ht.fsm.trans hfsm, hrun⟩) fun _ _ => id
  · obtain ⟨-, -, -, -, -, hsum, -⟩ := hrun
    omega

end

/-- Settles O56: each body is its start step and a loop whose every element is one step. -/
theorem stepsPerformTheBodies : Obligations.StepsPerformTheBodies := by
  intro s t hphase habort hinbox
  refine ⟨fun hfsm => ?_, fun hfsm => ?_⟩
  · exact compressBodyOp_runsTo ⟨by simp [hfsm], hphase, habort, hinbox⟩ hfsm t
  · exact decompressBodyOp_runsTo ⟨by simp [hfsm], hphase, habort, hinbox⟩ hfsm t

end Sys2Proof.Machine
end

section
/-! Error entry run by itself (R220, R235): the registers it writes, and the memory it leaves. -/

namespace Sys2Proof.Machine

open Sys2Proof Sys2Proof.Safety

theorem exec_errorEntry (c : ErrorCode) (s : State) : exec (.errorEntry c) s = .next (enterError c s) := rfl

/-- After a code that does not leave the output region unspecified, memory is as it was. -/
theorem enterError_mem {c : ErrorCode} {s : State} (h : spoilsOutput c s.phase = false) : (enterError c s).mem = s.mem := by
  simp [enterError_eq, h]

/-- Settles O13: the registers are `recordError`'s, and memory is touched only where `spoilsOutput` says so. -/
theorem errorEntryRecordsTheCode : Obligations.ErrorEntryRecordsTheCode := by
  intro c s _
  refine ⟨(enterError c s).mem, (enterError c s).fresh, ?registers, fun b hb => enterError_read c s hb,
    fun hc => enterError_mem ?quiet⟩
  case registers => rw [exec_errorEntry, enterError_eq]
  case quiet => rcases hc with rfl | rfl | rfl | rfl | rfl | rfl | ⟨rfl, hphase⟩ <;> simp [spoilsOutput, *]

end Sys2Proof.Machine
end

section
/-! The part of a start step before its first write (R148, R170, D31): however it ends, memory is as it was. -/

namespace Sys2Proof.Machine

open Sys2Proof Sys2Proof.Safety

/-! ## Rules that write nothing -/

/-- What a rule leaves alone that writes no memory: memory, and what decides whether error entry and the next write reach it. -/
structure NothingWritten (s t : State) : Prop where
  mem : t.mem = s.mem
  phase : t.phase = s.phase
  plat : t.plat = s.plat
  dst : t.op.dst = s.op.dst

theorem NothingWritten.refl (s : State) : NothingWritten s s := ⟨rfl, rfl, rfl, rfl⟩

theorem NothingWritten.trans {s t u : State} (h : NothingWritten s t) (k : NothingWritten t u) : NothingWritten s u :=
  ⟨k.mem.trans h.mem, k.phase.trans h.phase, k.plat.trans h.plat, k.dst.trans h.dst⟩

/-- However `x`, run in `s`, ends, it has written nothing, and an error of it that a start step enters makes the output region
unspecified only if it is BusError. -/
def Res.WritesNothing {α : Type} (s : State) (x : Res α) : Prop :=
  match x with
  | .ok _ t => NothingWritten s t
  | .raise e t => NothingWritten s t ∧ (e = .busError ∨ spoilsOutput e .start = false)
  | .unwritten t => NothingWritten s t
  | .fault _ | .refuse _ => True

theorem Res.WritesNothing.trans {α : Type} {x : Res α} {s t : State} (h : NothingWritten s t) (hx : x.WritesNothing t) :
    x.WritesNothing s := by
  cases x with
  | ok a u => exact h.trans hx
  | raise e u => exact ⟨h.trans hx.1, hx.2⟩
  | unwritten u => exact h.trans hx
  | fault g => trivial
  | refuse r => trivial

theorem Res.WritesNothing.bind {α β : Type} {x : Res α} {f : α → State → Res β} {s : State} (hx : x.WritesNothing s)
    (hf : ∀ a t, (f a t).WritesNothing t) : (x.bind f).WritesNothing s := by
  cases x with
  | ok a t => exact (hf a t).trans hx
  | raise e t => exact hx
  | unwritten t => exact hx
  | fault g => trivial
  | refuse r => trivial

/-- A start step whose first part writes nothing leaves memory if what follows it does. -/
theorem Res.WritesNothing.mem_of_settle {α β : Type} {x : Res α} {f : α → State → Res β} {s t : State} (hx : x.WritesNothing s)
    (hphase : s.phase = .start) (hf : ∀ a u, NothingWritten s u → settle (f a u) = .next t → t.mem = u.mem)
    (ht : settle (x.beforeWrites.bind f) = .next t) : t.mem = s.mem := by
  cases x with
  | ok a u => exact (hf a u hx ht).trans hx.mem
  | raise e u =>
    obtain ⟨hu, he⟩ := hx
    by_cases hbus : e = .busError
    · subst hbus
      cases ht
      exact hu.mem
    · rw [Res.beforeWrites_raise hbus] at ht
      cases ht
      exact (enterError_mem (by rw [hu.phase, hphase]; exact he.resolve_left hbus)).trans hu.mem
  | unwritten u => cases ht; exact hx.mem
  | fault g => cases ht
  | refuse r => cases ht

/-! ## The rules a start step is made of -/

theorem assertRange_writesNothing {α : Type} {c : Prop} [Decidable c] {k : Res α} {s : State} (hk : k.WritesNothing s) :
    (assertRange c k).WritesNothing s := by
  unfold assertRange
  split
  · exact hk
  · trivial

theorem checkRegions_writesNothing (s : State) : (checkRegions s).WritesNothing s := by
  unfold checkRegions
  split
  · exact ⟨.refl s, .inr rfl⟩
  · split
    · exact NothingWritten.refl s
    · trivial

theorem prefetch_writesNothing (s : State) : (prefetch s).WritesNothing s := by
  unfold prefetch
  split
  · split
    · exact ⟨⟨rfl, rfl, rfl, rfl⟩, .inl rfl⟩
    · exact ⟨rfl, rfl, rfl, rfl⟩
  · exact NothingWritten.refl s

/-- The three errors of R141. -/
theorem dictError_cases {d : Word} {c : ErrorCode} (h : dictError d = some c) :
    c = .invalidDictionary ∨ c = .dictionaryTooSmall ∨ c = .dictionaryTooLarge := by
  unfold dictError at h
  split_ifs at h <;> simp_all

theorem dictError_ne_busError {d : Word} {c : ErrorCode} (h : dictError d = some c) : c ≠ .busError := by
  rcases dictError_cases h with rfl | rfl | rfl <;> decide

theorem validateDictOp_writesNothing (d : Word) (s : State) : (validateDictOp d s).WritesNothing s := by
  unfold validateDictOp
  split
  · rename_i c hc
    exact ⟨.refl s, .inr (by rcases dictError_cases hc with rfl | rfl | rfl <;> rfl)⟩
  · exact NothingWritten.refl s

theorem toRes_writesNothing {α : Type} (x : Access α) (s : State) : (x.toRes s).WritesNothing s := by
  cases x with
  | ok a => exact NothingWritten.refl s
  | busError => exact ⟨.refl s, .inl rfl⟩
  | outside => trivial

theorem readHeaderOp_writesNothing (s : State) : (readHeaderOp s).WritesNothing s :=
  (toRes_writesNothing _ s).bind fun _ t => (toRes_writesNothing _ t).bind fun _ _ => ⟨rfl, rfl, rfl, rfl⟩

/-- The capacity check of a start step (R148, R170). -/
theorem capacityCheck_writesNothing {c : Prop} [Decidable c] {k : Res Unit} {s : State} (hk : k.WritesNothing s) :
    (if c then .raise .outputTooSmall s else k : Res Unit).WritesNothing s := by
  split
  · exact ⟨.refl s, .inr rfl⟩
  · exact hk

theorem encStartChecks_writesNothing (s : State) : (encStartChecks s).WritesNothing s :=
  (checkRegions_writesNothing s).bind fun _ t => (prefetch_writesNothing t).bind fun _ u =>
    (validateDictOp_writesNothing _ u).bind fun _ _ => capacityCheck_writesNothing (assertRange_writesNothing ⟨rfl, rfl, rfl, rfl⟩)

/-! ## The two start steps -/

section

variable {s t : State}

/-- DECOMPRESS's start step writes nothing (R170). -/
theorem decStartStep_mem (hphase : s.phase = .start)
    (ht : settle ((decStartStep s).bind fun _ u => .ok () (u.setPhase .loop)) = .next t) : t.mem = s.mem := by
  refine Res.WritesNothing.mem_of_settle ?_ hphase (fun _ u _ hu => by cases hu; rfl) ht
  refine (checkRegions_writesNothing s).bind fun _ t => (prefetch_writesNothing t).bind fun _ u => ?_
  split
  · exact ⟨.refl u, .inr rfl⟩
  · exact (readHeaderOp_writesNothing u).bind fun _ v => (prefetch_writesNothing v).bind fun _ w =>
      (validateDictOp_writesNothing _ w).bind fun _ _ => capacityCheck_writesNothing (assertRange_writesNothing ⟨rfl, rfl, rfl, rfl⟩)

/-- COMPRESS's start step writes nothing where memory does not answer at the first byte of the output region (D31). -/
theorem encStartStep_mem (hphase : s.phase = .start) (hm : memOk s.plat s.op.dst.toNat = false)
    (ht : settle ((encStartStep s).bind fun _ u => .ok () (u.setPhase .loop)) = .next t) : t.mem = s.mem := by
  rw [encStartStep, Res.bind_assoc] at ht
  refine (encStartChecks_writesNothing s).mem_of_settle hphase (fun _ u hu hnext => ?_) ht
  have hheader : encStartHeader u = .unwritten u := by simp [encStartHeader, hu.plat, hu.dst, hm]
  rw [hheader] at hnext
  cases hnext
  rfl

end

end Sys2Proof.Machine
end

section
/-! The start steps run by the sequencer (R211, R234): the checks of each in their order, and the state past them. -/

namespace Sys2Proof.Machine

open Sys2Proof Sys2Proof.Safety

section

variable {s : State}

/-! ## The buffer check (R66) -/

/-- The model's buffer check says what R66 says. -/
theorem bufferBad_iff : s.op.bufferBad = true ↔ RegionsBad s := by
  simp only [OpParams.bufferBad, Bool.or_eq_true, Bool.and_eq_true, decide_eq_true_eq, and_assoc, or_assoc]
  rfl

/-! ## Running a start step (R211) -/

theorem exec_step_of_start (hbusy : s.fsm ≠ .idle) (habort : s.abortReq = false) (hphase : s.phase = .start) :
    exec .step s = settle ((startStepOp s).bind fun _ u => .ok () (u.setPhase .loop)) := by
  rw [exec_step_of_busy hbusy, stepOp_start habort hphase]

/-- An error of the start step is entered in the state that the start step has left (R220). -/
theorem exec_step_of_start_raise (hbusy : s.fsm ≠ .idle) (habort : s.abortReq = false) (hphase : s.phase = .start) {e : ErrorCode}
    {t : State} (h : startStepOp s = .raise e t) : exec .step s = exec (.errorEntry e) t := by
  rw [exec_step_of_start hbusy habort hphase, h, Res.bind_raise, settle_raise, exec_errorEntry]

theorem startStepOp_enc (hfsm : s.fsm = .enc) : startStepOp s = encStartStep s := by rw [startStepOp, hfsm]

theorem startStepOp_dec (hfsm : s.fsm = .dec) : startStepOp s = decStartStep s := by rw [startStepOp, hfsm]

/-- BadBuffer is the first check of either start step (R66, R234). -/
theorem startStepOp_of_regionsBad (hbusy : s.fsm ≠ .idle) (h : RegionsBad s) : startStepOp s = .raise .badBuffer s := by
  have hcheck : checkRegions s = .raise .badBuffer s := if_pos (bufferBad_iff.2 h)
  have hquiet := Res.beforeWrites_raise (α := Unit) (e := .badBuffer) (by decide) s
  unfold startStepOp
  split
  · rw [encStartStep, encStartChecks, hcheck, Res.bind_raise, hquiet, Res.bind_raise]
  · rw [decStartStep, hcheck, Res.bind_raise, hquiet]
  · exact absurd ‹_› hbusy

/-- The regions are good, every byte answers, and there are no devices: a start step raises nothing before the checks of its own
operation. -/
structure PlainRegions (s : State) : Prop where
  buffers : s.op.bufferBad = false
  holes : s.plat.holes = []
  devices : s.plat.devices = []

theorem plainRegions (h : ¬RegionsBad s) (hholes : s.plat.holes = []) (hdevices : s.plat.devices = []) : PlainRegions s :=
  ⟨Bool.eq_false_iff.2 (bufferBad_iff.not.2 h), hholes, hdevices⟩

/-! ## The checks of DECOMPRESS (R170) -/

/-- The state with the header of the input region recorded (R111). -/
def headerRead (s : State) : State := recordHeader (wordAt s s.op.src.toNat) (wordAt s (s.op.src.toNat + 4)) s

theorem PlainRegions.decStartStep_shortInput (h : PlainRegions s) (hlen : s.op.len.toNat < 8) :
    decStartStep s = .raise .corruptHeader s := by
  rw [decStartStep, checkRegions_ok h.buffers h.devices, Res.bind_ok, prefetch_of_no_holes h.holes, Res.bind_ok]
  exact congrArg Res.beforeWrites (if_pos hlen)

/-- Where the input has a header, the other checks come after it is recorded. -/
theorem PlainRegions.decStartStep_header (h : PlainRegions s) (hlen : 8 ≤ s.op.len.toNat) :
    decStartStep s = Res.beforeWrites ((validateDictOp (wordAt s (s.op.src.toNat + 4)) (headerRead s)).bind fun _ u =>
      if u.op.cap.toNat < (wordAt s s.op.src.toNat).toNat then .raise .outputTooSmall u
      else decInitOp (wordAt s s.op.src.toNat) (wordAt s (s.op.src.toNat + 4)) u) := by
  have hfits : s.op.src.toNat + 8 ≤ Config.addressSpace := (Nat.add_le_add_left hlen _).trans (regions_fit h.buffers).1
  have hroom : ¬s.op.len.toNat < Config.headerBytes := Nat.not_lt.2 hlen
  have hprefetch : prefetch (headerRead s) = .ok () (headerRead s) := prefetch_of_no_holes h.holes
  rw [decStartStep, checkRegions_ok h.buffers h.devices, Res.bind_ok, prefetch_of_no_holes h.holes, Res.bind_ok, if_neg hroom,
    readHeaderOp_ok (answers_of_no_holes h.holes hfits), takeHeader, Res.bind_ok, ← headerRead, hprefetch, Res.bind_ok]

theorem PlainRegions.decStartStep_dictError (h : PlainRegions s) (hlen : 8 ≤ s.op.len.toNat) {c : ErrorCode}
    (hc : dictError (wordAt s (s.op.src.toNat + 4)) = some c) : decStartStep s = .raise c (headerRead s) := by
  rw [h.decStartStep_header hlen, validateDictOp_raise hc, Res.bind_raise, Res.beforeWrites_raise (dictError_ne_busError hc)]

theorem PlainRegions.decStartStep_noRoom (h : PlainRegions s) (hlen : 8 ≤ s.op.len.toNat)
    (hlegal : dictLegal (wordAt s (s.op.src.toNat + 4)) = true) (hroom : s.op.cap.toNat < (wordAt s s.op.src.toNat).toNat) :
    decStartStep s = .raise .outputTooSmall (headerRead s) := by
  rw [h.decStartStep_header hlen, validateDictOp_ok hlegal, Res.bind_ok]
  exact congrArg Res.beforeWrites (if_pos hroom)

/-! ## The checks of COMPRESS (R148) -/

/-- The dictionary length is checked before the capacity. -/
theorem PlainRegions.encStartChecks_eq (h : PlainRegions s) :
    encStartChecks s = (validateDictOp s.op.d s).bind fun _ u =>
      if u.op.cap.toNat < Config.headerBytes then .raise .outputTooSmall u else deriveParamsOp u.op.d u := by
  rw [encStartChecks, checkRegions_ok h.buffers h.devices, Res.bind_ok, prefetch_of_no_holes h.holes, Res.bind_ok]

theorem encStartStep_raise {t : State} {e : ErrorCode} (he : e ≠ .busError) (h : encStartChecks s = .raise e t) :
    encStartStep s = .raise e t := by
  rw [encStartStep, h, Res.beforeWrites_raise he, Res.bind_raise]

theorem PlainRegions.encStartStep_dictError (h : PlainRegions s) {c : ErrorCode} (hc : dictError s.op.d = some c) :
    encStartStep s = .raise c s :=
  encStartStep_raise (dictError_ne_busError hc) (by rw [h.encStartChecks_eq, validateDictOp_raise hc, Res.bind_raise])

theorem PlainRegions.encStartStep_noRoom (h : PlainRegions s) (hlegal : dictLegal s.op.d = true) (hroom : s.op.cap.toNat < 8) :
    encStartStep s = .raise .outputTooSmall s :=
  encStartStep_raise (by decide) (by
    rw [h.encStartChecks_eq, validateDictOp_ok hlegal, Res.bind_ok]
    exact if_pos hroom)

end

/-! ## The statements of 60_exceptions.md on the start steps -/

/-- Settles O47: no part of the start step writes memory, and each check is reached where those before it pass. -/
theorem decompressStartChecksInOrder : Obligations.DecompressStartChecksInOrder := by
  intro s hfsm habort hphase
  have hbusy : s.fsm ≠ .idle := by simp [hfsm]
  have hstart := startStepOp_dec hfsm
  have hstep := exec_step_of_start hbusy habort hphase
  rw [hstart] at hstep
  have hraise {e : ErrorCode} {t : State} (h : decStartStep s = .raise e t) : exec .step s = exec (.errorEntry e) t :=
    exec_step_of_start_raise hbusy habort hphase (hstart.trans h)
  refine ⟨fun t ht => decStartStep_mem hphase (hstep.symm.trans ht), fun hholes hdevices => ⟨fun hbad => ?badBuffer,
    fun hgood hlen => ?corruptHeader, fun hgood hlen => ?header⟩⟩
  case badBuffer => exact exec_step_of_start_raise hbusy habort hphase (startStepOp_of_regionsBad hbusy hbad)
  case corruptHeader => exact hraise ((plainRegions hgood hholes hdevices).decStartStep_shortInput hlen)
  case header =>
    have hplain := plainRegions hgood hholes hdevices
    have hlegal := (dictError_eq_none (wordAt s (s.op.src.toNat + 4))).1
    refine ⟨fun c hc => hraise (hplain.decStartStep_dictError hlen hc),
      fun hdict hroom => hraise (hplain.decStartStep_noRoom hlen (hlegal hdict) hroom), fun hdict hroom => ?_⟩
    have hcan : CanDecompress s := ⟨hplain.buffers, hholes, hdevices, hlen, hlegal hdict, hroom⟩
    refine ⟨decStarted s, congrArg settle (decInitOp_ok (hlegal hdict) _ (headerRead s)), ?_⟩
    rw [hstep, hcan.decStartStep_ok]
    rfl

/-- Settles O48: each check is reached where those before it pass, and past them the header is the only thing written. -/
theorem compressStartChecksInOrder : Obligations.CompressStartChecksInOrder := by
  intro s hfsm habort hphase
  have hbusy : s.fsm ≠ .idle := by simp [hfsm]
  have hstart := startStepOp_enc hfsm
  have hstep := exec_step_of_start hbusy habort hphase
  rw [hstart] at hstep
  have hraise {e : ErrorCode} {t : State} (h : encStartStep s = .raise e t) : exec .step s = exec (.errorEntry e) t :=
    exec_step_of_start_raise hbusy habort hphase (hstart.trans h)
  refine ⟨bufferBad_iff, fun hm t ht => encStartStep_mem hphase hm (hstep.symm.trans ht),
    fun hholes hdevices => ⟨fun hbad => ?badBuffer, fun hgood => ?checks⟩⟩
  case badBuffer => exact exec_step_of_start_raise hbusy habort hphase (startStepOp_of_regionsBad hbusy hbad)
  case checks =>
    have hplain := plainRegions hgood hholes hdevices
    refine ⟨fun c hc => hraise (hplain.encStartStep_dictError hc),
      fun hdict hroom => hraise (hplain.encStartStep_noRoom ((dictError_eq_none _).1 hdict) hroom), fun hlegal hcap hwf => ?_⟩
    have hcan : CanCompress s := ⟨hwf, hplain.buffers, hlegal, hholes, hdevices⟩
    obtain ⟨hlen, hdict⟩ :=
      headerWritten_holdsWords s.op.len s.op.d (s := paramsDerived s.op.d s) hwf (header_fits hplain.buffers hcap)
    refine ⟨(encStarted s).mem, Nat.log2 s.op.d.toNat, two_pow_log2_of_dictLegal hlegal, ?_, hlen, hdict,
      headerWritten_outside s.op.len s.op.d (paramsDerived s.op.d s)⟩
    rw [hstep, encStartStep_ok hcan hcap]
    rfl

end Sys2Proof.Machine
end

section
/-! The register port while `rst` is asserted, and what a reset leaves (R250, R251, R252). -/

namespace Sys2Proof.Machine

open Sys2Proof Sys2Proof.Safety

section

variable {s : State}

/-! ## While `rst` is asserted (R250) -/

theorem portWrite_of_high (hrst : s.rst = true) (f : State → State) : portWrite s f = s := if_pos hrst

/-- While `rst` is asserted the machine goes on from a host write as it was. -/
theorem next_portWrite_of_high (hrst : s.rst = true) (f : State → State) :
    (.next (portWrite s f) : Host.Outcome State Fault Refusal) = .next s :=
  congrArg Host.Outcome.next (portWrite_of_high hrst f)

/-- The reset values that a read returns (R52): 0, and the constant of ID (R33). -/
theorem regValue_reset (r : Reg) : regValue State.reset r = if r = .ident then 0x4C5A5353 else 0 := by
  cases r <;> rfl

theorem hostRead_of_high (hrst : s.rst = true) (r : Reg) : hostRead s r = if r = .ident then 0x4C5A5353 else 0 := by
  rw [hostRead, if_pos hrst, regValue_reset]

/-- Settles O8: every host write goes through the one gate, which `rst` shuts, and every read returns the reset value. -/
theorem portWhileResetIsAsserted : Obligations.PortWhileResetIsAsserted := by
  intro ie d e l2 l3 r v s hrst
  have hignored := next_portWrite_of_high hrst
  refine ⟨hignored _, hignored _, hignored _, hignored _, hignored _, hignored _, hignored _, hignored _, ?_⟩
  rw [exec_regRead, hostRead_of_high hrst]
  rfl

/-! ## A level on `rst` (R250, R251, R252) -/

/-- Everything a reset leaves: the platform and the outside world, and memory, in which the output region of a running operation
becomes unspecified. -/
theorem resetState_eq (s : State) :
    resetState s = { State.reset with
      mem := if s.fsm = .idle then s.mem else (spoilOutput s).mem
      fresh := if s.fsm = .idle then s.fresh else s.fresh + 1
      plat := s.plat, rst := s.rst, inbox := s.inbox, rdata := s.rdata, agentData := s.agentData, result := s.result } := by
  unfold resetState
  split <;> rfl

theorem resetState_mem_of_idle (hidle : s.fsm = .idle) : (resetState s).mem = s.mem := by
  rw [resetState_eq]
  exact if_pos hidle

theorem resetState_read {b : Nat} (hb : s.op.inOutput b = false) : (resetState s).mem.read b = s.mem.read b := by
  by_cases hidle : s.fsm = .idle
  · rw [resetState_mem_of_idle hidle]
  · simp only [resetState_eq, hidle, if_false]
    exact spoilOutput_read s hb

theorem exec_reset (asserted : Bool) (s : State) : exec (.reset asserted) s = .next (resetBlock asserted s) := rfl

end

/-- Settles O14: a reset is `resetState`, whose fields are the reset values but for the platform, the outside world and memory. -/
theorem resetTakesTheResetValues : Obligations.ResetTakesTheResetValues := by
  refine fun asserted s => ⟨fun hreset => ⟨(resetState s).setRst asserted, ?next, ?fields⟩, fun hlow hrst => ?low⟩
  case next => rw [exec_reset, resetBlock_eq hreset]
  case low => rw [exec_reset, hlow, resetBlock_low hrst]
  case fields =>
    refine ⟨?_, ?_, ?_, ?_, rfl, ?_, ?_, ?_, ?_, resetState_mem_of_idle, fun _ => resetState_read⟩ <;> rw [resetState_eq] <;> rfl

end Sys2Proof.Machine
end

section
/-! The rules that refuse nothing: of all the rules of a step only the start step's check of its regions can refuse the run (R64, U18). -/

namespace Sys2Proof.Machine

open Sys2Proof Sys2Proof.Safety

/-- The rule does not end in a refusal. -/
def Res.Admitted {α : Type} (x : Res α) : Prop :=
  match x with
  | .refuse _ => False
  | .ok _ _ | .raise _ _ | .unwritten _ | .fault _ => True

/-! ## How rules are put together -/

section

variable {α β : Type} {x y : Res α} {f : α → State → Res β}

theorem Res.Admitted.bind (hx : x.Admitted) (hf : ∀ a s, (f a s).Admitted) : (x.bind f).Admitted := by
  cases x with
  | ok a s => exact hf a s
  | refuse r => exact hx.elim
  | _ => trivial

theorem Res.Admitted.ite {c : Prop} [Decidable c] (hx : x.Admitted) (hy : y.Admitted) : (if c then x else y).Admitted := by
  split
  · exact hx
  · exact hy

theorem Res.Admitted.assertRange {c : Prop} [Decidable c] (hx : x.Admitted) : (assertRange c x).Admitted := .ite hx trivial

theorem Res.Admitted.beforeWrites (hx : x.Admitted) : x.beforeWrites.Admitted := by
  cases x with
  | raise e s => cases e <;> trivial
  | _ => exact hx

/-- A read may fail to complete, but it is not refused. -/
theorem toRes_admitted (a : Access α) (s : State) : (a.toRes s).Admitted := by cases a <;> trivial

theorem Res.Admitted.settle_ne (hx : x.Admitted) (r : Refusal) : settle x ≠ .refused r := by
  cases x with
  | refuse r => exact hx.elim
  | _ => nofun

end

/-! ## Memory, the packer and the encoder -/

theorem memWrite1_admitted (a : Nat) (v : Byte) (s : State) : (memWrite1 a v s).Admitted := .ite (.ite trivial trivial) trivial

theorem memWrite4_admitted (a : Nat) (v : Word) (s : State) : (memWrite4 a v s).Admitted :=
  (memWrite1_admitted _ _ s).bind fun _ t => (memWrite1_admitted _ _ t).bind fun _ u => (memWrite1_admitted _ _ u).bind fun _ w =>
    memWrite1_admitted _ _ w

theorem prefetch_admitted (s : State) : (prefetch s).Admitted := .ite (.ite trivial trivial) trivial

theorem reserveOp_admitted (s : State) : (reserveOp s).Admitted := .ite trivial trivial

theorem flushOp_admitted (k : SubStream) (s : State) : (flushOp k s).Admitted := (memWrite4_admitted _ _ s).bind fun _ _ => trivial

theorem emitOn_admitted {cap : Nat} [NeZero cap] (k : SubStream) (get : EncRegs → Accum cap) (set : EncRegs → Accum cap → EncRegs)
    (width : Nat) (v : Word) (s : State) : (emitOn k get set width v s).Admitted := by
  refine .bind (.ite trivial ((reserveOp_admitted s).bind fun _ _ => trivial)) fun _ t => ?_
  dsimp only
  split
  · trivial
  · exact flushOp_admitted k _

theorem flushIfOpen_admitted (k : SubStream) (s : State) : (flushIfOpen k s).Admitted := .ite (flushOp_admitted k s) trivial

theorem finishOp_admitted (s : State) : (finishOp s).Admitted :=
  (flushIfOpen_admitted _ s).bind fun _ t => (flushIfOpen_admitted _ t).bind fun _ u => flushIfOpen_admitted _ u

theorem matchSearchOp_admitted (cur : Nat) (s : State) : (matchSearchOp cur s).Admitted :=
  .assertRange ((toRes_admitted _ s).bind fun _ _ => trivial)

theorem emitStringOp_admitted (offset length : Nat) (s : State) : (emitStringOp offset length s).Admitted :=
  .bind (.assertRange trivial) fun _ t => emitOn_admitted _ _ _ _ _ t

theorem encodeStepOp_admitted (s : State) : (encodeStepOp s).Admitted :=
  (matchSearchOp_admitted _ s).bind fun _ t => .ite
    ((emitOn_admitted _ _ _ _ _ t).bind fun _ u => (emitStringOp_admitted _ _ u).bind fun _ _ => trivial)
    ((emitOn_admitted _ _ _ _ _ t).bind fun _ u => (toRes_admitted _ u).bind fun _ w =>
      (emitOn_admitted _ _ _ _ _ w).bind fun _ _ => trivial)

theorem encLoopStep_admitted (s : State) : (encLoopStep s).Admitted :=
  (prefetch_admitted s).bind fun _ t => .ite (encodeStepOp_admitted t) ((finishOp_admitted t).bind fun _ _ => trivial)

/-! ## The decoder -/

theorem readWordOp_admitted (s : State) : (readWordOp s).Admitted := .ite trivial ((toRes_admitted _ s).bind fun _ _ => trivial)

theorem flagRefillOp_admitted (s : State) : (flagRefillOp s).Admitted := (readWordOp_admitted s).bind fun _ _ => trivial

theorem stringRefillOp_admitted (s : State) : (stringRefillOp s).Admitted := (readWordOp_admitted s).bind fun _ _ => trivial

theorem byteRefillOp_admitted (s : State) : (byteRefillOp s).Admitted := (readWordOp_admitted s).bind fun _ _ => trivial

theorem putOutput_admitted (v : Byte) (s : State) : (putOutput v s).Admitted :=
  (memWrite1_admitted _ _ s).bind fun _ _ => .assertRange trivial

theorem copyBytes_admitted (offset : Nat) : ∀ (k : Nat) (s : State), (copyBytes offset k s).Admitted
  | 0, _ => trivial
  | k + 1, s => (toRes_admitted _ s).bind fun _ t => (putOutput_admitted _ t).bind fun _ u => copyBytes_admitted offset k u

theorem stringElementOp_admitted (s : State) : (stringElementOp s).Admitted :=
  .bind (.ite (stringRefillOp_admitted s) trivial) fun _ _ =>
    .bind (.ite trivial (.ite trivial trivial)) fun _ u => .bind (.assertRange (copyBytes_admitted _ _ u)) fun _ _ => trivial

theorem literalElementOp_admitted (s : State) : (literalElementOp s).Admitted :=
  .bind (.ite (byteRefillOp_admitted s) trivial) fun _ t => (putOutput_admitted _ t).bind fun _ _ => trivial

theorem flagAdvanceOp_admitted (s : State) : (flagAdvanceOp s).Admitted := by
  unfold flagAdvanceOp
  split <;> trivial

theorem decodeStepOp_admitted (s : State) : (decodeStepOp s).Admitted :=
  .assertRange <| .bind (.ite (flagRefillOp_admitted s) trivial) fun _ t =>
    .bind (.ite (stringElementOp_admitted t) (literalElementOp_admitted t)) fun _ u => flagAdvanceOp_admitted u

theorem decLoopStep_admitted (s : State) : (decLoopStep s).Admitted :=
  (prefetch_admitted s).bind fun _ t => .ite (decodeStepOp_admitted t) trivial

/-! ## The start steps, where there are no devices -/

theorem checkRegions_admitted {s : State} (hdevices : s.plat.devices = []) : (checkRegions s).Admitted := by
  have hordinary : regionsOrdinary s.plat s.op = true := by simp [regionsOrdinary, hdevices]
  unfold checkRegions
  rw [if_pos hordinary]
  exact .ite trivial trivial

theorem validateDictOp_admitted (d : Word) (s : State) : (validateDictOp d s).Admitted := by
  unfold validateDictOp
  split <;> trivial

theorem encStartHeader_admitted (s : State) : (encStartHeader s).Admitted :=
  .ite ((prefetch_admitted s).bind fun _ t => (memWrite4_admitted _ _ t).bind fun _ u => (memWrite4_admitted _ _ u).bind fun _ _ =>
    trivial) trivial

theorem encStartStep_admitted {s : State} (hdevices : s.plat.devices = []) : (encStartStep s).Admitted := by
  have hchecks : (encStartChecks s).Admitted :=
    (checkRegions_admitted hdevices).bind fun _ t => (prefetch_admitted t).bind fun _ u =>
      (validateDictOp_admitted _ u).bind fun _ _ => .ite trivial (.assertRange trivial)
  exact hchecks.beforeWrites.bind fun _ t => (encStartHeader_admitted t).bind fun _ _ => prefetch_admitted _

theorem readHeaderOp_admitted (s : State) : (readHeaderOp s).Admitted :=
  (toRes_admitted _ s).bind fun _ t => (toRes_admitted _ t).bind fun _ _ => trivial

theorem decStartStep_admitted {s : State} (hdevices : s.plat.devices = []) : (decStartStep s).Admitted :=
  .beforeWrites <| (checkRegions_admitted hdevices).bind fun _ t => (prefetch_admitted t).bind fun _ u =>
    .ite trivial <| (readHeaderOp_admitted u).bind fun _ v => (prefetch_admitted v).bind fun _ w =>
      (validateDictOp_admitted _ w).bind fun _ _ => .ite trivial (.assertRange trivial)

/-- A step of the running operation is not refused where all memory is ordinary. -/
theorem stepOp_admitted {s : State} (hdevices : s.plat.devices = []) : (stepOp s).Admitted := by
  unfold stepOp startStepOp loopStepOp
  refine .ite trivial ?_
  split
  · refine .bind ?_ fun _ _ => trivial
    split
    · exact encStartStep_admitted hdevices
    · exact decStartStep_admitted hdevices
    · trivial
  · split
    · exact encLoopStep_admitted s
    · exact decLoopStep_admitted s
    · trivial

end Sys2Proof.Machine
end

section
/-! Every operation ends (R261, R262): a step of a BUSY block ends the operation or leaves fewer steps to go. -/

namespace Sys2Proof.Machine

open Sys2Proof Sys2Proof.Safety

/-- The operation has ended, with DONE or with ERR. -/
def Ended (t : State) : Prop := t.fsm = .idle ∧ (t.regs.done = true ∨ t.regs.err = true)

/-- The operation of `s` goes on in `t`, with fewer steps to go; no event has come, and the platform is the same. -/
structure GoesOn (s t : State) : Prop where
  busy : t.fsm ≠ .idle
  inbox : t.inbox = s.inbox
  plat : t.plat = s.plat
  fewer : stepsLeft t < stepsLeft s

section

variable {s t : State}

theorem stepsLeft_pos (hbusy : s.fsm ≠ .idle) : 0 < stepsLeft s := by
  unfold stepsLeft
  cases hfsm : s.fsm with
  | idle => exact absurd hfsm hbusy
  | enc | dec => cases s.phase <;> exact Nat.succ_pos _

theorem Stepped.ended_or_goesOn (h : Stepped s t) (hbusy : s.fsm ≠ .idle) : Ended t ∨ GoesOn s t := by
  rcases h with ⟨u, r, -, rfl⟩ | ⟨u, hu, rfl, -, -, hfewer⟩
  · exact .inl ⟨rfl, .inl rfl⟩
  · exact .inr ⟨fun hidle => hbusy (hu.fsm.symm.trans hidle), (congrArg (·.inbox) hu.eq :), (congrArg (·.plat) hu.eq :), hfewer⟩

theorem ended_recordError (e : ErrorCode) (s : State) : Ended (recordError e s) := ⟨rfl, .inr rfl⟩

theorem ended_enterError (e : ErrorCode) (s : State) : Ended (enterError e s) := ended_recordError e _

/-- One step of a BUSY block with no event waiting. -/
theorem step_ended_or_goesOn (h : Inv s) (hbusy : s.fsm ≠ .idle) (hinbox : s.inbox = []) (hdevices : s.plat.devices = []) :
    ∃ t, step s = .next t ∧ (Ended t ∨ GoesOn s t) := by
  rw [step_of_inbox_nil hinbox, exec_step_of_busy hbusy]
  have hall := (stepOp_all h hbusy).mono (fun _ _ ht => ht.ended_or_goesOn hbusy) fun _ _ => id
  have hsettle := settle_all (Q := fun t => Ended t ∨ GoesOn s t) hall (fun e t _ => .inl (ended_enterError e t))
    fun t _ => .inl (ended_recordError _ t)
  exact hsettle.resolve_right ((stepOp_admitted hdevices).settle_ne _)

end

/-- Settles O55: by induction on the steps left, which every step that does not end the operation lowers. -/
theorem everyOperationTerminates : Obligations.EveryOperationTerminates := by
  intro s h hbusy hinbox hdevices
  induction hn : stepsLeft s using Nat.strong_induction_on generalizing s with
  | _ n ih =>
    subst hn
    obtain ⟨t, hstep, hended | hon⟩ := step_ended_or_goesOn h hbusy hinbox hdevices
    · exact ⟨1, t, stepsLeft_pos hbusy, run_succ hstep 0, hended⟩
    · have hinv := stepKeepsInvariant s t h hstep
      obtain ⟨k, u, hk, hrun, hu⟩ :=
        ih _ hon.fewer t hinv hon.busy (hon.inbox.trans hinbox) (hon.plat ▸ hdevices) rfl
      exact ⟨k + 1, u, hk.trans_lt hon.fewer, (run_succ hstep k).trans hrun, hu⟩

end Sys2Proof.Machine
end

section
/-! The size of the compressed stream (R260): how many words the elements emitted so far have taken, and what the input read so far
allows of them. -/

namespace Sys2Proof

/-- How many elements a word of sub-stream `k` holds (R120). -/
def SubStream.perWord : SubStream → Nat
  | .flags => 32
  | .strings => 2
  | .bytes => 4

theorem SubStream.width_mul_perWord (k : SubStream) : k.width * k.perWord = 32 := by cases k <;> rfl

end Sys2Proof

namespace Sys2Proof.Machine

open Sys2Proof Sys2Proof.Safety

/-! ## Counting elements and words -/

/-- The words that `n` elements of sub-stream `k` take. -/
def wordsFor (k : SubStream) (n : Nat) : Nat := (n + k.perWord - 1) / k.perWord

/-- The words that the elements counted by `c` take, in all three sub-streams. -/
def words (c : SubStream → Nat) : Nat := wordsFor .flags (c .flags) + wordsFor .strings (c .strings) + wordsFor .bytes (c .bytes)

/-- The count `c` with one more element of sub-stream `k`. -/
def oneMore (c : SubStream → Nat) (k : SubStream) (j : SubStream) : Nat := if j = k then c j + 1 else c j

/-- Where the elements before it fill their words, one more takes a new word. -/
theorem wordsFor_succ (k : SubStream) (n : Nat) : wordsFor k (n + 1) = wordsFor k n + if n % k.perWord = 0 then 1 else 0 := by
  unfold wordsFor
  by_cases hfull : n % k.perWord = 0
  · rw [if_pos hfull]
    cases k <;> simp only [SubStream.perWord] at hfull ⊢ <;> omega
  · rw [if_neg hfull]
    cases k <;> simp only [SubStream.perWord] at hfull ⊢ <;> omega

theorem words_oneMore (c : SubStream → Nat) (k : SubStream) :
    words (oneMore c k) = words c + if c k % k.perWord = 0 then 1 else 0 := by
  have hsucc := wordsFor_succ k (c k)
  cases k <;> simp only [words, oneMore, if_true, reduceCtorEq, if_false] <;> omega

theorem words_le_oneMore (c : SubStream → Nat) (k : SubStream) : words c ≤ words (oneMore c k) :=
  words_oneMore c k ▸ Nat.le_add_right _ _

/-- The encoder has emitted the elements that `c` counts: an open word holds those that fill no word, and the write cursor has passed
the header and one slot for each word (R120, R121). -/
structure Tally (c : SubStream → Nat) (e : EncRegs) : Prop where
  pos_of_open : ∀ k, e.openOf k = true → 0 < e.posOf k
  posFor : ∀ k, e.posFor k = c k % k.perWord
  wc : e.wc.toNat = 8 + 4 * words c

section

variable {c : SubStream → Nat} {k : SubStream} {v : Word} {s t : State} {e e' : EncRegs}

/-- A word is open unless the elements before fill their words. -/
theorem Tally.closed_iff (h : Tally c e) (k : SubStream) : e.openOf k = false ↔ c k % k.perWord = 0 := by
  rw [← h.posFor, EncRegs.posFor]
  cases ho : e.openOf k
  · simp
  · simpa using (h.pos_of_open k ho).ne'

/-- An element of a closed word takes a new slot. -/
theorem Tally.wc_of_closed (h : Tally c e) (ho : e.openOf k = false) : e.wc.toNat + 4 = 8 + 4 * words (oneMore c k) := by
  rw [h.wc, words_oneMore, if_pos ((h.closed_iff k).1 ho)]
  omega

theorem Tally.wc_of_open (h : Tally c e) (ho : e.openOf k = true) : e.wc.toNat = 8 + 4 * words (oneMore c k) := by
  rw [h.wc, words_oneMore, if_neg ((h.closed_iff k).not.1 (by simp [ho]))]
  rfl

theorem SameWord.posFor (h : SameWord e e' k) : e'.posFor k = e.posFor k := by
  rw [EncRegs.posFor, EncRegs.posFor, h.isOpen, h.pos]

theorem SamePacker.tally (h : SamePacker s t) (hc : Tally c s.enc) : Tally c t.enc where
  pos_of_open k ho := (h.words k).pos ▸ hc.pos_of_open k ((h.words k).isOpen ▸ ho)
  posFor k := (h.words k).posFor.trans (hc.posFor k)
  wc := h.wc ▸ hc.wc

/-! ## The count after an element -/

/-- The position goes round: from the last place of a word to the first of the next. -/
theorem Emitted.posFor (h : Emitted k v s t) : t.enc.posFor k = (s.enc.posFor k + 1) % k.perWord := by
  rcases h.word with ⟨ho, hnext, -⟩ | ⟨hclosed, hfull, -⟩
  · have hlt : k.width * t.enc.posOf k < k.width * k.perWord := k.width_mul_perWord ▸ width_mul_posOf_lt t.enc k
    rw [EncRegs.posFor, if_pos ho, Nat.mod_eq_of_lt (hnext ▸ Nat.lt_of_mul_lt_mul_left hlt), hnext]
  · have hwidth : 0 < k.width := by cases k <;> decide
    have hlast : s.enc.posFor k + 1 = k.perWord := Nat.eq_of_mul_eq_mul_left hwidth (hfull.trans k.width_mul_perWord.symm)
    rw [hlast, Nat.mod_self, EncRegs.posFor, hclosed]
    rfl

theorem Emitted.tally (h : Emitted k v s t) (hc : Tally c s.enc) : Tally (oneMore c k) t.enc where
  pos_of_open j ho := by
    by_cases hj : j = k
    · subst hj
      rcases h.word with ⟨-, hnext, -⟩ | ⟨hclosed, -⟩
      · exact hnext ▸ Nat.succ_pos _
      · rw [hclosed] at ho; cases ho
    · exact (h.others j hj).pos ▸ hc.pos_of_open j ((h.others j hj).isOpen ▸ ho)
  posFor j := by
    by_cases hj : j = k
    · subst hj
      rw [oneMore, if_pos rfl, h.posFor, hc.posFor, Nat.mod_add_mod]
    · rw [oneMore, if_neg hj, (h.others j hj).posFor, hc.posFor]
  wc := by
    rw [h.wc]
    cases ho : s.enc.openOf k
    · exact (toNat_reserve (h.room ho)).trans (hc.wc_of_closed ho)
    · exact hc.wc_of_open ho

section

variable {cap : Nat} [NeZero cap] {get : EncRegs → Accum cap} {set : EncRegs → Accum cap → EncRegs}

/-- Emitting an element completes, or the words with that element do not fit the capacity (R121). -/
theorem IsStreamOf.emitOn_cases (hw : IsStreamOf k get set) (v : Word) (h : CanFlush s) (hc : Tally c s.enc) :
    (∃ t, emitOn k get set k.width v s = .ok () t) ∨
    emitOn k get set k.width v s = .raise .outputTooSmall s ∧ s.op.cap.toNat < 8 + 4 * words (oneMore c k) := by
  by_cases hnone : (get s.enc).isOpen = false ∧ s.op.cap.toNat < s.enc.wc.toNat + 4
  · obtain ⟨ho, hcap⟩ := hnone
    exact .inr ⟨hw.emitOn_of_no_room _ _ ho hcap, hc.wc_of_closed (hw.get_open _ ▸ ho) ▸ hcap⟩
  · have hroom : (get s.enc).isOpen = false → s.enc.wc.toNat + 4 ≤ s.op.cap.toNat := fun ho =>
      Nat.le_of_not_lt fun hcap => hnone ⟨ho, hcap⟩
    left
    by_cases hfull : EmitPos (get s.enc) + 1 = cap
    · have hanswers := answers_of_no_holes h.holes (h.slotFor_fits (k := k) fun ho => hroom ((hw.get_open _).trans ho))
      rw [← hw.emitSlot s] at hanswers
      exact ⟨_, hw.emitOn_of_full k.width v hroom hfull hanswers⟩
    · have hlt : EmitPos (get s.enc) + 1 < cap := Nat.lt_of_le_of_ne (emitPos_lt _) hfull
      exact ⟨_, hw.emitOn_of_room k.width v hroom (p := ⟨_, hlt⟩) rfl⟩

/-- A flag and then a payload: both complete, or the words with the two elements do not fit the capacity. -/
theorem IsStreamOf.flagThenPayload_cases (hw : IsStreamOf k get set) {b : Bool} {n : Nat} {rest : State → Res Unit} (h : CanFlush s)
    (hc : Tally c s.enc)
    (hrest : ∀ u, Emitted .flags (flagWordOf b) s u → SameReadPosition s u →
      ∃ v, rest u = (emitOn k get set k.width v u).bind fun _ w => .ok () (advanceCur n w)) :
    (∃ t, ((emitFlagOp b s).bind fun _ => rest) = .ok () t) ∨
    (∃ u, ((emitFlagOp b s).bind fun _ => rest) = .raise .outputTooSmall u) ∧
      s.op.cap.toNat < 8 + 4 * words (oneMore (oneMore c .flags) k) := by
  have hflag : (∃ u, emitFlagOp b s = .ok () u) ∨
      emitFlagOp b s = .raise .outputTooSmall s ∧ s.op.cap.toNat < 8 + 4 * words (oneMore c .flags) :=
    isStreamOf_flags.emitOn_cases (flagWordOf b) h hc
  rcases hflag with ⟨u, hu⟩ | ⟨hraise, hcap⟩
  · have hemitted : Emitted .flags (flagWordOf b) s u := isStreamOf_flags.emitted h hu
    obtain ⟨v, hv⟩ := hrest u hemitted (isWordOf_flags.emitOn_sameReadPosition hu)
    rw [hu, Res.bind_ok, hv]
    rcases hw.emitOn_cases v hemitted.canFlush (hemitted.tally hc) with ⟨w, hok⟩ | ⟨hraise, hcap⟩
    · exact .inl ⟨_, by rw [hok, Res.bind_ok]⟩
    · exact .inr ⟨⟨u, by rw [hraise, Res.bind_raise]⟩, hemitted.op ▸ hcap⟩
  · have hmore := words_le_oneMore (oneMore c .flags) k
    exact .inr ⟨⟨s, by rw [hraise, Res.bind_raise]⟩, by omega⟩

end

end

/-! ## The bound (R260) -/

/-- The bound on the size of the compressed stream of `n` bytes (R260). -/
def sizeBound (n : Nat) : Nat := 8 + 4 * ((n + 31) / 32 + (n + 3) / 4) + (if 6 ≤ n then 4 else 0)

/-- The elements that `c` counts are those of `cur` bytes of input: each has its flag, a literal takes one byte and a string at least
three, and the first string stands at position 3 at least (R142, R147). -/
structure Consumed (c : SubStream → Nat) (cur : Nat) : Prop where
  flags : c .flags = c .strings + c .bytes
  bytes : c .bytes + 3 * c .strings ≤ cur
  window : 0 < c .strings → 6 ≤ cur

/-- The encoder in `s` has emitted the elements of the input up to its read cursor. -/
def Counted (s : State) : Prop := ∃ c, Tally c s.enc ∧ Consumed c s.enc.cur.toNat

section

variable {c : SubStream → Nat} {cur n : Nat} {s t : State}

theorem Consumed.literal (h : Consumed c cur) : Consumed (oneMore (oneMore c .flags) .bytes) (cur + 1) := by
  obtain ⟨hflags, hbytes, hwindow⟩ := h
  constructor <;> simp only [oneMore, if_true, reduceCtorEq, if_false] <;> omega

theorem Consumed.string (h : Consumed c cur) (hcur : 3 ≤ cur) (hn : 3 ≤ n) :
    Consumed (oneMore (oneMore c .flags) .strings) (cur + n) := by
  obtain ⟨hflags, hbytes, hwindow⟩ := h
  constructor <;> simp only [oneMore, if_true, reduceCtorEq, if_false] <;> omega

/-- Two strings fill a word and stand for at least six bytes, which as literals would take more than a word; so strings take more
words than literals would only where the last one is alone in its word, and that word is the last summand of R260. -/
theorem Consumed.words_le (h : Consumed c cur) (hcur : cur ≤ n) : 8 + 4 * words c ≤ sizeBound n := by
  obtain ⟨hflags, hbytes, hwindow⟩ := h
  simp only [words, wordsFor, SubStream.perWord, sizeBound]
  rcases Nat.eq_zero_or_pos (c .strings) with hnone | hsome
  · omega
  · have hlong := hwindow hsome
    rw [if_pos (hlong.trans hcur)]
    omega

theorem Element.counted (h : Element s t) (hs : Counted s) : Counted t := by
  obtain ⟨c, hc, hconsumed⟩ := hs
  cases h with
  | literal u hflag hpayload hcur => exact ⟨_, hpayload.tally (hflag.tally hc), hcur ▸ hconsumed.literal⟩
  | string u off len hflag hpayload hcur hoff _ hlen _ _ hfound =>
    exact ⟨_, hpayload.tally (hflag.tally hc), hcur ▸ hconsumed.string (hoff.trans hfound.off_le) hlen⟩

/-- An element step completes, or the bound does not fit the capacity. -/
theorem encodeStepOp_cases (hrun : EncRun s) (h : CanFlush s) (hc : s.enc.cur.toNat < s.op.len.toNat) (hs : Counted s) :
    (∃ t, encodeStepOp s = .ok () t) ∨
    (∃ u, encodeStepOp s = .raise .outputTooSmall u) ∧ s.op.cap.toNat < sizeBound s.op.len.toNat := by
  have ⟨hbuf, _⟩ := hrun
  have hsrc := (regions_fit hbuf).1
  obtain ⟨c, hcount, hconsumed⟩ := hs
  obtain ⟨m, hm, hscanned⟩ := findMatch_ok hsrc h.holes hc.le
  have hsearch := matchSearchOp_ok hc hm
  have hall := matchSearchOp_all hsrc hc h.packer
  rw [hsearch] at hall
  obtain ⟨⟨hlim, hoff⟩, hpacked⟩ := hall
  obtain ⟨hmax, hrest⟩ : m.1 ≤ s.op.maxLen ∧ m.1 ≤ s.op.len.toNat - s.enc.cur.toNat := by simpa [matchLimit] using hlim
  have hcan : CanFlush (matchFound m s) := ⟨h.wf, h.fits, hpacked.packer, h.holes⟩
  have hcount := (matchFound_samePacker m s).tally hcount
  rw [encodeStepOp, hsearch, Res.bind_ok]
  split
  · rename_i hlong
    have hoff := hoff (by omega)
    have hmatch := hscanned.inputMatch (by omega)
    have hfits := (hconsumed.string (hoff.1.trans hmatch.off_le) hlong).words_le (n := s.op.len.toNat) (by omega)
    refine (isStreamOf_strings.flagThenPayload_cases (n := m.1) hcan hcount fun u hu _ => ?_).imp_right
      (And.imp_right fun hcap => hcap.trans_le hfits)
    exact ⟨_, by rw [emitStringOp_eq hoff.1 (hu.op ▸ hoff.2) hlong (hu.op ▸ hmax)]; rfl⟩
  · have hfits := hconsumed.literal.words_le (n := s.op.len.toNat) hc
    refine (isStreamOf_bytes.flagThenPayload_cases (n := 1) hcan hcount fun u hu hpos => ?_).imp_right
      (And.imp_right fun hcap => hcap.trans_le hfits)
    have haddr : u.op.src.toNat + u.enc.cur.toNat < Config.addressSpace := by
      rw [hpos.op, hpos.cur]
      exact (Nat.add_lt_add_left hc _).trans_le hsrc
    exact ⟨_, by rw [memRead1_ok haddr (memOk_nil hu.canFlush.holes _), Access.toRes_ok, Res.bind_ok]; rfl⟩

end

/-! ## COMPRESS_BODY (R148, R213) -/

/-- A rule of COMPRESS run in `s` completes within the bound, or raises OutputTooSmall in a region smaller than the bound. -/
def WithinBound (s : State) (x : Res Unit) : Prop :=
  (∃ z, x = .ok () (completeOp z.enc.wc z) ∧ z.regs.err = s.regs.err ∧ z.enc.wc.toNat ≤ sizeBound s.op.len.toNat) ∨
  (∃ u, x = .raise .outputTooSmall u) ∧ s.op.cap.toNat < sizeBound s.op.len.toNat

section

variable {s t : State} {x : Res Unit} {fuel : Nat}

theorem DatapathOnly.withinBound (h : DatapathOnly s t) (hx : WithinBound t x) : WithinBound s x := by
  unfold WithinBound at hx
  rwa [h.op, h.regs] at hx

theorem encEndStep_withinBound (hrun : EncRun s) (h : CanFlush s) (hs : Counted s) : WithinBound s (encEndStep s) := by
  have ⟨_, _, hcur, _⟩ := hrun
  obtain ⟨c, hcount, hconsumed⟩ := hs
  obtain ⟨z, hend, hz, -⟩ := encEndStep_ok h
  exact .inl ⟨z, hend, congrArg (·.regs.err) hz.only, hz.wc_le.trans (hcount.wc.trans_le (hconsumed.words_le hcur))⟩

/-- The loop, by induction on the element steps left. -/
theorem encLoop_withinBound (hrun : EncRun s) (h : CanFlush s) (hs : Counted s) (hfuel : s.op.len.toNat - s.enc.cur.toNat ≤ fuel) :
    WithinBound s (encLoop fuel s) := by
  induction fuel generalizing s with
  | zero =>
    rw [encLoop_end h.holes (by omega)]
    exact encEndStep_withinBound hrun h hs
  | succ fuel ih =>
    rcases Nat.lt_or_ge s.enc.cur.toNat s.op.len.toNat with hc | hc
    · rw [encLoop_element h.holes hc]
      rcases encodeStepOp_cases hrun h hc hs with ⟨t, hstep⟩ | ⟨⟨u, hraise⟩, hcap⟩
      · have he := encodeStepOp_element hrun h hc hstep
        have hencoded := encodeStepOp_all hrun hc
        rw [hstep] at hencoded
        have hcur := hencoded.cur
        rw [hstep, Res.bind_ok]
        exact hencoded.toDatapathOnly.withinBound (ih hencoded.run he.canFlush (he.counted hs) (by rw [hencoded.op]; omega))
      · exact .inr ⟨⟨u, by rw [hraise, Res.bind_raise]⟩, hcap⟩
    · rw [encLoop_end h.holes hc]
      exact encEndStep_withinBound hrun h hs

/-- Before the first element nothing is counted. -/
theorem encStarted_counted (s : State) : Counted (encStarted s) :=
  have hnone : Tally (fun _ => 0) (encStarted s).enc :=
    ⟨fun k ho => (by rw [encStarted_closed] at ho; cases ho), fun k => (by cases k <;> rfl), rfl⟩
  ⟨_, hnone, rfl, le_rfl, nofun⟩

theorem compressBodyOp_withinBound (h : CanCompress s) : WithinBound s (compressBodyOp s) := by
  have ⟨_, hbuf, hlegal, hholes, hdevices⟩ := h
  rcases Nat.lt_or_ge s.op.cap.toNat 8 with hcap | hcap
  · have hraise := (PlainRegions.mk hbuf hholes hdevices).encStartStep_noRoom hlegal hcap
    refine .inr ⟨⟨s, by rw [compressBodyOp, hraise, Res.bind_raise]⟩, hcap.trans_le ?_⟩
    unfold sizeBound
    omega
  · have hrun : EncRun ((encStarted s).setPhase .loop) := encStarted_encRun h hcap
    have hcan : CanFlush ((encStarted s).setPhase .loop) := canFlush_of_encRun hrun (encStarted_wf h hcap) hholes
    rw [compressBodyOp, encStartStep_ok h hcap, Res.bind_ok]
    exact encLoop_withinBound hrun hcan (encStarted_counted s) (Nat.sub_le _ _)

end

/-- Settles O37: the loop completes within the bound or runs out of a region smaller than it; the error leaves DONE clear. -/
theorem compressedSizeBound : Obligations.CompressedSizeBound := by
  intro s h hclear n bound
  have ⟨_, _, _, hholes, _⟩ := h
  rcases compressBodyOp_withinBound h with ⟨z, hok, herr, hwc⟩ | ⟨⟨u, hraise⟩, hcap⟩
  · refine ⟨fun t ht _ => ?_, fun _ => ⟨_, congrArg settle hok, rfl, herr⟩⟩
    rw [exec_compressBody, hok] at ht
    cases ht
    exact hwc
  · refine ⟨fun t ht hdone => ?_, fun hroom => absurd hcap (Nat.not_lt.2 hroom)⟩
    have hok := compressBodyOp_of_done hholes hclear ht hdone
    cases hraise.symm.trans hok

end Sys2Proof.Machine
end
